-- ==== Sys2Proof/Word.lean ====
section
/-! DEFINITION. The word types of the block (00_scope.md R12, R15). -/

namespace Sys2Proof

/-- One byte of chip RAM. -/
abbrev Byte := BitVec 8

/-- A 16-bit word: every bus transfer and every register (R12). -/
abbrev Word := BitVec 16

/-- A register offset, 9 bits (R37). -/
abbrev Offset := BitVec 9

/-- A DMA pointer. `CHIP_ADDR_BITS` is at most 21 (R10), so 21 bits hold every pointer; the bits at and
above `CHIP_ADDR_BITS` and bit 0 stay 0 (R12, R45), which `Ops.lean` keeps so. -/
abbrev Ptr := BitVec 21

/-- A 12-bit RGB colour (R58). -/
abbrev Colour := BitVec 12

end Sys2Proof
end

