-- ==== Sys2Proof/Syntax.lean ====
section
/-! DEFINITION. The Copper's three instructions (30_encoding.md) and the names of the chip registers
(10_state.md R38). -/

namespace Sys2Proof

/-- One constructor per row of the opcode table. -/
inductive Instr where
  /-- MOVE (R151, R154): `ign` is IR1[15:9] (ignored), `dest` the destination offset, `data` the value. -/
  | move (ign : BitVec 7) (dest : Offset) (data : Word)
  /-- WAIT (R152): the fields VP, HP, BFD, VE, HE. -/
  | wait (vp : Byte) (hp : BitVec 7) (bfd : Bool) (ve he : BitVec 7)
  /-- SKIP (R152): the fields of WAIT. -/
  | skip (vp : Byte) (hp : BitVec 7) (bfd : Bool) (ve he : BitVec 7)
deriving DecidableEq, Repr

namespace Instr

/-- The syntax `MOVE <reg>, <value16>` (R159). -/
def asmMove (dest : Offset) (value : Word) : Instr := .move 0 dest value

/-- The syntax `WAIT <v>, <h>` with the default enables (R159). -/
def asmWait (v h : Byte) (ve : BitVec 7 := 0x7F) (he : BitVec 7 := 0x7F) (bfd : Bool := true) : Instr :=
  .wait v (h.extractLsb' 1 7) bfd ve he

/-- The syntax `SKIP <v>, <h>` with the default enables (R159). -/
def asmSkip (v h : Byte) (ve : BitVec 7 := 0x7F) (he : BitVec 7 := 0x7F) (bfd : Bool := true) : Instr :=
  .skip v (h.extractLsb' 1 7) bfd ve he

/-- The pseudo-instruction CEND (R160). -/
def cend : Instr := asmWait 255 254

/-- The pseudo-instruction CNOP (R160). -/
def cnop : Instr := asmMove 0x08C 0

/-- The pseudo-instruction WAITBLIT (R160). -/
def waitblit : Instr := asmWait 0 0 (ve := 0) (he := 0) (bfd := false)

end Instr

/-- The registers of R38, in offset order. An offset with none of these names is unmapped. -/
inductive Reg where
  | bltddat | dmaconr | vposr | vhposr | dskdatr | joy0dat | joy1dat | clxdat
  | adkconr | pot0dat | pot1dat | potgor | serdatr | dskbytr | intenar | intreqr
  | dskpth | dskptl | dsklen | dskdat | refptr | vposw | vhposw | copcon
  | serdat | serper | potgo | joytest | strequ | strvbl | strhor | strlong
  | bltcon0 | bltcon1 | bltafwm | bltalwm | bltcpth | bltcptl | bltbpth | bltbptl
  | bltapth | bltaptl | bltdpth | bltdptl | bltsize | bltcmod | bltbmod | bltamod | bltdmod
  | bltcdat | bltbdat | bltadat | dsksync
  | cop1lch | cop1lcl | cop2lch | cop2lcl | copjmp1 | copjmp2 | copins
  | diwstrt | diwstop | ddfstrt | ddfstop | dmacon | clxcon | intena | intreq | adkcon
  | audlch (n : Fin 4) | audlcl (n : Fin 4) | audlen (n : Fin 4) | audper (n : Fin 4)
  | audvol (n : Fin 4) | auddat (n : Fin 4)
  | bplpth (n : Fin 6) | bplptl (n : Fin 6)
  | bplcon0 | bplcon1 | bplcon2 | bpl1mod | bpl2mod
  | bpldat (n : Fin 6)
  | sprpth (n : Fin 8) | sprptl (n : Fin 8)
  | sprpos (n : Fin 8) | sprctl (n : Fin 8) | sprdata (n : Fin 8) | sprdatb (n : Fin 8)
  | color (n : Fin 32)
deriving DecidableEq, Repr

end Sys2Proof
end

