-- ==== Sys2Proof/WellFormed.lean ====
section
/-! DEFINITION. The one check a MOVE term needs: register offsets are even (10_state.md R37). Every other
operand has exactly the width its field has (30_encoding.md R151, R152). -/

namespace Sys2Proof

/-- The instruction is one an encoding exists for. -/
def Instr.wellFormed : Instr → Bool
  | .move _ dest _ => !dest.getLsbD 0
  | .wait _ _ _ _ _ => true
  | .skip _ _ _ _ _ => true

end Sys2Proof
end

