-- ==== Sys2Proof/Decode.lean ====
section
/-! DEFINITION. Decoding and encoding of Copper instructions (30_encoding.md R150 to R156). -/

namespace Sys2Proof

/-- The instruction the two words IR1, IR2 stand for: the map of R156 is total. -/
def decodeWords (ir1 ir2 : Word) : Instr :=
  if ir1.getLsbD 0 = false then
    .move (ir1.extractLsb' 9 7) ((ir1 &&& 0x1FE).setWidth 9) ir2
  else if ir2.getLsbD 0 = false then
    .wait (ir1.extractLsb' 8 8) (ir1.extractLsb' 1 7) (ir2.getLsbD 15) (ir2.extractLsb' 8 7) (ir2.extractLsb' 1 7)
  else
    .skip (ir1.extractLsb' 8 8) (ir1.extractLsb' 1 7) (ir2.getLsbD 15) (ir2.extractLsb' 8 7) (ir2.extractLsb' 1 7)

/-- Why a list of bytes is no instruction: no 32-bit value is illegal (R157), so only missing bytes. -/
inductive DecodeError where
  /-- Fewer than the four bytes of R150. -/
  | truncated
deriving DecidableEq, Repr

/-- Two big-endian words (R150), and the bytes after them. -/
def decode : List Byte → Except DecodeError (Instr × List Byte)
  | a :: b :: c :: d :: rest => .ok (decodeWords (a ++ b) (c ++ d), rest)
  | _ => .error .truncated

/-- The words of a well-formed instruction (R151, R152). -/
def encode : Instr → Word × Word
  | .move ign dest data => (ign ++ dest.extractLsb' 1 8 ++ 0#1, data)
  | .wait vp hp bfd ve he => (vp ++ hp ++ 1#1, BitVec.ofBool bfd ++ ve ++ he ++ 0#1)
  | .skip vp hp bfd ve he => (vp ++ hp ++ 1#1, BitVec.ofBool bfd ++ ve ++ he ++ 1#1)

/-- The four bytes of two words in memory order (20_memory.md R123). -/
def wordsToBytes (w : Word × Word) : List Byte :=
  [w.1.extractLsb' 8 8, w.1.extractLsb' 0 8, w.2.extractLsb' 8 8, w.2.extractLsb' 0 8]

/-- The bytes of an instruction in memory order. -/
def encodeBytes (i : Instr) : List Byte := wordsToBytes (encode i)

/-- The two words of a 32-bit value `{IR1, IR2}`, IR1 in bits 31:16 (R150), its bits above `nbits` zero. -/
def tableWords (nbits w : Nat) : Word × Word :=
  let v : BitVec 32 := BitVec.ofNat 32 (w % 2 ^ nbits)
  (v.extractLsb' 16 16, v.extractLsb' 0 16)

/-- What the decoder reads from the bits `w`, numbered as the opcode table numbers them (assumption 16). -/
def decodeTableWord (nbits w : Nat) : Option Instr :=
  match decode (wordsToBytes (tableWords nbits w)) with
  | .ok (i, _) => if nbits ≤ 32 then some i else none
  | .error _ => none

/-- A row of the opcode table: the instruction's name, mask and match over `{IR1, IR2}` (R156). -/
structure OpcodeRow where
  name : String
  mask : BitVec 32
  pattern : BitVec 32
deriving DecidableEq, Repr

/-- The opcode table (R156). -/
def opcodeTable : List OpcodeRow :=
  [ ⟨"MOVE", 0x00010000, 0x00000000⟩, ⟨"WAIT", 0x00010001, 0x00010000⟩, ⟨"SKIP", 0x00010001, 0x00010001⟩ ]

/-- A 32-bit value has a row's pattern. -/
def OpcodeRow.fits (r : OpcodeRow) (v : BitVec 32) : Bool := v &&& r.mask == r.pattern

/-- The name of an instruction's row. -/
def Instr.mnemonic : Instr → String
  | .move _ _ _ => "MOVE"
  | .wait _ _ _ _ _ => "WAIT"
  | .skip _ _ _ _ _ => "SKIP"

end Sys2Proof
end

