-- ==== Sys2Proof/Config.lean ====
section
/-! DEFINITION. The implementation parameters of 00_scope.md R10 with their constraints (R14), and the free
values (40_scheduler.md R199, R200). -/

namespace Sys2Proof

/-- `VIDEO_STD` (R10). -/
inductive VideoStd where
  | pal
  | ntsc
deriving DecidableEq, Repr

/-- The parameters of R10. A model takes them as arguments: they stand in `State.cfg`, and no step changes
them (assumption 1). -/
structure Config where
  videoStd : VideoStd
  lineLength : Nat
  fieldHeight : Nat
  vblankEndLine : Nat
  vsyncStartLine : Nat
  vsyncEndLine : Nat
  hsyncStart : Nat
  hsyncEnd : Nat
  hblankStart : Nat
  hblankEnd : Nat
  burstStart : Nat
  burstEnd : Nat
  chipAddrBits : Nat
  chipRamBytes : Nat
  spriteFetchCycle : Vector Nat 8
  spriteDmaStartLine : Nat
  pixelBufferUnits : Nat
  ehbSupported : Bool
  copperVblankReload : Bool
  wordsyncSupported : Bool
deriving DecidableEq, Repr

namespace Config

/-- The reference values of R10 (PAL). -/
def ref : Config where
  videoStd := .pal
  lineLength := 227
  fieldHeight := 312
  vblankEndLine := 25
  vsyncStartLine := 2
  vsyncEndLine := 5
  hsyncStart := 0x12
  hsyncEnd := 0x23
  hblankStart := 0x0F
  hblankEnd := 0x3F
  burstStart := 0x27
  burstEnd := 0x2F
  chipAddrBits := 19
  chipRamBytes := 524288
  spriteFetchCycle := #v[0x15, 0x19, 0x1D, 0x21, 0x25, 0x29, 0x2D, 0x31]
  spriteDmaStartLine := 25
  pixelBufferUnits := 1024
  ehbSupported := true
  copperVblankReload := false
  wordsyncSupported := true

/-- The NTSC reference values of R10. -/
def refNtsc : Config :=
  { ref with
    videoStd := .ntsc, fieldHeight := 262, vblankEndLine := 20, vsyncStartLine := 3, vsyncEndLine := 6,
    spriteDmaStartLine := 20 }

/-- The horizontal blank range of R451: half-open, wrapping when it ends before it starts. -/
def hblank (c : Config) (cyc : Nat) : Bool :=
  if c.hblankStart ≤ c.hblankEnd then c.hblankStart ≤ cyc && cyc < c.hblankEnd
  else c.hblankStart ≤ cyc || cyc < c.hblankEnd

/-- The horizontal sync range of R451. -/
def hsync (c : Config) (cyc : Nat) : Bool := c.hsyncStart ≤ cyc && cyc < c.hsyncEnd

/-- The colour burst range of R451. -/
def burst (c : Config) (cyc : Nat) : Bool := c.burstStart ≤ cyc && cyc < c.burstEnd

/-- The constraints of R10, each with the status a refused construction reports (R14). That the burst lies inside
horizontal blank and outside sync is R10's description of the parameter, no constraint (assumption 19); one byte of RAM
is a power of two (assumption 12). -/
def constraints (c : Config) : List (Bool × String) :=
  [ (0x80 ≤ c.lineLength && c.lineLength ≤ 0x100, "LINE_LENGTH"),
    (0x100 < c.fieldHeight && c.fieldHeight ≤ 0x200, "FIELD_HEIGHT"),
    (0 < c.vblankEndLine && c.vblankEndLine < c.fieldHeight, "VBLANK_END_LINE"),
    (c.vsyncStartLine < c.vsyncEndLine && c.vsyncEndLine < c.vblankEndLine, "VSYNC_START_LINE, VSYNC_END_LINE"),
    (c.hsyncStart < c.hsyncEnd && c.hsyncEnd ≤ c.lineLength, "HSYNC_START, HSYNC_END"),
    (c.hblankStart < c.lineLength && c.hblankEnd < c.lineLength, "HBLANK_START, HBLANK_END"),
    (c.burstStart < c.lineLength && c.burstEnd < c.lineLength, "BURST_START, BURST_END"),
    (18 ≤ c.chipAddrBits && c.chipAddrBits ≤ 21, "CHIP_ADDR_BITS"),
    (c.chipRamBytes ≤ 2 ^ c.chipAddrBits && c.chipRamBytes == 2 ^ Nat.log2 c.chipRamBytes,
      "CHIP_RAM_BYTES"),
    (c.spriteFetchCycle.toList.all (· < c.lineLength - 1), "SPRITE_FETCH_CYCLE"),
    (c.spriteDmaStartLine < c.fieldHeight, "SPRITE_DMA_START_LINE"),
    (4 ≤ c.pixelBufferUnits, "PIXEL_BUFFER_UNITS") ]

/-- The status of the first constraint that does not hold (R14). -/
def problem (c : Config) : Option String := (c.constraints.find? (fun p => !p.1)).map (·.2)

/-- Every constraint of R10 holds. -/
def valid (c : Config) : Bool := c.constraints.all (·.1)

/-- The free values: the `n`-th draw (R199, R200). No value of it can be proved (assumption 4). -/
opaque draw : Nat → Word

end Config

end Sys2Proof
end

