-- ==== Sys2Proof/Machine/State.lean ====
section
/-! DEFINITION. The state of the block as plain data (10_state.md), the interface calls and records of its
collaborators (40_scheduler.md section 5), the reasons a step stops, and the reset state
(70_reset_and_hazards.md R531). -/

namespace Sys2Proof.Machine

/-! ## Memory and the scheduler -/

/-- Chip RAM (R120): the listed bytes in strictly rising address order, none of them zero; an unlisted byte
reads as zero (assumption 3). -/
abbrev Memory := List Host.Cell

/-- Raster position and scheduler state (R32 to R34). -/
structure Raster where
  line : Nat
  cycle : Nat
  frameCount : Nat
  lof : Bool
  residualTicks : Nat
deriving DecidableEq, Repr

/-! ## Interrupt controller -/

/-- R41, R42, R65: INTENA, INTREQ, the level and the peripheral inputs. -/
structure Irq where
  enable : Word
  request : Word
  level : Nat
  ports : Bool
  exter : Bool
  tbe : Bool
  rbf : Bool
  dsksyn : Bool
deriving DecidableEq, Repr

/-! ## Copper -/

/-- `cop_state` (R59). -/
inductive CopperMode where
  | stopped
  | running
  | waiting
deriving DecidableEq, Repr

/-- `pending_jump` (R59). -/
inductive PendingJump where
  | none
  | one
  | two
deriving DecidableEq, Repr

/-- R31, R44, R59. -/
structure Copper where
  mode : CopperMode
  pc : Ptr
  loc1 : Ptr
  loc2 : Ptr
  ir1 : Word
  ir2 : Word
  waitValue : Word
  waitMask : Word
  waitBfd : Bool
  pendingJump : PendingJump
  copcon : Word
  copins : Word
deriving DecidableEq, Repr

/-! ## Blitter -/

/-- `blit_step` (R60). -/
inductive BlitStep where
  | a
  | b
  | c
  | d
  | idleCycle
deriving DecidableEq, Repr

/-- R46 to R49, R60: `con0`, `con1` are BLTCON0, BLTCON1; `latch0`, `latch1` are `blit_con0`, `blit_con1`;
`adat`, `bdat`, `cdat` are the held words. -/
structure Blitter where
  busy : Bool
  zero : Bool
  con0 : Word
  con1 : Word
  latch0 : Word
  latch1 : Word
  afwm : Word
  alwm : Word
  size : Word
  apt : Ptr
  bpt : Ptr
  cpt : Ptr
  dpt : Ptr
  amod : Word
  bmod : Word
  cmod : Word
  dmod : Word
  adat : Word
  bdat : Word
  cdat : Word
  width : Nat
  height : Nat
  wordX : Nat
  linesLeft : Nat
  step : BlitStep
  aOld : Word
  bOld : Word
  fillCarry : Bool
deriving DecidableEq, Repr

/-! ## Bitplanes -/

/-- R50 to R52, R55 to R57, R61. Plane p of the spec has index p - 1. `posted` is `next_bitplanes`,
`previous` is `previous_bitplanes`, `shifter` is `sh`. -/
structure Planes where
  con0 : Word
  con1 : Word
  con2 : Word
  diwstrt : Word
  diwstop : Word
  ddfstrt : Word
  ddfstop : Word
  ptr : Vector Ptr 6
  mod1 : Word
  mod2 : Word
  next : Vector Word 6
  posted : Vector Word 6
  previous : Vector Word 6
  hasNext : Bool
  unitFetched : Vector Bool 6
  fetchingLine : Bool
  lineHires : Bool
  linePlanes : Nat
  shifter : Vector Word 6
deriving DecidableEq, Repr

/-! ## Sprites -/

/-- `spr_state` (R64). -/
inductive SpriteFetch where
  | stopped
  | fetchStart
  | fetchStopAndControl
  | waitingForStart
  | fetchData1
  | fetchData0
deriving DecidableEq, Repr

/-- One sprite (R64): `dataA` is `data[0]` (SPRnDATA), `dataB` is `data[1]` (SPRnDATB). -/
structure Sprite where
  ptr : Ptr
  vStart : BitVec 9
  vStop : BitVec 9
  hStart : BitVec 9
  dataA : Word
  dataB : Word
  attached : Bool
  active : Bool
  fetch : SpriteFetch
  fetched : Nat
  shiftL : BitVec 32
  shiftM : BitVec 32
deriving DecidableEq, Repr

/-! ## Disk and audio -/

/-- `dsk_dir` (R62). -/
inductive DiskDir where
  | read
  | write
deriving DecidableEq, Repr

/-- R62. -/
structure Disk where
  ptr : Ptr
  dsklen : Word
  dsksync : Word
  armed : Bool
  active : Bool
  dir : DiskDir
  left : BitVec 14
  syncSeen : Bool
  buf : Word
  bufFull : Bool
deriving DecidableEq, Repr

/-- One audio channel (R63). -/
structure Audio where
  loc : Ptr
  len : Word
  per : Word
  vol : BitVec 7
  ptr : Ptr
  left : BitVec 17
  running : Bool
  dat : Word
  request : Bool
deriving DecidableEq, Repr

/-! ## Output assembler -/

/-- An output class; a border run carries its colour (R68, R460). -/
inductive OutClass where
  | sync
  | blank
  | colourBurst
  | border (c : Colour)
  | pixels
deriving DecidableEq, Repr

/-- R68. -/
structure Output where
  cls : OutClass
  len : Nat
  pix : List Colour
  ham : Colour
deriving DecidableEq, Repr

/-- One call to the video sink (R461); counts are in sink units. -/
inductive SinkCall where
  | outputSync (n : Nat)
  | outputBlank (n : Nat)
  | outputColourBurst (n : Nat)
  | outputLevel (n : Nat) (c : Colour)
  | outputData (n : Nat) (data : List Colour)
deriving DecidableEq, Repr

/-! ## Interface calls and records -/

/-- What the block hands to a collaborator other than the sink. -/
inductive OutMessage where
  /-- A write of a class X register, forwarded (R200). -/
  | forward (r : Reg) (v : Word)
  /-- The value of a stored register, passed on at its write (R43, R412, R424). -/
  | passed (r : Reg) (v : Word)
  /-- `audio_word` (R422, R424). -/
  | audioWord (n : Fin 4) (w : Word)
  /-- BPLCON0's COLOR bit, passed to the sink (R50; assumption 13). -/
  | colourEnable (b : Bool)
  /-- Media insertion, passed to the disk controller (R205). -/
  | mediaInserted
deriving DecidableEq, Repr

/-- Where the external memory map sends an access (R201, R121). -/
inductive Target where
  /-- A chip register, by its offset. -/
  | register (o : Offset)
  /-- Chip RAM, which the memory map accesses for the CPU. -/
  | chipRam (a : Nat)
  /-- Memory outside the block. -/
  | general
deriving DecidableEq, Repr

/-- The data width of an access (R201). -/
inductive Width where
  | word
  | byte
deriving DecidableEq, Repr

/-- A CPU access (R201): a read, or a write of `data` (its low byte when the width is a byte). -/
inductive Access where
  | read (t : Target) (w : Width)
  | write (t : Target) (w : Width) (data : Word)
deriving DecidableEq, Repr

/-- The two modes of a run (R182). -/
inductive RunMode where
  | runFull
  | stopOnCpuSlot
deriving DecidableEq, Repr

/-- A run operation in progress: its mode, the slots still to run (`runFull`), and its result so far. -/
structure Run where
  mode : RunMode
  left : Nat
  elapsedSlots : Nat
  levelChanged : Bool
  linesStarted : Nat
  framesStarted : Nat
deriving DecidableEq, Repr

/-- The result record of a run (R185). -/
structure RunResult where
  elapsedSlots : Nat
  elapsedTicks : Nat
  level : Nat
  levelChanged : Bool
  linesStarted : Nat
  framesStarted : Nat
deriving DecidableEq, Repr

/-- What the block answers its callers. -/
inductive Response where
  | run (r : RunResult)
  | readData (v : Word)
  | level (l : Nat)
  | diskWord (valid : Bool) (w : Word)
  | scanStatus (v : Word)
deriving DecidableEq, Repr

/-- The values R531 leaves unspecified: one draw per piece of state, written as the units that hold them
(`State.resetWith` reads only the unspecified fields). -/
structure ResetDraws where
  copper : Copper
  blitter : Blitter
  planes : Planes
  sprites : Vector Sprite 8
  disk : Disk
  audio : Vector Audio 4
  palette : Vector Colour 32
  refptr : Word
  clxcon : Word
deriving DecidableEq, Repr

/-- The operations of the caller that drives the block (40_scheduler.md sections 1 and 5, R530). -/
inductive Call where
  | advance (n : Nat)
  | runFor (d : Nat)
  | advanceUntilCpuSlot
  | perform (a : Access)
  | getInterruptLevel
  | reset (d : ResetDraws)
deriving DecidableEq, Repr

/-- The acts of the other collaborators, at any time between slots (R203 to R205, R412, R425, R427). -/
inductive Input where
  | setPeripheralInterrupts (ports exter : Bool)
  | setSerialInterrupts (tbe rbf : Bool)
  | setDiskSync (dsksyn : Bool)
  | setScanTarget (installed : Bool)
  | getScanStatus
  | insertMedia
  | diskWordIn (w : Word)
  | diskWordOut
  | audioRequest (n : Fin 4)
deriving DecidableEq, Repr

/-- The whole machine. `cfg` is the configuration; `inputs`, `calls`, `run`, `responses`, `video`, `outbox` and
`drawCount` are the model's own fields (assumptions 4, 5, 6). An entry `(k, i)` of `inputs` arrives when `k` more
slots and calls have been performed since the entry before it. -/
structure State where
  cfg : Config
  mem : Memory
  raster : Raster
  dmacon : Word
  adkcon : Word
  refptr : Word
  clxcon : Word
  irq : Irq
  copper : Copper
  blitter : Blitter
  planes : Planes
  sprites : Vector Sprite 8
  disk : Disk
  audio : Vector Audio 4
  palette : Vector Colour 32
  output : Output
  sinkInstalled : Bool
  video : List SinkCall
  outbox : List OutMessage
  responses : List Response
  inputs : List (Nat × Input)
  calls : List Call
  run : Option Run
  drawCount : Nat
deriving DecidableEq, Repr

/-- The asserts of the spec (00_scope.md R16). -/
inductive Fault where
  /-- The assert of R124: a word access at an odd offset. Raised by `perform` and by a MOVE term that is not
  well formed (the decoder gives none). Safe: the machine stops where the spec calls the access impossible. -/
  | misalignedWordAccess
deriving DecidableEq, Repr

/-- What has no meaning. -/
inductive Refusal where
  /-- An instruction whose meaning is not written (raised by `exec` alone). Safe. -/
  | notModelled (mnemonic : String)
  /-- Arming the Blitter with BLTCON1.LINE = 1 (R298: a model refuses it). Raised by a write of BLTSIZE.
  Safe: nothing is claimed past it. -/
  | blitterLineMode
  /-- Construction with parameters outside R10 (R14), with the constraint's name. Raised by `construct`
  alone. Safe: the configuration has no initial state. -/
  | badConfiguration (status : String)
deriving DecidableEq, Repr

/-! ## Reset -/

namespace ResetDraws

/-- Every unspecified value zero (assumption 2). -/
def zero : ResetDraws where
  copper :=
    { mode := .stopped, pc := 0, loc1 := 0, loc2 := 0, ir1 := 0, ir2 := 0, waitValue := 0, waitMask := 0,
      waitBfd := false, pendingJump := .none, copcon := 0, copins := 0 }
  blitter :=
    { busy := false, zero := false, con0 := 0, con1 := 0, latch0 := 0, latch1 := 0, afwm := 0, alwm := 0, size := 0,
      apt := 0, bpt := 0, cpt := 0, dpt := 0, amod := 0, bmod := 0, cmod := 0, dmod := 0, adat := 0, bdat := 0,
      cdat := 0, width := 0, height := 0, wordX := 0, linesLeft := 0, step := .a, aOld := 0, bOld := 0,
      fillCarry := false }
  planes :=
    { con0 := 0, con1 := 0, con2 := 0, diwstrt := 0, diwstop := 0, ddfstrt := 0, ddfstop := 0,
      ptr := .replicate 6 0, mod1 := 0, mod2 := 0, next := .replicate 6 0, posted := .replicate 6 0,
      previous := .replicate 6 0, hasNext := false, unitFetched := .replicate 6 false, fetchingLine := false,
      lineHires := false, linePlanes := 0, shifter := .replicate 6 0 }
  sprites := .replicate 8
    { ptr := 0, vStart := 0, vStop := 0, hStart := 0, dataA := 0, dataB := 0, attached := false, active := false,
      fetch := .stopped, fetched := 0, shiftL := 0, shiftM := 0 }
  disk :=
    { ptr := 0, dsklen := 0, dsksync := 0, armed := false, active := false, dir := .read, left := 0,
      syncSeen := false, buf := 0, bufFull := false }
  audio := .replicate 4
    { loc := 0, len := 0, per := 0, vol := 0, ptr := 0, left := 0, running := false, dat := 0, request := false }
  palette := .replicate 32 0
  refptr := 0
  clxcon := 0

end ResetDraws

/-- A pointer cut to its `CHIP_ADDR_BITS` bits with bit 0 = 0 (R12, R45). -/
def wrapPtr (cfg : Config) (p : Ptr) : Ptr := p &&& BitVec.ofNat 21 (2 ^ cfg.chipAddrBits - 2)

/-- A vector mapped element by element, in a form the kernel evaluates. -/
def vmap {α β : Type} {n : Nat} (f : α → β) (v : Vector α n) : Vector β n :=
  ⟨⟨v.toList.map f⟩, by simp⟩

namespace Copper

/-- The Copper's reset values (R531) over its draws. -/
def reset (cfg : Config) (d : Copper) : Copper :=
  { d with
    mode := .stopped, pendingJump := .none, copcon := 0,
    pc := wrapPtr cfg d.pc, loc1 := wrapPtr cfg d.loc1, loc2 := wrapPtr cfg d.loc2 }

end Copper

namespace Blitter

/-- The Blitter's reset values (R531) over its draws. The draws of `blit_width`, `blit_height`, `word_x` and
`lines_left` are taken as given and not cut to the ranges of R60, which hold of a busy Blitter (DESIGN CHOICE,
assumption 27). -/
def reset (cfg : Config) (d : Blitter) : Blitter :=
  { d with
    busy := false, zero := false, con0 := 0, con1 := 0, size := 0,
    apt := wrapPtr cfg d.apt, bpt := wrapPtr cfg d.bpt, cpt := wrapPtr cfg d.cpt, dpt := wrapPtr cfg d.dpt }

end Blitter

namespace Planes

/-- The bitplane unit's reset values (R531) over its draws. -/
def reset (cfg : Config) (d : Planes) : Planes :=
  { d with
    con0 := 0, con1 := 0, con2 := 0, ptr := vmap (wrapPtr cfg) d.ptr,
    next := .replicate 6 0, posted := .replicate 6 0, previous := .replicate 6 0, hasNext := false,
    unitFetched := .replicate 6 false, fetchingLine := false, lineHires := false, linePlanes := 0,
    shifter := .replicate 6 0 }

end Planes

namespace Sprite

/-- A sprite's reset values (R531) over its draws. -/
def reset (cfg : Config) (d : Sprite) : Sprite :=
  { d with ptr := wrapPtr cfg d.ptr, active := false, fetch := .stopped, fetched := 0, shiftL := 0, shiftM := 0 }

end Sprite

namespace Disk

/-- The disk channel's reset values (R531) over its draws. -/
def reset (cfg : Config) (d : Disk) : Disk :=
  { d with ptr := wrapPtr cfg d.ptr, armed := false, active := false, bufFull := false, syncSeen := false }

end Disk

namespace Audio

/-- An audio channel's reset values (R531) over its draws. -/
def reset (cfg : Config) (d : Audio) : Audio :=
  { d with loc := wrapPtr cfg d.loc, ptr := wrapPtr cfg d.ptr, running := false, request := false }

end Audio

namespace State

/-- `reset()` (R530, R531) with its draws. It emits no sink call; the configuration, chip RAM, the sink and the
records are not the block's state and stay (assumption 7). -/
def resetWith (d : ResetDraws) (s : State) : State :=
  { s with
    raster := { line := 0, cycle := 0, frameCount := 0, lof := true, residualTicks := 0 }
    dmacon := 0
    adkcon := 0
    refptr := d.refptr
    clxcon := d.clxcon
    irq := { enable := 0, request := 0, level := 0, ports := false, exter := false, tbe := false, rbf := false,
             dsksyn := false }
    copper := d.copper.reset s.cfg
    blitter := d.blitter.reset s.cfg
    planes := d.planes.reset s.cfg
    sprites := vmap (Sprite.reset s.cfg) d.sprites
    disk := d.disk.reset s.cfg
    audio := vmap (Audio.reset s.cfg) d.audio
    palette := d.palette
    output := { cls := .blank, len := 0, pix := [], ham := 0 } }

/-- The state a construction hands to its first `reset()`: nothing in chip RAM, no sink, no call made. -/
def blank (cfg : Config) : State :=
  { cfg := cfg
    mem := []
    raster := { line := 0, cycle := 0, frameCount := 0, lof := true, residualTicks := 0 }
    dmacon := 0
    adkcon := 0
    refptr := 0
    clxcon := 0
    irq := { enable := 0, request := 0, level := 0, ports := false, exter := false, tbe := false, rbf := false,
             dsksyn := false }
    copper := ResetDraws.zero.copper
    blitter := ResetDraws.zero.blitter
    planes := ResetDraws.zero.planes
    sprites := ResetDraws.zero.sprites
    disk := ResetDraws.zero.disk
    audio := ResetDraws.zero.audio
    palette := ResetDraws.zero.palette
    output := { cls := .blank, len := 0, pix := [], ham := 0 }
    sinkInstalled := false
    video := []
    outbox := []
    responses := []
    inputs := []
    calls := []
    run := none
    drawCount := 0 }

/-- Construction (R14, R530): a configuration outside R10 is refused with a status and has no initial state;
otherwise the block is reset. -/
def construct (cfg : Config) (d : ResetDraws) : Host.Outcome State Fault Refusal :=
  match cfg.problem with
  | some status => .refused (.badConfiguration status)
  | none => .next ((blank cfg).resetWith d)

/-- The machine right after reset, with the reference parameters (assumption 1) and every unspecified value
zero (assumption 2). -/
def reset : State := (blank Config.ref).resetWith ResetDraws.zero

end State

end Sys2Proof.Machine
end

