-- ==== Sys2Proof/Machine/Ops.lean ====
section
/-! DEFINITION. The named operations over memory, pointers, registers and requests that every unit shares. -/

namespace Sys2Proof.Machine

/-! ## Outcomes -/

/-- Go on with `f` from a next state; a fault or a refusal stops. -/
def andThen (o : Host.Outcome State Fault Refusal) (f : State → Host.Outcome State Fault Refusal) :
    Host.Outcome State Fault Refusal :=
  match o with
  | .next s => f s
  | .fault r => .fault r
  | .refused r => .refused r

/-! ## Vectors -/

/-- A vector computed from its old elements with their indexes, in a form the kernel evaluates. -/
def vmapIdx {α β : Type} {n : Nat} (f : Fin n → α → β) (v : Vector α n) : Vector β n :=
  ⟨⟨(List.finRange n).map (fun i => f i v[i])⟩, by simp⟩

/-! ## Chip RAM (20_memory.md) -/

namespace Memory

/-- One byte; an unlisted byte reads as zero (assumption 3). -/
def read : Memory → Nat → Byte
  | [], _ => 0
  | (k, x) :: t, a => if k = a then x else read t a

/-- Store one byte, keeping the canonical form. -/
def write : Memory → Nat → Byte → Memory
  | [], a, b => if b = 0 then [] else [(a, b)]
  | (k, x) :: t, a, b =>
    if a < k then (if b = 0 then (k, x) :: t else (a, b) :: (k, x) :: t)
    else if a = k then (if b = 0 then t else (a, b) :: t)
    else (k, x) :: write t a b

/-- An address above a bound (`none`: no bound). -/
def above : Option Nat → Nat → Bool
  | none, _ => true
  | some l, k => decide (l < k)

/-- Every listed address is above `lo`, the addresses rise strictly, no byte is zero. -/
def wfFrom : Option Nat → Memory → Bool
  | _, [] => true
  | lo, (k, x) :: t => above lo k && x != 0 && wfFrom (some k) t

/-- The canonical form. -/
def wf (m : Memory) : Bool := wfFrom none m

/-- The big-endian word at an address (R123). -/
def readWord (m : Memory) (a : Nat) : Word := read m a ++ read m (a + 1)

/-- Store a big-endian word (R123). -/
def writeWord (m : Memory) (a : Nat) (v : Word) : Memory :=
  write (write m a (v.extractLsb' 8 8)) (a + 1) (v.extractLsb' 0 8)

end Memory

/-- Address reduction with bit 0 kept (R122 before its last step). -/
def reduceByte (cfg : Config) (a : Nat) : Nat := a % 2 ^ cfg.chipAddrBits % cfg.chipRamBytes

/-- Address reduction of a word access (R122). -/
def reduceAddr (cfg : Config) (a : Nat) : Nat := reduceByte cfg a / 2 * 2

namespace State

/-- `MemRead(p, 2)` (R16, R122). -/
def memRead (s : State) (p : Ptr) : Word := Memory.readWord s.mem (reduceAddr s.cfg p.toNat)

/-- `MemWrite(p, 2, v)` (R16, R122). -/
def memWrite (s : State) (p : Ptr) (v : Word) : State :=
  { s with mem := Memory.writeWord s.mem (reduceAddr s.cfg p.toNat) v }

end State

/-! ## Pointers (R45, R49) -/

/-- Pointer arithmetic modulo `2^CHIP_ADDR_BITS`. -/
def ptrAdd (cfg : Config) (p d : Ptr) : Ptr := wrapPtr cfg (p + d)

/-- A write to a pointer's high register (R45). -/
def ptrSetHigh (cfg : Config) (p : Ptr) (v : Word) : Ptr := wrapPtr cfg (v.extractLsb' 0 5 ++ p.extractLsb' 0 16)

/-- A write to a pointer's low register (R45). -/
def ptrSetLow (cfg : Config) (p : Ptr) (v : Word) : Ptr := wrapPtr cfg (p.extractLsb' 16 5 ++ v)

/-- The value a modulo register adds (R49). -/
def modulo (v : Word) : Ptr := (v &&& 0xFFFE).signExtend 21

/-! ## SET/CLR registers (R197) -/

/-- The new storage of a SET/CLR register with writable bits `mask`. -/
def setClr (mask old v : Word) : Word :=
  if v.getLsbD 15 then old ||| (v &&& mask) else old &&& ~~~(v &&& mask)

/-! ## Records -/

namespace State

/-- Hand a message to a collaborator. -/
def send (s : State) (m : OutMessage) : State := { s with outbox := m :: s.outbox }

/-- Answer the caller. -/
def respond (s : State) (r : Response) : State := { s with responses := r :: s.responses }

/-- A draw (R199): a value nothing constrains, a fresh one each time (assumption 4). -/
def draw (s : State) : Word × State := (Config.draw s.drawCount, { s with drawCount := s.drawCount + 1 })

end State

end Sys2Proof.Machine
end

