-- ==== Sys2Proof/Machine/Flags.lean ====
section
/-! DEFINITION. The computed flags: the interrupt level (60_exceptions.md), requests, channel enables and the
status registers the CPU reads (10_state.md R40, R66, R67). -/

namespace Sys2Proof.Machine

/-! ## Interrupt level -/

/-- `LEVEL_OF` (R42). -/
def levelOf (bit : Nat) : Nat :=
  if bit = 13 then 6
  else if bit = 12 ∨ bit = 11 then 5
  else if 7 ≤ bit ∧ bit ≤ 10 then 4
  else if 4 ≤ bit ∧ bit ≤ 6 then 3
  else if bit = 3 then 2
  else 1

/-- `compute_level()` (R491). -/
def computeLevel (enable request : Word) : Nat :=
  if enable.getLsbD 14 then
    (List.range 14).foldl (fun best i => if (enable &&& request).getLsbD i then max best (levelOf i) else best) 0
  else 0

/-- The request bits of R493 that the block itself or an input raises. -/
inductive IrqBit where
  | tbe | dskblk | ports | vertb | blit | aud (n : Fin 4) | rbf | dsksyn | exter
deriving DecidableEq, Repr

/-- The bit position of a request (R493). -/
def IrqBit.pos : IrqBit → Nat
  | .tbe => 0
  | .dskblk => 1
  | .ports => 3
  | .vertb => 5
  | .blit => 6
  | .aud n => 7 + n
  | .rbf => 11
  | .dsksyn => 12
  | .exter => 13

namespace Irq

/-- New masks, and the level recomputed at once (R491). -/
def withMasks (q : Irq) (enable request : Word) : Irq :=
  { q with enable := enable, request := request, level := computeLevel enable request }

/-- `set_request(bit)` (R492). -/
def setRequest (q : Irq) (b : IrqBit) : Irq := q.withMasks q.enable (q.request ||| (1#16 <<< b.pos))

end Irq

/-- `raise IRQ(bit)` (R16, R492): the one way a unit reports an event. -/
def State.raise (s : State) (b : IrqBit) : State := { s with irq := s.irq.setRequest b }

/-! ## DMA enables (R40) -/

/-- The DMA channels (R18, R188). -/
inductive Channel where
  | copper
  | blitter
  | bitplane
  | sprite (n : Fin 8)
  | disk
  | audio (n : Fin 4)
deriving DecidableEq, Repr

/-- The DMACON bit of a channel (R40). -/
def Channel.bit : Channel → Nat
  | .copper => 7
  | .blitter => 6
  | .bitplane => 8
  | .sprite _ => 5
  | .disk => 4
  | .audio n => n

/-- A channel is enabled under a DMACON value: DMAEN and its own bit (R40). -/
def enabledIn (dmacon : Word) (c : Channel) : Bool := dmacon.getLsbD 9 && dmacon.getLsbD c.bit

/-- A channel is enabled (R40). -/
def State.enabled (s : State) (c : Channel) : Bool := enabledIn s.dmacon c

/-- `dmacon.BLTPRI` (R40). -/
def State.bltpri (s : State) : Bool := s.dmacon.getLsbD 10

/-! ## Status registers -/

/-- DMACONR (R40). -/
def State.dmaconr (s : State) : Word :=
  0#1 ++ BitVec.ofBool s.blitter.busy ++ BitVec.ofBool s.blitter.zero ++ 0#2 ++ s.dmacon.extractLsb' 0 11

/-- VPOSR (R66). -/
def State.vposr (s : State) : Word :=
  BitVec.ofBool s.raster.lof ++ 0#14 ++ (BitVec.ofNat 9 s.raster.line).extractLsb' 8 1

/-- VHPOSR (R67). -/
def State.vhposr (s : State) : Word := BitVec.ofNat 8 s.raster.line ++ BitVec.ofNat 8 s.raster.cycle

end Sys2Proof.Machine
end

