-- ==== Sys2Proof/Machine/Operands.lean ====
section
/-! DEFINITION. The operands of WAIT and SKIP (30_encoding.md R155) and the fields of the control registers
(10_state.md R46 to R57) in the form the units use. -/

namespace Sys2Proof.Machine

/-! ## WAIT and SKIP -/

/-- `wait_value = {VP, HP, 0}` (R155). -/
def waitValueOf (vp : Byte) (hp : BitVec 7) : Word := vp ++ hp ++ 0#1

/-- `wait_mask = {1, VE, HE, 0}` (R155). -/
def waitMaskOf (ve he : BitVec 7) : Word := 1#1 ++ ve ++ he ++ 0#1

/-- The beam word of the current position (R155): `line[7:0]`, `cycle[7:1]`, 0. -/
def Raster.beam (r : Raster) : Word := BitVec.ofNat 8 r.line ++ (BitVec.ofNat 8 r.cycle).extractLsb' 1 7 ++ 0#1

/-- The position part and the Blitter part of a wait (R155). -/
def State.satisfied (s : State) (value mask : Word) (bfd : Bool) : Bool :=
  decide ((value &&& mask).toNat ≤ (s.raster.beam &&& mask).toNat) && (bfd || !s.blitter.busy)

/-! ## Blitter control fields -/

/-- A channel enable of BLTCON0 (R46). -/
def useA (con0 : Word) : Bool := con0.getLsbD 11
def useB (con0 : Word) : Bool := con0.getLsbD 10
def useC (con0 : Word) : Bool := con0.getLsbD 9
def useD (con0 : Word) : Bool := con0.getLsbD 8
/-- ASH of BLTCON0 and BSH of BLTCON1 (R46, R47). -/
def shiftOf (con : Word) : Nat := (con.extractLsb' 12 4).toNat
/-- LF of BLTCON0 (R46). -/
def lfOf (con0 : Word) : BitVec 8 := con0.extractLsb' 0 8
/-- The mode bits of BLTCON1 (R47). -/
def efe (con1 : Word) : Bool := con1.getLsbD 4
def ife (con1 : Word) : Bool := con1.getLsbD 3
def fci (con1 : Word) : Bool := con1.getLsbD 2
def desc (con1 : Word) : Bool := con1.getLsbD 1
def lineMode (con1 : Word) : Bool := con1.getLsbD 0

/-- BLTSIZE's W, 0 meaning 64 (R48). -/
def sizeWidth (v : Word) : Nat := if v.extractLsb' 0 6 = 0 then 64 else (v.extractLsb' 0 6).toNat

/-- BLTSIZE's H, 0 meaning 1024 (R48). -/
def sizeHeight (v : Word) : Nat := if v.extractLsb' 6 10 = 0 then 1024 else (v.extractLsb' 6 10).toNat

/-! ## Display control fields -/

namespace Planes

/-- HIRES, HOMOD, DBLPF of BPLCON0 (R50). -/
def hires (p : Planes) : Bool := p.con0.getLsbD 15
def homod (p : Planes) : Bool := p.con0.getLsbD 11
def dblpf (p : Planes) : Bool := p.con0.getLsbD 10

/-- BPU of BPLCON0, 7 treated as 6 (R50, R331). -/
def bpu (p : Planes) : Nat := min (p.con0.extractLsb' 12 3).toNat 6

/-- The delays of BPLCON1 (R51). -/
def oddDelay (p : Planes) : Nat := (p.con1.extractLsb' 0 4).toNat
def evenDelay (p : Planes) : Nat := (p.con1.extractLsb' 4 4).toNat

/-- PF2PRI and the playfield codes of BPLCON2, 5..7 acting as 4 (R52, R457). -/
def pf2pri (p : Planes) : Bool := p.con2.getLsbD 6
def code1 (p : Planes) : Nat := min (p.con2.extractLsb' 0 3).toNat 4
def code2 (p : Planes) : Nat := min (p.con2.extractLsb' 3 3).toNat 4

/-- The display window's limits (R55, R56). -/
def diwVStart (p : Planes) : Nat := (p.diwstrt.extractLsb' 8 8).toNat
def diwHStart (p : Planes) : Nat := (p.diwstrt.extractLsb' 0 8).toNat
def diwVStop (p : Planes) : Nat := (~~~(p.diwstop.extractLsb' 15 1) ++ p.diwstop.extractLsb' 8 8).toNat
def diwHStop (p : Planes) : Nat := (1#1 ++ p.diwstop.extractLsb' 0 8).toNat

/-- The effective fetch window limits (R57). -/
def ddfStart (p : Planes) : Nat := max (p.ddfstrt &&& 0xFC).toNat 0x18
def ddfStop (p : Planes) : Nat := min (p.ddfstop &&& 0xFC).toNat 0xD8

/-- A position inside the display window (R451, and `fetch_line` of R332). -/
def inDiwV (p : Planes) (line : Nat) : Bool := p.diwVStart ≤ line && line < p.diwVStop
def inDiwH (p : Planes) (x : Nat) : Bool := p.diwHStart ≤ x && x < p.diwHStop

end Planes

end Sys2Proof.Machine
end

