-- ==== Sys2Proof/Machine/Bitplanes.lean ====
section
/-! DEFINITION. The bitplane fetch and shift pipeline (43_bitplanes.md). Plane p has index p - 1. -/

namespace Sys2Proof.Machine

namespace Planes

/-! ## Geometry (R331, R332) -/

/-- `U`, the slots of a fetch unit. -/
def unitSlots (p : Planes) : Nat := if p.lineHires then 4 else 8

/-- `ORDER`, the fetch order of the planes. -/
def order (p : Planes) : List (Fin 6) := if p.lineHires then [3, 1, 2, 0] else [3, 5, 1, 2, 4, 0]

/-- `n_units`. -/
def nUnits (p : Planes) : Nat :=
  if p.ddfStart ≤ p.ddfStop then ((p.ddfStop - p.ddfStart) / 8 + 1) * (8 / p.unitSlots) else 0

/-- `in_fetch_window(cyc)`. -/
def inFetchWindow (cfg : Config) (p : Planes) (cyc : Nat) : Bool :=
  p.ddfStart ≤ cyc && cyc < min (p.ddfStart + p.nUnits * p.unitSlots) cfg.lineLength

/-- `unit_pos(cyc)`. -/
def unitPos (p : Planes) (cyc : Nat) : Nat := (cyc - p.ddfStart) % p.unitSlots

/-- `last_unit(cyc)`. -/
def lastUnit (p : Planes) (cyc : Nat) : Bool := (cyc - p.ddfStart) / p.unitSlots + 1 == p.nUnits

/-- The plane the next fetch takes, if one is left in this unit (R333, R334). -/
def nextPlane (p : Planes) : Option (Fin 6) :=
  p.order.find? (fun i => decide (i.val < p.linePlanes) && !p.unitFetched[i])

/-! ## Shifter (R336) -/

/-- The delay of a plane: planes 1, 3, 5 (indexes 0, 2, 4) are odd. -/
def delayOf (p : Planes) (i : Fin 6) : Nat := if i.val % 2 = 0 then p.oddDelay else p.evenDelay

/-- `shifter_set`, one plane: the previous and the next word under a delay. -/
def shifterWord (prev nxt : Word) (delay : Nat) : Word := ((prev ++ nxt) >>> delay).extractLsb' 0 16

/-- `k`, the pixels of a slot. -/
def pixelsPerSlot (p : Planes) : Nat := if p.lineHires then 4 else 2

/-- The pixel index whose bits are the bits `15 - j` of the displayed planes (`shifter_get`). -/
def pixelIndex (p : Planes) (j : Nat) : BitVec 6 :=
  (List.finRange 6).foldl
    (fun acc i => if i.val < p.linePlanes && p.shifter[i].getLsbD (15 - j) then acc ||| (1#6 <<< i.val) else acc) 0

/-- `shifter_shift()`. -/
def shift (p : Planes) : Planes := { p with shifter := vmap (fun w : Word => w <<< p.pixelsPerSlot) p.shifter }

/-! ## Line setup (R331, R337) -/

/-- `bitplane_line_setup(line)`. -/
def lineSetup (p : Planes) (line : Nat) : Planes :=
  { p with
    lineHires := p.hires
    linePlanes := if p.hires then min p.bpu 4 else p.bpu
    fetchingLine := p.inDiwV line
    unitFetched := .replicate 6 false
    previous := .replicate 6 0
    posted := .replicate 6 0
    hasNext := false
    shifter := .replicate 6 0 }

/-! ## Posting (R335) -/

/-- The modulo of a plane: BPL1MOD for planes 1, 3, 5, BPL2MOD for planes 2, 4, 6 (R49). -/
def modOf (p : Planes) (i : Fin 6) : Word := if i.val % 2 = 0 then p.mod1 else p.mod2

/-- Post the fetched set and load the shifter from the two posted sets. -/
def post (p : Planes) : Planes :=
  { p with
    previous := p.posted
    posted := p.next
    hasNext := true
    shifter := vmapIdx (fun i prev => shifterWord prev p.next[i] (p.delayOf i)) p.posted
    unitFetched := .replicate 6 false }

/-- Add the modulos of the displayed planes. -/
def addModulos (cfg : Config) (p : Planes) : Planes :=
  { p with ptr := vmapIdx (fun i q => if i.val < p.linePlanes then ptrAdd cfg q (modulo (p.modOf i)) else q) p.ptr }

end Planes

/-- `wants(BITPLANE)` (R333). -/
def wantsBitplane (s : State) : Bool :=
  s.enabled .bitplane && s.planes.fetchingLine && s.planes.inFetchWindow s.cfg s.raster.cycle
    && s.planes.nextPlane.isSome

/-- `bitplane_fetch()` (R334). -/
def bitplaneFetch (s : State) : State :=
  let p := s.planes
  match p.nextPlane with
  | none => s
  | some i =>
    { s with
      planes :=
        { p with
          next := p.next.set i (s.memRead p.ptr[i])
          ptr := p.ptr.set i (ptrAdd s.cfg p.ptr[i] 2)
          unitFetched := p.unitFetched.set i true } }

/-- `bitplane_unit_tick()` (R335). -/
def bitplaneUnitTick (s : State) : State :=
  let p := s.planes
  let cyc := s.raster.cycle
  if s.enabled .bitplane && p.fetchingLine && p.inFetchWindow s.cfg cyc && p.unitPos cyc + 1 == p.unitSlots then
    { s with planes := if p.lastUnit cyc then p.post.addModulos s.cfg else p.post }
  else s

/-- A write of BPLnDAT (R340). -/
def writeBpldat (i : Fin 6) (v : Word) (s : State) : State :=
  { s with planes := { s.planes with next := s.planes.next.set i v } }

end Sys2Proof.Machine
end

