-- ==== Sys2Proof/Machine/Blitter.lean ====
section
/-! DEFINITION. The Blitter engine (42_blitter.md). -/

namespace Sys2Proof.Machine

/-! ## The steps of a word (R284) -/

/-- The step sequence of a word. -/
def blitSequence (con0 : Word) : List BlitStep :=
  let steps := (if useA con0 then [BlitStep.a] else []) ++ (if useB con0 then [BlitStep.b] else [])
    ++ (if useC con0 then [BlitStep.c] else []) ++ (if useD con0 then [BlitStep.d] else [])
  if steps = [] then [.idleCycle] else steps

/-- `first_step`. -/
def blitFirstStep (con0 : Word) : BlitStep := (blitSequence con0).headD .idleCycle

/-- The step is the last of its sequence. -/
def blitIsLast (con0 : Word) (st : BlitStep) : Bool := (blitSequence con0).getLast? == some st

/-- The step after `st` in a step list. -/
def stepAfter (st : BlitStep) : List BlitStep → Option BlitStep
  | x :: y :: t => if x = st then some y else stepAfter st (y :: t)
  | _ => none

/-- The next step of the sequence (used for a step that is not the last; assumption 17). -/
def blitNextStep (con0 : Word) (st : BlitStep) : BlitStep :=
  (stepAfter st (blitSequence con0)).getD (blitFirstStep con0)

/-! ## Arming (R281, R298) -/

/-- The armed Blitter for a BLTSIZE value. -/
def Blitter.arm (b : Blitter) (v : Word) : Blitter :=
  { b with
    size := v
    latch0 := b.con0
    latch1 := b.con1
    width := sizeWidth v
    height := sizeHeight v
    wordX := 0
    linesLeft := sizeHeight v
    aOld := 0
    bOld := 0
    fillCarry := fci b.con1
    step := blitFirstStep b.con0
    busy := true
    zero := true }

/-- A write of BLTSIZE: line mode is refused (R298). -/
def armBlitter (v : Word) (s : State) : Host.Outcome State Fault Refusal :=
  if lineMode s.blitter.con1 then .refused .blitterLineMode
  else .next { s with blitter := s.blitter.arm v }

/-! ## Computing a word -/

/-- Bit `i` of the logic function's result (R287). -/
def mintermBit (lf : BitVec 8) (a b c : Bool) : Bool := lf.getLsbD (4 * a.toNat + 2 * b.toNat + c.toNat)

/-- The logic function (R287), bit by bit. -/
def minterm (lf : BitVec 8) (a b c : Word) : Word :=
  (List.range 16).foldl
    (fun d i => if mintermBit lf (a.getLsbD i) (b.getLsbD i) (c.getLsbD i) then d ||| (1#16 <<< i) else d) 0

/-- The fill over the bits listed, with its running carry and output (R288). -/
def fillBits (exclusive : Bool) (d : Word) : List Nat → Bool → Word → Bool × Word
  | [], carry, out => (carry, out)
  | i :: t, carry, out =>
    let carry' := carry != d.getLsbD i
    let bit := if exclusive then carry' else carry || d.getLsbD i
    fillBits exclusive d t carry' (if bit then out ||| (1#16 <<< i) else out)

/-- `fill(d)` (R288): bits 0 to 15; the new carry and the filled word. -/
def fillWord (exclusive carry : Bool) (d : Word) : Bool × Word := fillBits exclusive d (List.range 16) carry 0

/-- The shift of R285: `old` is the previous word. -/
def blitShift (descending : Bool) (n : Nat) (old cur : Word) : Word :=
  if descending then ((cur ++ old) <<< n).extractLsb' 16 16 else ((old ++ cur) >>> n).extractLsb' 0 16

namespace Blitter

/-- The A mask of the current word (R285). -/
def amask (b : Blitter) : Word :=
  (if b.wordX = 0 then b.afwm else 0xFFFF) &&& (if b.wordX + 1 = b.width then b.alwm else 0xFFFF)

/-- The word of the logic function before any fill (R285). -/
def logicWord (b : Blitter) : Word :=
  minterm (lfOf b.latch0)
    (blitShift (desc b.latch1) (shiftOf b.latch0) b.aOld (b.adat &&& b.amask))
    (blitShift (desc b.latch1) (shiftOf b.latch1) b.bOld b.bdat)
    b.cdat

/-- The new fill carry and the word written (R285, R288). -/
def outputWord (b : Blitter) : Bool × Word :=
  if efe b.latch1 || ife b.latch1 then fillWord (efe b.latch1) b.fillCarry b.logicWord
  else (b.fillCarry, b.logicWord)

/-- `compute_word()` (R285): the Blitter after it; the word is `outputWord` before it. -/
def computeWord (b : Blitter) : Blitter :=
  { b with
    aOld := b.adat &&& b.amask
    bOld := b.bdat
    fillCarry := b.outputWord.1
    zero := b.zero && b.outputWord.2 == 0 }

/-- The pointer step: `+2`, or `-2` in descending mode (R283). -/
def inc (b : Blitter) : Ptr := if desc b.latch1 then -2 else 2

/-- A modulo as it is added: negated in descending mode (R289). -/
def modOf (b : Blitter) (m : Word) : Ptr := if desc b.latch1 then -(modulo m) else modulo m

/-- The pointers after a line: the modulos of the enabled channels (R289). -/
def addModulos (cfg : Config) (b : Blitter) : Blitter :=
  { b with
    apt := if useA b.latch0 then ptrAdd cfg b.apt (b.modOf b.amod) else b.apt
    bpt := if useB b.latch0 then ptrAdd cfg b.bpt (b.modOf b.bmod) else b.bpt
    cpt := if useC b.latch0 then ptrAdd cfg b.cpt (b.modOf b.cmod) else b.cpt
    dpt := if useD b.latch0 then ptrAdd cfg b.dpt (b.modOf b.dmod) else b.dpt }

/-- The Blitter part of the end of a line (R289). -/
def endOfLine (cfg : Config) (b : Blitter) : Blitter :=
  let b1 := b.addModulos cfg
  { b1 with
    wordX := 0
    fillCarry := fci b.latch1
    linesLeft := b.linesLeft - 1
    busy := b.busy && b.linesLeft - 1 != 0 }

/-- The word just computed is the last of its line. -/
def lineEnds (b : Blitter) : Bool := b.wordX + 1 == b.width

/-- The word just computed is the last of the blit. -/
def blitEnds (b : Blitter) : Bool := b.lineEnds && b.linesLeft - 1 == 0

end Blitter

/-- `end_of_word()` (R289). -/
def endOfWord (s : State) : State :=
  let b := s.blitter
  if b.lineEnds then
    let s1 := { s with blitter := ({ b with step := blitFirstStep b.latch0 } : Blitter).endOfLine s.cfg }
    if b.blitEnds then s1.raise .blit else s1
  else { s with blitter := { b with wordX := b.wordX + 1, step := blitFirstStep b.latch0 } }

/-- The bus read of a source step (R283); the other steps read nothing. -/
def blitRead (s : State) : State :=
  let b := s.blitter
  match b.step with
  | .a => { s with blitter := { b with adat := s.memRead b.apt, apt := ptrAdd s.cfg b.apt b.inc } }
  | .b => { s with blitter := { b with bdat := s.memRead b.bpt, bpt := ptrAdd s.cfg b.bpt b.inc } }
  | .c => { s with blitter := { b with cdat := s.memRead b.cpt, cpt := ptrAdd s.cfg b.cpt b.inc } }
  | .d => s
  | .idleCycle => s

/-- The last step of a word: compute it, write it when the step is D (R283). -/
def blitFinishWord (s : State) : State :=
  let d := s.blitter.outputWord.2
  let s1 := { s with blitter := s.blitter.computeWord }
  let s2 :=
    match s.blitter.step with
    | .d => { s1.memWrite s1.blitter.dpt d with
              blitter := { s1.blitter with dpt := ptrAdd s1.cfg s1.blitter.dpt s1.blitter.inc } }
    | .a => s1
    | .b => s1
    | .c => s1
    | .idleCycle => s1
  endOfWord s2

/-- `blitter_step()` (R283). -/
def blitterStep (s : State) : State :=
  let s1 := blitRead s
  if blitIsLast s1.blitter.latch0 s1.blitter.step then blitFinishWord s1
  else { s1 with blitter := { s1.blitter with step := blitNextStep s1.blitter.latch0 s1.blitter.step } }

/-- `wants(BLITTER)` (R282). -/
def wantsBlitter (s : State) : Bool := s.enabled .blitter && s.blitter.busy

end Sys2Proof.Machine
end

