-- ==== Sys2Proof/Machine/DiskAudio.lean ====
section
/-! DEFINITION. The disk and audio DMA channels (45_disk_audio.md). -/

namespace Sys2Proof.Machine

/-! ## Disk -/

namespace Disk

/-- A write of DSKLEN (R411, R62). -/
def writeLen (d : Disk) (v : Word) : Disk :=
  if v.getLsbD 15 = false then { d with dsklen := v, active := false, armed := false }
  else if d.armed && v.extractLsb' 0 14 != 0 then
    { d with
      dsklen := v
      active := true
      dir := if v.getLsbD 14 then .write else .read
      left := v.extractLsb' 0 14
      bufFull := false
      syncSeen := false
      armed := true }
  else { d with dsklen := v, armed := true }

/-- The channel has a word to move (R413). -/
def ready (d : Disk) : Bool :=
  d.active && (match d.dir with | .read => d.bufFull | .write => !d.bufFull)

end Disk

/-- `wordsync_on` (R412). -/
def State.wordsyncOn (s : State) : Bool := s.cfg.wordsyncSupported && s.adkcon.getLsbD 10

/-- `disk_word_in(w)` (R412). -/
def diskWordIn (w : Word) (s : State) : State :=
  if s.disk.active && s.disk.dir == .read && (!s.wordsyncOn || s.disk.syncSeen) then
    { s with disk := { s.disk with buf := w, bufFull := true } }
  else s

/-- `disk_word_out()` (R412): the answer stands in `responses`. -/
def diskWordOut (s : State) : State :=
  if s.disk.dir == .write && s.disk.bufFull then
    { s with disk := { s.disk with bufFull := false } }.respond (.diskWord true s.disk.buf)
  else s.respond (.diskWord false 0)

/-- `wants(DISK)` (R413). -/
def wantsDisk (s : State) : Bool := s.enabled .disk && s.disk.ready

/-- The transfer half of `disk_step()` (R415): one word between chip RAM and the buffer. -/
def diskTransfer (s : State) : State :=
  match s.disk.dir with
  | .read => { s.memWrite s.disk.ptr s.disk.buf with disk := { s.disk with bufFull := false } }
  | .write => { s with disk := { s.disk with buf := s.memRead s.disk.ptr, bufFull := true } }

/-- `disk_step()` (R415). -/
def diskStep (s : State) : State :=
  let s1 := diskTransfer s
  let left' := s1.disk.left - 1
  let s2 := { s1 with disk := { s1.disk with
    ptr := ptrAdd s1.cfg s1.disk.ptr 2, left := left', active := s1.disk.active && left' != 0 } }
  if left' = 0 then s2.raise .dskblk else s2

/-! ## Audio -/

/-- `len(x)` (R420). -/
def audioLen (x : Word) : BitVec 17 := if x = 0 then 65536 else x.setWidth 17

/-- Change one audio channel. -/
def State.modAudio (s : State) (n : Fin 4) (f : Audio → Audio) : State :=
  { s with audio := s.audio.set n (f s.audio[n]) }

/-- The block of a channel starts again (R422, R423). -/
def Audio.reload (a : Audio) : Audio := { a with ptr := a.loc, left := audioLen a.len }

/-- Start or stop of one channel at a change of DMACON (R423). -/
def audioEnableChange (before : Word) (s : State) (n : Fin 4) : State :=
  let was := enabledIn before (.audio n)
  let is := s.enabled (.audio n)
  if !was && is then (s.modAudio n (fun a => { a.reload with running := true })).raise (.aud n)
  else if was && !is then s.modAudio n (fun a => { a with running := false })
  else s

/-- A write of DMACON (R197, R423). -/
def writeDmacon (v : Word) (s : State) : State :=
  [0, 1, 2, 3].foldl (audioEnableChange s.dmacon) { s with dmacon := setClr 0x07FF s.dmacon v }

/-- `audio_request(n)` (R425). -/
def audioRequest (n : Fin 4) (s : State) : State := s.modAudio n (fun a => { a with request := true })

/-- `wants(AUDIOn)` (R421). -/
def wantsAudio (n : Fin 4) (s : State) : Bool :=
  s.enabled (.audio n) && s.audio[n].running && s.audio[n].request

/-- One word of a channel (R422), without the record and the request. -/
def Audio.takeWord (cfg : Config) (a : Audio) (w : Word) : Audio :=
  { a with ptr := ptrAdd cfg a.ptr 2, dat := w, request := false, left := a.left - 1 }

/-- `audio_step(n)` (R422). -/
def audioStep (n : Fin 4) (s : State) : State :=
  let w := s.memRead s.audio[n].ptr
  let s1 := (s.modAudio n (fun a => a.takeWord s.cfg w)).send (.audioWord n w)
  if s.audio[n].left - 1 = 0 then (s1.modAudio n Audio.reload).raise (.aud n) else s1

/-- A write of AUDnDAT (R424). -/
def writeAuddat (n : Fin 4) (v : Word) (s : State) : State :=
  (s.modAudio n (fun a => { a with dat := v })).send (.audioWord n v)

end Sys2Proof.Machine
end

