-- ==== Sys2Proof/Machine/Sprites.lean ====
section
/-! DEFINITION. Sprite DMA and the sprite shifters (44_sprites.md). -/

namespace Sys2Proof.Machine

namespace Sprite

/-! ## Register writes -/

/-- `write_pos` (R53, R378). -/
def writePos (p : Sprite) (v : Word) : Sprite :=
  { p with
    vStart := p.vStart.extractLsb' 8 1 ++ v.extractLsb' 8 8
    hStart := v.extractLsb' 0 8 ++ p.hStart.extractLsb' 0 1 }

/-- `write_ctl` (R54, R379): disarms the sprite. -/
def writeCtl (p : Sprite) (v : Word) : Sprite :=
  { p with
    vStop := v.extractLsb' 1 1 ++ v.extractLsb' 8 8
    attached := v.getLsbD 7
    vStart := v.extractLsb' 2 1 ++ p.vStart.extractLsb' 0 8
    hStart := p.hStart.extractLsb' 1 8 ++ v.extractLsb' 0 1
    active := false }

/-- `write_data(n, 0, v)` (R378): arms the sprite. -/
def writeDataA (p : Sprite) (v : Word) : Sprite := { p with dataA := v, active := true }

/-- `write_data(n, 1, v)` (R378). -/
def writeDataB (p : Sprite) (v : Word) : Sprite := { p with dataB := v }

/-! ## Fetch state machine -/

/-- `in_window(line)` (R372). -/
def inWindow (p : Sprite) (line : Nat) : Bool := p.vStart.toNat ≤ line && line < p.vStop.toNat

/-- The frame restart (R377). -/
def frameRestart (p : Sprite) : Sprite := { p with fetch := .fetchStart }

/-- `sprite_line_setup` (R376). -/
def lineSetup (p : Sprite) (line : Nat) : Sprite :=
  { p with
    fetched := 0
    fetch :=
      match p.fetch with
      | .waitingForStart => if p.inWindow line then .fetchData1 else .waitingForStart
      | .fetchData1 => if p.inWindow line then .fetchData1 else .fetchStart
      | .stopped => .stopped
      | .fetchStart => .fetchStart
      | .fetchStopAndControl => .fetchStopAndControl
      | .fetchData0 => .fetchData0 }

/-- The state is one that fetches (R374). -/
def fetching (p : Sprite) : Bool :=
  match p.fetch with
  | .fetchStart => true
  | .fetchStopAndControl => true
  | .fetchData1 => true
  | .fetchData0 => true
  | .stopped => false
  | .waitingForStart => false

/-- What a fetched word does (R375). -/
def takeWord (p : Sprite) (w : Word) : Sprite :=
  match p.fetch with
  | .fetchStart => { p.writePos w with fetch := .fetchStopAndControl }
  | .fetchStopAndControl => { p.writeCtl w with fetch := if w = 0 then .stopped else .waitingForStart }
  | .fetchData1 => { p.writeDataA w with fetch := .fetchData0 }
  | .fetchData0 => { p.writeDataB w with fetch := .fetchData1 }
  | .stopped => p
  | .waitingForStart => p

/-! ## Shifter (R384, R385) -/

/-- `load(s, data[0], data[1], delay)`. -/
def load (p : Sprite) (delay : Nat) : Sprite :=
  { p with shiftL := (p.dataA ++ 0#16) >>> delay, shiftM := (p.dataB ++ 0#16) >>> delay }

/-- The activation check of one slot whose first pixel is `x0`. -/
def activate (p : Sprite) (x0 : Nat) : Sprite :=
  if p.active then
    if p.hStart.toNat = x0 then p.load 0
    else if p.hStart.toNat = x0 + 1 then p.load 1
    else p
  else p

/-- `shift`, one sprite. -/
def shift (p : Sprite) : Sprite := { p with shiftL := p.shiftL <<< 2, shiftM := p.shiftM <<< 2 }

/-- The two bits of pixel `j`: `M` above `L`. -/
def pixelBits (p : Sprite) (j : Nat) : BitVec 2 :=
  BitVec.ofBool (p.shiftM.getLsbD (31 - j)) ++ BitVec.ofBool (p.shiftL.getLsbD (31 - j))

end Sprite

/-- Change one sprite. -/
def State.modSprite (s : State) (n : Fin 8) (f : Sprite → Sprite) : State :=
  { s with sprites := s.sprites.set n (f s.sprites[n]) }

/-- `get(k)`, pixel `j` (R384): the odd sprite of pair `k` above the even one. -/
def pairNibble (sprites : Vector Sprite 8) (k : Fin 4) (j : Nat) : BitVec 4 :=
  (sprites[2 * k.val + 1]).pixelBits j ++ (sprites[2 * k.val]).pixelBits j

/-- `wants(SPRITEn)` (R374). -/
def wantsSprite (n : Fin 8) (s : State) : Bool :=
  s.enabled (.sprite n) && decide (s.cfg.spriteFetchCycle[n] ≤ s.raster.cycle) && s.sprites[n].fetching
    && decide (s.sprites[n].fetched < 2)

/-- `sprite_fetch(n)` (R375). -/
def spriteFetch (n : Fin 8) (s : State) : State :=
  s.modSprite n (fun p =>
    { p.takeWord (s.memRead p.ptr) with ptr := ptrAdd s.cfg p.ptr 2, fetched := p.fetched + 1 })

/-- The sprite part of the line-start events (R191, R376, R377). -/
def spriteLineStart (s : State) : State :=
  { s with
    sprites := vmap
      (fun p => (if s.raster.line = s.cfg.spriteDmaStartLine then p.frameRestart else p).lineSetup s.raster.line)
      s.sprites }

end Sys2Proof.Machine
end

