-- ==== Sys2Proof/Machine/Registers.lean ====
section
/-! DEFINITION. The chip register map and the register access paths (10_state.md R37 to R39, 40_scheduler.md
R196 to R200, 41_copper.md R244). -/

namespace Sys2Proof.Machine

/-! ## The map (R38) -/

/-- Access classes (R37); an unmapped offset has none. -/
inductive AccessClass where
  | readOnly
  | writeOnly
  | strobe
  | dmaOnly
  | externalUnit
deriving DecidableEq, Repr

/-- The offset of a register (R38). -/
def regOffset : Reg → Offset
  | .bltddat => 0x000
  | .dmaconr => 0x002
  | .vposr => 0x004
  | .vhposr => 0x006
  | .dskdatr => 0x008
  | .joy0dat => 0x00A
  | .joy1dat => 0x00C
  | .clxdat => 0x00E
  | .adkconr => 0x010
  | .pot0dat => 0x012
  | .pot1dat => 0x014
  | .potgor => 0x016
  | .serdatr => 0x018
  | .dskbytr => 0x01A
  | .intenar => 0x01C
  | .intreqr => 0x01E
  | .dskpth => 0x020
  | .dskptl => 0x022
  | .dsklen => 0x024
  | .dskdat => 0x026
  | .refptr => 0x028
  | .vposw => 0x02A
  | .vhposw => 0x02C
  | .copcon => 0x02E
  | .serdat => 0x030
  | .serper => 0x032
  | .potgo => 0x034
  | .joytest => 0x036
  | .strequ => 0x038
  | .strvbl => 0x03A
  | .strhor => 0x03C
  | .strlong => 0x03E
  | .bltcon0 => 0x040
  | .bltcon1 => 0x042
  | .bltafwm => 0x044
  | .bltalwm => 0x046
  | .bltcpth => 0x048
  | .bltcptl => 0x04A
  | .bltbpth => 0x04C
  | .bltbptl => 0x04E
  | .bltapth => 0x050
  | .bltaptl => 0x052
  | .bltdpth => 0x054
  | .bltdptl => 0x056
  | .bltsize => 0x058
  | .bltcmod => 0x060
  | .bltbmod => 0x062
  | .bltamod => 0x064
  | .bltdmod => 0x066
  | .bltcdat => 0x070
  | .bltbdat => 0x072
  | .bltadat => 0x074
  | .dsksync => 0x07E
  | .cop1lch => 0x080
  | .cop1lcl => 0x082
  | .cop2lch => 0x084
  | .cop2lcl => 0x086
  | .copjmp1 => 0x088
  | .copjmp2 => 0x08A
  | .copins => 0x08C
  | .diwstrt => 0x08E
  | .diwstop => 0x090
  | .ddfstrt => 0x092
  | .ddfstop => 0x094
  | .dmacon => 0x096
  | .clxcon => 0x098
  | .intena => 0x09A
  | .intreq => 0x09C
  | .adkcon => 0x09E
  | .bplcon0 => 0x100
  | .bplcon1 => 0x102
  | .bplcon2 => 0x104
  | .bpl1mod => 0x108
  | .bpl2mod => 0x10A
  | .audlch n => BitVec.ofNat 9 (0x0A0 + 0x10 * n.val)
  | .audlcl n => BitVec.ofNat 9 (0x0A2 + 0x10 * n.val)
  | .audlen n => BitVec.ofNat 9 (0x0A4 + 0x10 * n.val)
  | .audper n => BitVec.ofNat 9 (0x0A6 + 0x10 * n.val)
  | .audvol n => BitVec.ofNat 9 (0x0A8 + 0x10 * n.val)
  | .auddat n => BitVec.ofNat 9 (0x0AA + 0x10 * n.val)
  | .bplpth n => BitVec.ofNat 9 (0x0E0 + 0x4 * n.val)
  | .bplptl n => BitVec.ofNat 9 (0x0E2 + 0x4 * n.val)
  | .bpldat n => BitVec.ofNat 9 (0x110 + 0x2 * n.val)
  | .sprpth n => BitVec.ofNat 9 (0x120 + 0x4 * n.val)
  | .sprptl n => BitVec.ofNat 9 (0x122 + 0x4 * n.val)
  | .sprpos n => BitVec.ofNat 9 (0x140 + 0x8 * n.val)
  | .sprctl n => BitVec.ofNat 9 (0x142 + 0x8 * n.val)
  | .sprdata n => BitVec.ofNat 9 (0x144 + 0x8 * n.val)
  | .sprdatb n => BitVec.ofNat 9 (0x146 + 0x8 * n.val)
  | .color n => BitVec.ofNat 9 (0x180 + 0x2 * n.val)

/-- An index inside a range of registers spaced `stride` apart from `base`, as a register name. -/
def indexed {n : Nat} (mk : Fin n → Reg) (base stride w : Nat) : Option Reg :=
  if h : base ≤ w ∧ (w - base) % stride = 0 ∧ (w - base) / stride < n then some (mk ⟨(w - base) / stride, h.2.2⟩)
  else none

/-- The registers with an index (R38). -/
def indexedReg (w : Nat) : Option Reg :=
  [ indexed Reg.audlch 0x0A0 0x10 w,
    indexed Reg.audlcl 0x0A2 0x10 w,
    indexed Reg.audlen 0x0A4 0x10 w,
    indexed Reg.audper 0x0A6 0x10 w,
    indexed Reg.audvol 0x0A8 0x10 w,
    indexed Reg.auddat 0x0AA 0x10 w,
    indexed Reg.bplpth 0x0E0 0x4 w,
    indexed Reg.bplptl 0x0E2 0x4 w,
    indexed Reg.bpldat 0x110 0x2 w,
    indexed Reg.sprpth 0x120 0x4 w,
    indexed Reg.sprptl 0x122 0x4 w,
    indexed Reg.sprpos 0x140 0x8 w,
    indexed Reg.sprctl 0x142 0x8 w,
    indexed Reg.sprdata 0x144 0x8 w,
    indexed Reg.sprdatb 0x146 0x8 w,
    indexed Reg.color 0x180 0x2 w ].findSome? id

/-- The register at an offset; `none` is an unmapped offset (R38, R39). -/
def regOf (o : Offset) : Option Reg :=
  match o.toNat with
  | 0x000 => some .bltddat
  | 0x002 => some .dmaconr
  | 0x004 => some .vposr
  | 0x006 => some .vhposr
  | 0x008 => some .dskdatr
  | 0x00A => some .joy0dat
  | 0x00C => some .joy1dat
  | 0x00E => some .clxdat
  | 0x010 => some .adkconr
  | 0x012 => some .pot0dat
  | 0x014 => some .pot1dat
  | 0x016 => some .potgor
  | 0x018 => some .serdatr
  | 0x01A => some .dskbytr
  | 0x01C => some .intenar
  | 0x01E => some .intreqr
  | 0x020 => some .dskpth
  | 0x022 => some .dskptl
  | 0x024 => some .dsklen
  | 0x026 => some .dskdat
  | 0x028 => some .refptr
  | 0x02A => some .vposw
  | 0x02C => some .vhposw
  | 0x02E => some .copcon
  | 0x030 => some .serdat
  | 0x032 => some .serper
  | 0x034 => some .potgo
  | 0x036 => some .joytest
  | 0x038 => some .strequ
  | 0x03A => some .strvbl
  | 0x03C => some .strhor
  | 0x03E => some .strlong
  | 0x040 => some .bltcon0
  | 0x042 => some .bltcon1
  | 0x044 => some .bltafwm
  | 0x046 => some .bltalwm
  | 0x048 => some .bltcpth
  | 0x04A => some .bltcptl
  | 0x04C => some .bltbpth
  | 0x04E => some .bltbptl
  | 0x050 => some .bltapth
  | 0x052 => some .bltaptl
  | 0x054 => some .bltdpth
  | 0x056 => some .bltdptl
  | 0x058 => some .bltsize
  | 0x060 => some .bltcmod
  | 0x062 => some .bltbmod
  | 0x064 => some .bltamod
  | 0x066 => some .bltdmod
  | 0x070 => some .bltcdat
  | 0x072 => some .bltbdat
  | 0x074 => some .bltadat
  | 0x07E => some .dsksync
  | 0x080 => some .cop1lch
  | 0x082 => some .cop1lcl
  | 0x084 => some .cop2lch
  | 0x086 => some .cop2lcl
  | 0x088 => some .copjmp1
  | 0x08A => some .copjmp2
  | 0x08C => some .copins
  | 0x08E => some .diwstrt
  | 0x090 => some .diwstop
  | 0x092 => some .ddfstrt
  | 0x094 => some .ddfstop
  | 0x096 => some .dmacon
  | 0x098 => some .clxcon
  | 0x09A => some .intena
  | 0x09C => some .intreq
  | 0x09E => some .adkcon
  | 0x100 => some .bplcon0
  | 0x102 => some .bplcon1
  | 0x104 => some .bplcon2
  | 0x108 => some .bpl1mod
  | 0x10A => some .bpl2mod
  | w => indexedReg w

/-- The access class of a register (R38). -/
def accessClass : Reg → AccessClass
  | .bltddat => .dmaOnly
  | .dmaconr => .readOnly
  | .vposr => .readOnly
  | .vhposr => .readOnly
  | .dskdatr => .dmaOnly
  | .joy0dat => .externalUnit
  | .joy1dat => .externalUnit
  | .clxdat => .readOnly
  | .adkconr => .readOnly
  | .pot0dat => .externalUnit
  | .pot1dat => .externalUnit
  | .potgor => .externalUnit
  | .serdatr => .externalUnit
  | .dskbytr => .externalUnit
  | .intenar => .readOnly
  | .intreqr => .readOnly
  | .dskpth => .writeOnly
  | .dskptl => .writeOnly
  | .dsklen => .writeOnly
  | .dskdat => .dmaOnly
  | .refptr => .writeOnly
  | .vposw => .writeOnly
  | .vhposw => .writeOnly
  | .copcon => .writeOnly
  | .serdat => .externalUnit
  | .serper => .externalUnit
  | .potgo => .externalUnit
  | .joytest => .externalUnit
  | .strequ => .strobe
  | .strvbl => .strobe
  | .strhor => .strobe
  | .strlong => .strobe
  | .bltcon0 => .writeOnly
  | .bltcon1 => .writeOnly
  | .bltafwm => .writeOnly
  | .bltalwm => .writeOnly
  | .bltcpth => .writeOnly
  | .bltcptl => .writeOnly
  | .bltbpth => .writeOnly
  | .bltbptl => .writeOnly
  | .bltapth => .writeOnly
  | .bltaptl => .writeOnly
  | .bltdpth => .writeOnly
  | .bltdptl => .writeOnly
  | .bltsize => .writeOnly
  | .bltcmod => .writeOnly
  | .bltbmod => .writeOnly
  | .bltamod => .writeOnly
  | .bltdmod => .writeOnly
  | .bltcdat => .writeOnly
  | .bltbdat => .writeOnly
  | .bltadat => .writeOnly
  | .dsksync => .writeOnly
  | .cop1lch => .writeOnly
  | .cop1lcl => .writeOnly
  | .cop2lch => .writeOnly
  | .cop2lcl => .writeOnly
  | .copjmp1 => .strobe
  | .copjmp2 => .strobe
  | .copins => .writeOnly
  | .diwstrt => .writeOnly
  | .diwstop => .writeOnly
  | .ddfstrt => .writeOnly
  | .ddfstop => .writeOnly
  | .dmacon => .writeOnly
  | .clxcon => .writeOnly
  | .intena => .writeOnly
  | .intreq => .writeOnly
  | .adkcon => .writeOnly
  | .bplcon0 => .writeOnly
  | .bplcon1 => .writeOnly
  | .bplcon2 => .writeOnly
  | .bpl1mod => .writeOnly
  | .bpl2mod => .writeOnly
  | .audlch _ => .writeOnly
  | .audlcl _ => .writeOnly
  | .audlen _ => .writeOnly
  | .audper _ => .writeOnly
  | .audvol _ => .writeOnly
  | .auddat _ => .writeOnly
  | .bplpth _ => .writeOnly
  | .bplptl _ => .writeOnly
  | .bpldat _ => .writeOnly
  | .sprpth _ => .writeOnly
  | .sprptl _ => .writeOnly
  | .sprpos _ => .writeOnly
  | .sprctl _ => .writeOnly
  | .sprdata _ => .writeOnly
  | .sprdatb _ => .writeOnly
  | .color _ => .writeOnly

/-! ## Register writes (R196, R197) -/

/-- A write of ADKCON: stored by R197, then passed on (R43, R412). -/
def writeAdkcon (v : Word) (s : State) : State :=
  let a := setClr 0x7FFF s.adkcon v
  ({ s with adkcon := a } : State).send (.passed .adkcon a)

/-- A write of BPLCON0: stored; COLOR is passed to the sink, if one is installed (R50, R204; assumption 13). -/
def writeBplcon0 (v : Word) (s : State) : State :=
  let s1 : State := { s with planes := { s.planes with con0 := v } }
  if s.sinkInstalled then s1.send (.colourEnable (v.getLsbD 9)) else s1

/-- The storage and effect of a write of a class W, D or S register (BLTSIZE: its storage alone), whatever wrote
it. DMA-only registers (R416), ignored registers (VPOSW, VHPOSW: R503), strobes without effect (R38) and the
registers of classes R and X have no storage here. -/
def storeReg (r : Reg) (v : Word) (s : State) : State :=
  match r with
  | .bltddat => s
  | .dmaconr => s
  | .vposr => s
  | .vhposr => s
  | .dskdatr => s
  | .joy0dat => s
  | .joy1dat => s
  | .clxdat => s
  | .adkconr => s
  | .pot0dat => s
  | .pot1dat => s
  | .potgor => s
  | .serdatr => s
  | .dskbytr => s
  | .intenar => s
  | .intreqr => s
  | .dskpth => { s with disk := { s.disk with ptr := ptrSetHigh s.cfg s.disk.ptr v } }
  | .dskptl => { s with disk := { s.disk with ptr := ptrSetLow s.cfg s.disk.ptr v } }
  | .dsklen => { s with disk := s.disk.writeLen v }
  | .dskdat => s
  | .refptr => { s with refptr := v }
  | .vposw => s
  | .vhposw => s
  | .copcon => { s with copper := { s.copper with copcon := v } }
  | .serdat => s
  | .serper => s
  | .potgo => s
  | .joytest => s
  | .strequ => s
  | .strvbl => s
  | .strhor => s
  | .strlong => s
  | .bltcon0 => { s with blitter := { s.blitter with con0 := v } }
  | .bltcon1 => { s with blitter := { s.blitter with con1 := v } }
  | .bltafwm => { s with blitter := { s.blitter with afwm := v } }
  | .bltalwm => { s with blitter := { s.blitter with alwm := v } }
  | .bltcpth => { s with blitter := { s.blitter with cpt := ptrSetHigh s.cfg s.blitter.cpt v } }
  | .bltcptl => { s with blitter := { s.blitter with cpt := ptrSetLow s.cfg s.blitter.cpt v } }
  | .bltbpth => { s with blitter := { s.blitter with bpt := ptrSetHigh s.cfg s.blitter.bpt v } }
  | .bltbptl => { s with blitter := { s.blitter with bpt := ptrSetLow s.cfg s.blitter.bpt v } }
  | .bltapth => { s with blitter := { s.blitter with apt := ptrSetHigh s.cfg s.blitter.apt v } }
  | .bltaptl => { s with blitter := { s.blitter with apt := ptrSetLow s.cfg s.blitter.apt v } }
  | .bltdpth => { s with blitter := { s.blitter with dpt := ptrSetHigh s.cfg s.blitter.dpt v } }
  | .bltdptl => { s with blitter := { s.blitter with dpt := ptrSetLow s.cfg s.blitter.dpt v } }
  | .bltcmod => { s with blitter := { s.blitter with cmod := v } }
  | .bltbmod => { s with blitter := { s.blitter with bmod := v } }
  | .bltamod => { s with blitter := { s.blitter with amod := v } }
  | .bltdmod => { s with blitter := { s.blitter with dmod := v } }
  | .bltcdat => { s with blitter := { s.blitter with cdat := v } }
  | .bltbdat => { s with blitter := { s.blitter with bdat := v } }
  | .bltadat => { s with blitter := { s.blitter with adat := v } }
  | .dsksync => ({ s with disk := { s.disk with dsksync := v } } : State).send (.passed .dsksync v)
  | .cop1lch => { s with copper := { s.copper with loc1 := ptrSetHigh s.cfg s.copper.loc1 v } }
  | .cop1lcl => { s with copper := { s.copper with loc1 := ptrSetLow s.cfg s.copper.loc1 v } }
  | .cop2lch => { s with copper := { s.copper with loc2 := ptrSetHigh s.cfg s.copper.loc2 v } }
  | .cop2lcl => { s with copper := { s.copper with loc2 := ptrSetLow s.cfg s.copper.loc2 v } }
  | .copjmp1 => { s with copper := { s.copper with pendingJump := .one } }
  | .copjmp2 => { s with copper := { s.copper with pendingJump := .two } }
  | .copins => { s with copper := { s.copper with copins := v } }
  | .diwstrt => { s with planes := { s.planes with diwstrt := v } }
  | .diwstop => { s with planes := { s.planes with diwstop := v } }
  | .ddfstrt => { s with planes := { s.planes with ddfstrt := v } }
  | .ddfstop => { s with planes := { s.planes with ddfstop := v } }
  | .dmacon => writeDmacon v s
  | .clxcon => { s with clxcon := v }
  | .intena => { s with irq := s.irq.withMasks (setClr 0x7FFF s.irq.enable v) s.irq.request }
  | .intreq => { s with irq := s.irq.withMasks s.irq.enable (setClr 0x7FFF s.irq.request v) }
  | .adkcon => writeAdkcon v s
  | .bplcon0 => writeBplcon0 v s
  | .bplcon1 => { s with planes := { s.planes with con1 := v } }
  | .bplcon2 => { s with planes := { s.planes with con2 := v } }
  | .bpl1mod => { s with planes := { s.planes with mod1 := v } }
  | .bpl2mod => { s with planes := { s.planes with mod2 := v } }
  | .bltsize => { s with blitter := { s.blitter with size := v } }
  | .audlch n => s.modAudio n (fun a => { a with loc := ptrSetHigh s.cfg a.loc v })
  | .audlcl n => s.modAudio n (fun a => { a with loc := ptrSetLow s.cfg a.loc v })
  | .audlen n => s.modAudio n (fun a => { a with len := v })
  | .audper n => (s.modAudio n (fun a => { a with per := v })).send (.passed (.audper n) v)
  | .audvol n => (s.modAudio n (fun a => { a with vol := v.extractLsb' 0 7 })).send (.passed (.audvol n) ((v.extractLsb' 0 7).setWidth 16))
  | .auddat n => writeAuddat n v s
  | .bplpth n => { s with planes := { s.planes with ptr := s.planes.ptr.set n (ptrSetHigh s.cfg s.planes.ptr[n] v) } }
  | .bplptl n => { s with planes := { s.planes with ptr := s.planes.ptr.set n (ptrSetLow s.cfg s.planes.ptr[n] v) } }
  | .bpldat n => writeBpldat n v s
  | .sprpth n => s.modSprite n (fun p => { p with ptr := ptrSetHigh s.cfg p.ptr v })
  | .sprptl n => s.modSprite n (fun p => { p with ptr := ptrSetLow s.cfg p.ptr v })
  | .sprpos n => s.modSprite n (fun p => p.writePos v)
  | .sprctl n => s.modSprite n (fun p => p.writeCtl v)
  | .sprdata n => s.modSprite n (fun p => p.writeDataA v)
  | .sprdatb n => s.modSprite n (fun p => p.writeDataB v)
  | .color n => { s with palette := s.palette.set n (v.extractLsb' 0 12) }

/-- A write of a register by its access class (R196): class W, D and S store and act, BLTSIZE by arming the
Blitter (R281); class X is forwarded (R200); class R is ignored. -/
def writeReg (r : Reg) (v : Word) (s : State) : Host.Outcome State Fault Refusal :=
  match accessClass r with
  | .writeOnly => if r = .bltsize then armBlitter v s else .next (storeReg r v s)
  | .dmaOnly => .next (storeReg r v s)
  | .strobe => .next (storeReg r v s)
  | .externalUnit => .next (s.send (.forward r v))
  | .readOnly => .next s

/-- The agents of the write path (R196). -/
inductive Agent where
  | cpu
  | copper
deriving DecidableEq, Repr

/-- `copper_may_write(o)` (R244). -/
def copperMayWrite (copcon : Word) (o : Offset) : Bool :=
  decide (0x080 ≤ o.toNat) || (decide (0x040 ≤ o.toNat) && copcon.getLsbD 1)

/-- `Write(o, v, by)` (R196): an odd offset is the assert of R124; a protected write of the Copper is dropped;
an unmapped offset stores nothing. -/
def writeOffset (agent : Agent) (o : Offset) (v : Word) (s : State) : Host.Outcome State Fault Refusal :=
  if o.getLsbD 0 then .fault .misalignedWordAccess
  else if agent = .copper ∧ copperMayWrite s.copper.copcon o = false then .next s
  else
    match regOf o with
    | none => .next s
    | some r => writeReg r v s

/-! ## Register reads (R198 to R200) -/

/-- `Read(o)` of an even offset: the value, and the state after it (only a draw changes it). -/
def readOffset (o : Offset) (s : State) : Word × State :=
  match regOf o with
  | some .dmaconr => (s.dmaconr, s)
  | some .vposr => (s.vposr, s)
  | some .vhposr => (s.vhposr, s)
  | some .adkconr => (s.adkcon, s)
  | some .intenar => (s.irq.enable, s)
  | some .intreqr => (s.irq.request, s)
  | _ => s.draw

end Sys2Proof.Machine
end

