-- ==== Sys2Proof/Machine/CopperIsa.lean ====
section
/-! DEFINITION. The Copper: its instructions' meanings, its fetch and its redirections (41_copper.md). A meaning
runs on the state the fetch leaves: `cop_pc` already past the instruction (R248). -/

namespace Sys2Proof.Machine

/-! ## Instructions -/

/-- MOVE (R243): the write path as the Copper. -/
def execMove (dest : Offset) (data : Word) (s : State) : Host.Outcome State Fault Refusal :=
  writeOffset .copper dest data s

/-- WAIT (R245). -/
def execWait (vp : Byte) (hp : BitVec 7) (bfd : Bool) (ve he : BitVec 7) (s : State) :
    Host.Outcome State Fault Refusal :=
  let value := waitValueOf vp hp
  let mask := waitMaskOf ve he
  .next { s with copper := { s.copper with
    waitValue := value
    waitMask := mask
    waitBfd := bfd
    mode := if s.satisfied value mask bfd then .running else .waiting } }

/-- SKIP (R246). -/
def execSkip (vp : Byte) (hp : BitVec 7) (bfd : Bool) (ve he : BitVec 7) (s : State) :
    Host.Outcome State Fault Refusal :=
  .next { s with copper := { s.copper with
    pc := if s.satisfied (waitValueOf vp hp) (waitMaskOf ve he) bfd then ptrAdd s.cfg s.copper.pc 4 else s.copper.pc
    mode := .running } }

/-! ## Fetch (R242, R248) -/

/-- The two words at `cop_pc`. -/
def copperWords (s : State) : Word × Word := (s.memRead s.copper.pc, s.memRead (ptrAdd s.cfg s.copper.pc 2))

/-- The bytes at `cop_pc` in memory order. -/
def copperBytes (s : State) : List Byte := wordsToBytes (copperWords s)

/-- The state an instruction runs on: resumed, the pair latched, `cop_pc` advanced by 4 (R248). -/
def copperFetch (s : State) : State :=
  { s with copper := { s.copper with
    mode := if s.copper.mode = .waiting then .running else s.copper.mode
    pc := ptrAdd s.cfg s.copper.pc 4
    ir1 := (copperWords s).1
    ir2 := (copperWords s).2 } }

/-- The instruction at `cop_pc`. -/
def copperInstr (s : State) : Instr := decodeWords (copperWords s).1 (copperWords s).2

/-! ## Requests and redirections -/

/-- `wants(COPPER)` (R247). -/
def wantsCopper (s : State) : Bool :=
  s.enabled .copper && s.raster.cycle % 2 == 0 &&
    (s.copper.mode == .running
      || (s.copper.mode == .waiting && s.satisfied s.copper.waitValue s.copper.waitMask s.copper.waitBfd))

/-- The Copper started at a location. -/
def copperJump (s : State) (target : Ptr) : State :=
  { s with copper := { s.copper with pc := target, mode := .running, pendingJump := .none } }

/-- `copper_apply_pending_jump()` (R250). -/
def copperApplyPendingJump (s : State) : State :=
  match s.copper.pendingJump with
  | .none => s
  | .one => copperJump s s.copper.loc1
  | .two => copperJump s s.copper.loc2

/-- `copper_frame_reload()` (R252). -/
def copperFrameReload (s : State) : State := if s.cfg.copperVblankReload then copperJump s s.copper.loc1 else s

end Sys2Proof.Machine
end

