-- ==== Sys2Proof/Machine/Dispatch.lean ====
section
/-! DEFINITION. One arm per Copper instruction. -/

namespace Sys2Proof.Machine

def exec (i : Instr) (s : State) : Host.Outcome State Fault Refusal :=
  match i with
  | .move _ dest data => Sys2Proof.Machine.execMove dest data s
  | .wait vp hp bfd ve he => Sys2Proof.Machine.execWait vp hp bfd ve he s
  | .skip vp hp bfd ve he => Sys2Proof.Machine.execSkip vp hp bfd ve he s

end Sys2Proof.Machine
end

