-- ==== Sys2Proof/Machine/Mixer.lean ====
section
/-! DEFINITION. The output priority mixer and the video sink interface (46_output.md). -/

namespace Sys2Proof.Machine

/-! ## Output class (R451) -/

/-- The horizontal pixel coordinate of a slot (R371). -/
def slotX (cyc : Nat) : Nat := 2 * cyc + 1

/-- A palette entry by its index. -/
def State.colour (s : State) (i : BitVec 5) : Colour := s.palette[i.toNat]'i.isLt

/-- The class of a slot (R451); Border carries `palette[0]` (R460). -/
def slotClass (s : State) (line cyc : Nat) : OutClass :=
  let c := s.cfg
  if (c.vsyncStartLine ≤ line ∧ line < c.vsyncEndLine) ∨ c.hsync cyc then .sync
  else if c.burst cyc then .colourBurst
  else if line < c.vblankEndLine ∨ c.hblank cyc then .blank
  else if s.planes.inDiwV line && (s.planes.inDiwH (slotX cyc) || s.planes.inDiwH (slotX cyc + 1)) then .pixels
  else .border (s.colour 0)

/-! ## Sprites against each other (R455) -/

/-- A non-transparent sprite pixel: the pair and the palette index. -/
structure SpritePixel where
  pair : Nat
  index : BitVec 5
deriving DecidableEq, Repr

/-- The sprite pixel of one pair under its nibble; `attached` is the odd sprite's flag. -/
def pairPixel (pair : Fin 4) (attached : Bool) (nib : BitVec 4) : Option SpritePixel :=
  if attached then (if nib != 0 then some ⟨pair.val, 16 + nib.setWidth 5⟩ else none)
  else if nib.extractLsb' 0 2 != 0 then
    some ⟨pair.val, BitVec.ofNat 5 (16 + 4 * pair.val) + (nib.extractLsb' 0 2).setWidth 5⟩
  else if nib.extractLsb' 2 2 != 0 then
    some ⟨pair.val, BitVec.ofNat 5 (16 + 4 * pair.val) + (nib.extractLsb' 2 2).setWidth 5⟩
  else none

/-- `sprite_pixel`: the first pair with a non-transparent pixel `j`. -/
def spritePixel (sprites : Vector Sprite 8) (j : Nat) : Option SpritePixel :=
  [0, 1, 2, 3].findSome? (fun k : Fin 4 =>
    pairPixel k (sprites[2 * k.val + 1]).attached (pairNibble sprites k j))

/-! ## Playfields (R456 to R459) -/

/-- One playfield's pixel: its priority code, its transparency and its colour. -/
structure PlayfieldPixel where
  code : Nat
  transparent : Bool
  colour : Colour
deriving DecidableEq, Repr

/-- HAM is active (R458). -/
def hamActive (p : Planes) : Bool := p.homod && !p.dblpf && p.linePlanes == 6

/-- EHB is active (R459). -/
def ehbActive (cfg : Config) (p : Planes) : Bool :=
  cfg.ehbSupported && !p.homod && !p.dblpf && p.linePlanes == 6

/-- `ham(b)`: the new running colour (R458). -/
def hamColour (s : State) (ham : Colour) (b : BitVec 6) : Colour :=
  let d := b.extractLsb' 0 4
  if b.extractLsb' 4 2 = 0 then s.colour (d.setWidth 5)
  else if b.extractLsb' 4 2 = 1 then ham.extractLsb' 4 8 ++ d
  else if b.extractLsb' 4 2 = 2 then d ++ ham.extractLsb' 0 8
  else ham.extractLsb' 8 4 ++ d ++ ham.extractLsb' 0 4

/-- `ehb(b)` (R459). -/
def ehbColour (s : State) (b : BitVec 6) : Colour :=
  if b.getLsbD 5 then (s.colour (b.setWidth 5) >>> 1) &&& 0x777 else s.colour (b.setWidth 5)

/-- `pf1(b)`: planes 5, 3, 1 (R456). -/
def pf1 (b : BitVec 6) : BitVec 3 := b.extractLsb' 4 1 ++ b.extractLsb' 2 1 ++ b.extractLsb' 0 1

/-- `pf2(b)`: planes 6, 4, 2 (R456). -/
def pf2 (b : BitVec 6) : BitVec 3 := b.extractLsb' 5 1 ++ b.extractLsb' 3 1 ++ b.extractLsb' 1 1

/-- The running colour after a pixel inside the window (R458): changed by HAM alone. -/
def nextHam (s : State) (ham : Colour) (b : BitVec 6) : Colour :=
  if hamActive s.planes then hamColour s ham b else ham

/-- The colour of a single playfield (R456). -/
def singleColour (s : State) (ham : Colour) (b : BitVec 6) : Colour :=
  if hamActive s.planes then hamColour s ham b
  else if ehbActive s.cfg s.planes then ehbColour s b
  else s.colour (b.setWidth 5)

/-- The playfields of a pixel, front first, with their codes (R456, R457). -/
def playfields (s : State) (ham : Colour) (b : BitVec 6) : List PlayfieldPixel :=
  if s.planes.dblpf then
    let p1 : PlayfieldPixel := ⟨s.planes.code1, pf1 b == 0, s.colour ((pf1 b).setWidth 5)⟩
    let p2 : PlayfieldPixel := ⟨s.planes.code2, pf2 b == 0, s.colour (8 + (pf2 b).setWidth 5)⟩
    if s.planes.pf2pri then [p2, p1] else [p1, p2]
  else [⟨s.planes.code2, b == 0, singleColour s ham b⟩]

/-- `priority` (R457): playfields from the front, the sprite before the first whose code is above its pair. -/
def priorityColour (s : State) (spr : Option SpritePixel) : List PlayfieldPixel → Colour
  | [] =>
    match spr with
    | some p => s.colour p.index
    | none => s.colour 0
  | pf :: rest =>
    match spr with
    | some p =>
      if p.pair < pf.code then s.colour p.index
      else if pf.transparent then priorityColour s spr rest
      else pf.colour
    | none => if pf.transparent then priorityColour s spr rest else pf.colour

/-- `pixel_colour` (R453): the running HAM colour after the pixel, and the pixel's colour. -/
def pixelColour (s : State) (ham : Colour) (b : BitVec 6) (spr : Option SpritePixel) (inH : Bool) :
    Colour × Colour :=
  if inH then (nextHam s ham b, priorityColour s spr (playfields s ham b))
  else (s.colour 0, s.colour 0)

/-! ## A slot's pixels (R452) -/

/-- The sink units listed, from the running HAM colour: the HAM colour after them and their colours. The sprites
of `s` are those after the slot's activation check, its shifters those before the slot's shifts. -/
def unitColours (s : State) (x0 : Nat) : List Nat → Colour → Colour × List Colour
  | [], ham => (ham, [])
  | u :: us, ham =>
    let j := u / 2
    let r := pixelColour s ham (s.planes.pixelIndex (if s.planes.lineHires then u else j))
      (spritePixel s.sprites j) (s.planes.inDiwH (x0 + j))
    let rest := unitColours s x0 us r.1
    (rest.1, r.2 :: rest.2)

/-! ## Runs and the sink (R460, R461) -/

/-- The call that ends a run. -/
def runCall (o : Output) : SinkCall :=
  match o.cls with
  | .sync => .outputSync (4 * o.len)
  | .blank => .outputBlank (4 * o.len)
  | .colourBurst => .outputColourBurst (4 * o.len)
  | .border c => .outputLevel (4 * o.len) c
  | .pixels => .outputData o.pix.length o.pix

/-- `flush()` (R460); with no sink installed the run is discarded (R204). -/
def flush (s : State) : State :=
  { s with
    video := if s.sinkInstalled then runCall s.output :: s.video else s.video
    output := { s.output with len := 0, pix := [] } }

/-- `accumulate(cls, colours)` (R460). -/
def accumulate (cls : OutClass) (colours : List Colour) (s : State) : State :=
  let s1 := if 0 < s.output.len ∧ cls ≠ s.output.cls then flush s else s
  let s2 : State := { s1 with output := { s1.output with cls := cls, len := s1.output.len + 1 } }
  if cls = .pixels then
    let s3 : State := { s2 with output := { s2.output with pix := s2.output.pix ++ colours } }
    if s.cfg.pixelBufferUnits < s3.output.pix.length + 4 then flush s3 else s3
  else s2

/-- Both shifters advance in every slot, whatever the class (R452). -/
def shiftAll (s : State) : State :=
  { s with planes := s.planes.shift, sprites := vmap Sprite.shift s.sprites }

/-- The activation check of every sprite (R385). -/
def activateSprites (s : State) : State :=
  { s with sprites := vmap (fun p => p.activate (slotX s.raster.cycle)) s.sprites }

/-- The HAM colour after the slot and its four sink units (R452): no colours outside the Pixels class. -/
def slotColours (s : State) (cls : OutClass) : Colour × List Colour :=
  if cls = .pixels then unitColours s (slotX s.raster.cycle) [0, 1, 2, 3] s.output.ham else (s.colour 0, [])

/-- `output_slot(pos)` (R452). -/
def outputSlot (s : State) : State :=
  let cls := slotClass s s.raster.line s.raster.cycle
  let s1 := activateSprites s
  let r := slotColours s1 cls
  let s2 := shiftAll s1
  accumulate cls r.2 { s2 with output := { s2.output with ham := r.1 } }

end Sys2Proof.Machine
end

