-- ==== Sys2Proof/Machine/Scheduler.lean ====
section
/-! DEFINITION. Arbitration and the slot (40_scheduler.md R187 to R192, 60_exceptions.md R496). -/

namespace Sys2Proof.Machine

/-! ## Arbitration (R187, R188) -/

/-- `wants(c)` (R187). -/
def wants (s : State) : Channel → Bool
  | .copper => wantsCopper s
  | .blitter => wantsBlitter s
  | .bitplane => wantsBitplane s
  | .sprite n => wantsSprite n s
  | .disk => wantsDisk s
  | .audio n => wantsAudio n s

/-- The fixed priority list (R188). -/
def priorityList : List Channel :=
  [.copper, .blitter, .bitplane, .sprite 0, .sprite 1, .sprite 2, .sprite 3, .sprite 4, .sprite 5, .sprite 6,
    .sprite 7, .disk, .audio 0, .audio 1, .audio 2, .audio 3]

/-- The arbiter's choice for a slot (R18). -/
inductive Grant where
  | channel (c : Channel)
  | cpu
  | idle
deriving DecidableEq, Repr

/-- A channel the CPU makes wait: the Blitter with BLTPRI clear while the CPU asks (R188). -/
def passedOver (s : State) (cpuWants : Bool) (c : Channel) : Bool := c == .blitter && !s.bltpri && cpuWants

/-- `grant(cpu_wants)` (R188). -/
def grant (cpuWants : Bool) (s : State) : Grant :=
  match priorityList.find? (fun c => wants s c && !passedOver s cpuWants c) with
  | some c => .channel c
  | none => if cpuWants then .cpu else .idle

/-! ## The slot (R190) -/

/-- `sample_peripheral_inputs()` (R496, R414). -/
def samplePeripherals (s : State) : State :=
  let s1 := if s.irq.tbe then s.raise .tbe else s
  let s2 := if s.irq.ports then s1.raise .ports else s1
  let s3 := if s.irq.rbf then s2.raise .rbf else s2
  let s4 := if s.irq.dsksyn then
      let t := s3.raise .dsksyn
      if s.disk.active then { t with disk := { t.disk with syncSeen := true } } else t
    else s3
  if s.irq.exter then s4.raise .exter else s4

/-- The line-start events (R191). -/
def lineStart (s : State) : State := spriteLineStart { s with planes := s.planes.lineSetup s.raster.line }

/-- The frame-start events (R192). -/
def frameStart (s : State) : State := copperFrameReload (s.raise .vertb)

/-- Steps 1 to 3 of a slot. -/
def slotStart (s : State) : State :=
  let s2 := samplePeripherals (copperApplyPendingJump s)
  let s3 := if s2.raster.cycle = 0 then lineStart s2 else s2
  if s3.raster.cycle = 0 ∧ s3.raster.line = 0 then frameStart s3 else s3

/-- `copper_step()` (R248). -/
def copperStep (s : State) : Host.Outcome State Fault Refusal := exec (copperInstr s) (copperFetch s)

/-- Step 5 of a slot: the granted unit's operation. -/
def performGrant (g : Grant) (s : State) : Host.Outcome State Fault Refusal :=
  match g with
  | .channel .copper => copperStep s
  | .channel .blitter => .next (blitterStep s)
  | .channel .bitplane => .next (bitplaneFetch s)
  | .channel (.sprite n) => .next (spriteFetch n s)
  | .channel .disk => .next (diskStep s)
  | .channel (.audio n) => .next (audioStep n s)
  | .cpu => .next s
  | .idle => .next s

/-- `advance_position()` (R192). -/
def advancePosition (cfg : Config) (r : Raster) : Raster :=
  if r.cycle + 1 = cfg.lineLength then
    if r.line + 1 = cfg.fieldHeight then { r with cycle := 0, line := 0, frameCount := r.frameCount + 1 }
    else { r with cycle := 0, line := r.line + 1 }
  else { r with cycle := r.cycle + 1 }

/-- Steps 6 to 8 of a slot. -/
def slotEnd (s : State) : State :=
  let s7 := bitplaneUnitTick (outputSlot s)
  { s7 with raster := advancePosition s7.cfg s7.raster }

/-- The grant of the slot that starts in `s` (R190 steps 1 to 4). -/
def slotGrant (cpuWants : Bool) (s : State) : Grant := grant cpuWants (slotStart s)

/-- One slot (R190). -/
def slot (cpuWants : Bool) (s : State) : Host.Outcome State Fault Refusal :=
  andThen (performGrant (slotGrant cpuWants s) (slotStart s)) (fun t => .next (slotEnd t))

/-- `advance(n)` as R181 defines it: `n` slots without the CPU. -/
def slots : Nat → State → Host.Outcome State Fault Refusal
  | 0, s => .next s
  | n + 1, s => andThen (slot false s) (slots n)

end Sys2Proof.Machine
end

