-- ==== Sys2Proof/Machine/HostCalls.lean ====
section
/-! DEFINITION. The external interface: run operations, CPU accesses and the collaborators' calls
(40_scheduler.md sections 1 and 5, 45_disk_audio.md R412, R425, 70_reset_and_hazards.md R530). -/

namespace Sys2Proof.Machine

/-! ## CPU accesses (R201, R125)

An access the memory map routes to chip RAM is the memory map's (R121). The spec gives an address reduction for DMA
alone (R122) and does not say how the memory map brings a CPU address into installed RAM; that it mirrors by the same
reduction is the model's choice (DESIGN CHOICE, assumption 25). -/

/-- A read access: the value returned, and the state after it. Chip RAM is reached at the reduced address
(assumption 25). -/
def performRead (t : Target) (w : Width) (s : State) : Host.Outcome State Fault Refusal :=
  match t, w with
  | .register o, .word =>
    if o.getLsbD 0 then .fault .misalignedWordAccess
    else .next ((readOffset o s).2.respond (.readData (readOffset o s).1))
  | .register o, .byte =>
    let r := readOffset (o &&& 0x1FE) s
    .next (r.2.respond (.readData ((if o.getLsbD 0 then r.1.extractLsb' 0 8 else r.1.extractLsb' 8 8).setWidth 16)))
  | .chipRam a, .word =>
    if a % 2 = 1 then .fault .misalignedWordAccess
    else .next (s.respond (.readData (Memory.readWord s.mem (reduceAddr s.cfg a))))
  | .chipRam a, .byte => .next (s.respond (.readData ((Memory.read s.mem (reduceByte s.cfg a)).setWidth 16)))
  | .general, .word => .next (s.draw.2.respond (.readData s.draw.1))
  | .general, .byte => .next (s.draw.2.respond (.readData (s.draw.1 &&& 0xFF)))

/-- A write access. Chip RAM is reached at the reduced address (assumption 25). -/
def performWrite (t : Target) (w : Width) (v : Word) (s : State) : Host.Outcome State Fault Refusal :=
  match t, w with
  | .register o, .word => writeOffset .cpu o v s
  | .register o, .byte => writeOffset .cpu (o &&& 0x1FE) (v.extractLsb' 0 8 ++ v.extractLsb' 0 8) s
  | .chipRam a, .word =>
    if a % 2 = 1 then .fault .misalignedWordAccess
    else .next { s with mem := Memory.writeWord s.mem (reduceAddr s.cfg a) v }
  | .chipRam a, .byte => .next { s with mem := Memory.write s.mem (reduceByte s.cfg a) (v.extractLsb' 0 8) }
  | .general, .word => .next s
  | .general, .byte => .next s

/-- `perform(access)` (R201). -/
def performAccess (a : Access) (s : State) : Host.Outcome State Fault Refusal :=
  match a with
  | .read t w => performRead t w s
  | .write t w v => performWrite t w v s

/-! ## Runs (R181 to R185) -/

/-- The result record of a finished run (R185). -/
def Run.result (r : Run) (level : Nat) : RunResult where
  elapsedSlots := r.elapsedSlots
  elapsedTicks := 2 * r.elapsedSlots
  level := level
  levelChanged := r.levelChanged
  linesStarted := r.linesStarted
  framesStarted := r.framesStarted

/-- A run with no slot performed. -/
def Run.start (mode : RunMode) (n : Nat) : Run where
  mode := mode
  left := n
  elapsedSlots := 0
  levelChanged := false
  linesStarted := 0
  framesStarted := 0

/-- The CPU asks for the bus in the slots of `advance_until_cpu_slot` alone (R186). -/
def Run.cpuWants (r : Run) : Bool := r.mode == .stopOnCpuSlot

/-- A run after one more slot, from `s` to `t` (R185). -/
def Run.account (r : Run) (s t : State) : Run :=
  { r with
    left := r.left - 1
    elapsedSlots := r.elapsedSlots + 1
    levelChanged := r.levelChanged || t.irq.level != s.irq.level
    linesStarted := if s.raster.cycle = 0 then r.linesStarted + 1 else r.linesStarted
    framesStarted := if s.raster.cycle = 0 ∧ s.raster.line = 0 then r.framesStarted + 1 else r.framesStarted }

/-- The run ends with this slot: the CPU got it, or it was the last of `advance(n)`. -/
def Run.ends (r : Run) (s : State) : Bool :=
  match r.mode with
  | .runFull => decide (r.left ≤ 1)
  | .stopOnCpuSlot => slotGrant true s == .cpu

/-- The state after a slot of a run: the run goes on, or its result is returned. -/
def Run.finishSlot (r : Run) (s t : State) : State :=
  let r' := r.account s t
  if r.ends s then { t with run := none }.respond (.run (r'.result t.irq.level)) else { t with run := some r' }

/-- One slot of a run operation. -/
def runSlot (r : Run) (s : State) : Host.Outcome State Fault Refusal :=
  andThen (slot r.cpuWants s) (fun t => .next (r.finishSlot s t))

/-- The start of `advance(n)` (R181): with `n = 0` it returns at once. -/
def startAdvance (n : Nat) (s : State) : State :=
  if n = 0 then s.respond (.run ((Run.start .runFull 0).result s.irq.level))
  else { s with run := some (Run.start .runFull n) }

/-- The start of `run_for(d)` (R183). -/
def startRunFor (d : Nat) (s : State) : State :=
  let total := s.raster.residualTicks + d
  startAdvance (total / 2) { s with raster := { s.raster with residualTicks := total % 2 } }

/-! ## Calls -/

/-- One operation of the caller. -/
def performCall (c : Call) (s : State) : Host.Outcome State Fault Refusal :=
  match c with
  | .advance n => .next (startAdvance n s)
  | .runFor d => .next (startRunFor d s)
  | .advanceUntilCpuSlot => .next { s with run := some (Run.start .stopOnCpuSlot 0) }
  | .perform a => performAccess a s
  | .getInterruptLevel => .next (s.respond (.level s.irq.level))
  | .reset d => .next (s.resetWith d)

/-- One act of a collaborator. `setScanTarget false` takes the sink away: the spec speaks of installing one alone
(R204), so this is the model's choice, as is telling no sink from another (DESIGN CHOICE, assumption 26). -/
def performInput (i : Input) (s : State) : State :=
  match i with
  | .setPeripheralInterrupts ports exter => { s with irq := { s.irq with ports := ports, exter := exter } }
  | .setSerialInterrupts tbe rbf => { s with irq := { s.irq with tbe := tbe, rbf := rbf } }
  | .setDiskSync dsksyn => { s with irq := { s.irq with dsksyn := dsksyn } }
  | .setScanTarget installed => { s with sinkInstalled := installed }
  | .getScanStatus => s.draw.2.respond (.scanStatus s.draw.1)
  | .insertMedia => s.send .mediaInserted
  | .diskWordIn w => diskWordIn w s
  | .diskWordOut => diskWordOut s
  | .audioRequest n => audioRequest n s

/-- The inputs still to come, one slot or call nearer. -/
def tickInputs (s : State) : State :=
  match s.inputs with
  | (k + 1, i) :: rest => { s with inputs := (k, i) :: rest }
  | _ => s

/-- A step in which no input arrives: a slot of the run in progress, else the caller's next operation, else one
slot without the CPU. Each brings the inputs one nearer, so that one may land before or after any call and any slot
(R427, assumption 5). -/
def drivenStep (s : State) : Host.Outcome State Fault Refusal :=
  match s.run with
  | some r => runSlot r (tickInputs s)
  | none =>
    match s.calls with
    | [] => slot false (tickInputs s)
    | c :: rest => performCall c { tickInputs s with calls := rest }

/-! ## The next instruction (for `withFetchWord`) -/

/-- Where the Copper's next fetch reads, given that it starts at a frame start with the reload on (R252) or not. -/
def nextFetchAddr (s : State) : Ptr :=
  if s.cfg.copperVblankReload ∧ s.raster.line = 0 ∧ s.raster.cycle / 2 = 0 then s.copper.loc1 else s.copper.pc

/-- The Copper about to fetch in the next slot: enabled, running, on an even cycle, no jump, no input, no
call pending. -/
def readyToFetch (s : State) : State :=
  { s with
    dmacon := s.dmacon ||| 0x0280
    raster := { s.raster with cycle := s.raster.cycle / 2 * 2 }
    copper := { s.copper with mode := .running, pendingJump := .none }
    run := none
    inputs := []
    calls := [] }

end Sys2Proof.Machine
end

