-- ==== Sys2Proof/Machine/Step.lean ====
section
/-! DEFINITION. One step of the machine, and the placing of an instruction where the next step fetches it. -/

namespace Sys2Proof.Machine

/-- One step: the input that arrives now, if there is one; otherwise the machine is driven on (assumption 5). -/
def step (s : State) : Host.Outcome State Fault Refusal :=
  match s.inputs with
  | (0, i) :: rest => .next (performInput i { s with inputs := rest })
  | _ => drivenStep s

namespace State

/-- `s` with the instruction of the table word `w` where the next step fetches it, and the Copper ready to fetch
it in that step (assumption 10). -/
def withFetchWord (s : State) (nbits w : Nat) : State :=
  let t := readyToFetch s
  let a := nextFetchAddr t
  let ws := tableWords nbits w
  (t.memWrite a ws.1).memWrite (ptrAdd t.cfg a 2) ws.2

end State

end Sys2Proof.Machine
end

