-- ==== Sys2Proof/Safety.lean ====
section
/-! DEFINITION. The invariants of the machine's state, and the measures the claims are stated in. -/

namespace Sys2Proof.Machine

/-! ## Invariants, unit by unit -/

/-- The raster position is inside the frame, at most one tick is left over, LOF is 1 (R32 to R34). -/
structure RasterOk (s : State) : Prop where
  line : s.raster.line < s.cfg.fieldHeight
  cycle : s.raster.cycle < s.cfg.lineLength
  lof : s.raster.lof = true
  residual : s.raster.residualTicks < 2

/-- Chip RAM is in canonical form and lists installed bytes only (R120, R122); where a single byte is installed, the
word at address 0 has a second byte all the same (R123, assumption 12). -/
structure MemoryOk (s : State) : Prop where
  canonical : Memory.wf s.mem = true
  installed : ∀ c ∈ s.mem, c.1 < max s.cfg.chipRamBytes 2

/-- The level is the one the masks give (R491). -/
def LevelOk (s : State) : Prop := s.irq.level = computeLevel s.irq.enable s.irq.request

/-- A pointer has `CHIP_ADDR_BITS` bits and is even (R12, R45). -/
def PtrOk (cfg : Config) (p : Ptr) : Prop := p.toNat < 2 ^ cfg.chipAddrBits ∧ p.toNat % 2 = 0

/-- Every pointer of the block (R31, R45). -/
structure PointersOk (s : State) : Prop where
  pc : PtrOk s.cfg s.copper.pc
  loc1 : PtrOk s.cfg s.copper.loc1
  loc2 : PtrOk s.cfg s.copper.loc2
  apt : PtrOk s.cfg s.blitter.apt
  bpt : PtrOk s.cfg s.blitter.bpt
  cpt : PtrOk s.cfg s.blitter.cpt
  dpt : PtrOk s.cfg s.blitter.dpt
  disk : PtrOk s.cfg s.disk.ptr
  planes : ∀ i : Fin 6, PtrOk s.cfg s.planes.ptr[i]
  sprites : ∀ n : Fin 8, PtrOk s.cfg s.sprites[n].ptr
  audioLoc : ∀ n : Fin 4, PtrOk s.cfg s.audio[n].loc
  audioPtr : ∀ n : Fin 4, PtrOk s.cfg s.audio[n].ptr

/-- The bits the SET/CLR registers do not store read as 0 (R40 to R43). -/
structure RegistersOk (s : State) : Prop where
  dmacon : s.dmacon &&& 0xF800 = 0
  enable : s.irq.enable.getLsbD 15 = false
  request : s.irq.request.getLsbD 15 = false
  adkcon : s.adkcon.getLsbD 15 = false

/-- A busy Blitter is inside its blit, at a step of its word's sequence (R60, R284); of an idle one nothing is asked
(assumption 27). -/
structure BlitterOk (s : State) : Prop where
  width : s.blitter.busy = true → s.blitter.width ≤ 64
  height : s.blitter.busy = true → s.blitter.height ≤ 1024
  wordX : s.blitter.busy = true → s.blitter.wordX < s.blitter.width
  lines : s.blitter.busy = true → 0 < s.blitter.linesLeft ∧ s.blitter.linesLeft ≤ s.blitter.height
  step : s.blitter.busy = true → s.blitter.step ∈ blitSequence s.blitter.latch0

/-- The latched plane count (R331). -/
structure PlanesOk (s : State) : Prop where
  count : s.planes.linePlanes ≤ 6
  hires : s.planes.lineHires = true → s.planes.linePlanes ≤ 4

/-- At most two fetches of a sprite in a line (R374). -/
def SpritesOk (s : State) : Prop := ∀ n : Fin 8, s.sprites[n].fetched ≤ 2

/-- A transfer under way has words left (R411, R415, R422, R423). -/
structure ChannelsOk (s : State) : Prop where
  disk : s.disk.active = true → s.disk.left ≠ 0
  audio : ∀ n : Fin 4, s.audio[n].running = true → s.audio[n].left ≠ 0

/-- The staged pixels are those of the run and leave room for another slot (R460). -/
structure OutputOk (s : State) : Prop where
  staged : s.output.pix.length = if s.output.cls = .pixels then 4 * s.output.len else 0
  room : s.output.pix.length + 4 ≤ s.cfg.pixelBufferUnits

/-- The invariants together, under a configuration inside R10. -/
structure Inv (s : State) : Prop where
  cfg : s.cfg.valid = true
  raster : RasterOk s
  memory : MemoryOk s
  level : LevelOk s
  pointers : PointersOk s
  registers : RegistersOk s
  blitter : BlitterOk s
  planes : PlanesOk s
  sprites : SpritesOk s
  channels : ChannelsOk s
  output : OutputOk s

/-! ## Measures -/

/-- A raster position with its frame as one number of slots (R193). -/
def slotIndex (cfg : Config) (r : Raster) : Nat :=
  (r.frameCount * cfg.fieldHeight + r.line) * cfg.lineLength + r.cycle

/-- The sink units of a call (R462). -/
def SinkCall.units : SinkCall → Nat
  | .outputSync n => n
  | .outputBlank n => n
  | .outputColourBurst n => n
  | .outputLevel n _ => n
  | .outputData n _ => n

/-- The sink units emitted so far plus those still accumulating (R462). -/
def totalUnits (s : State) : Nat := (s.video.map SinkCall.units).sum + 4 * s.output.len

/-- The granted slots of one word (R284). -/
def wordSlots (con0 : Word) : Nat :=
  max 1 ((useA con0).toNat + (useB con0).toNat + (useC con0).toNat + (useD con0).toNat)

/-- `n` granted Blitter slots in a row. -/
def blitSlots : Nat → State → State
  | 0, s => s
  | n + 1, s => blitSlots n (blitterStep s)

/-- The byte of chip RAM a channel or the memory map reads at a reduced address. -/
def State.byteAt (s : State) (a : Nat) : Byte := Memory.read s.mem a

end Sys2Proof.Machine
end

