-- ==== Sys2Proof/Certificates/Slice0/Obligations.lean ====
section
/-! DEFINITION. The statements for the provers, from the numbered rules of the spec. -/

open Sys2Proof Sys2Proof.Machine

/-! ## Encoding -/

/-- 30 R150 to R152, R156: the bytes of a well-formed instruction decode to it, every operand at every value, and the
bytes after them are left; every pair of words decodes to a well-formed instruction whose encoding is that pair. -/
def Obligations.DecodeEncodeAgree : Prop :=
  (∀ (i : Instr) (rest : List Byte), i.wellFormed = true → decode (encodeBytes i ++ rest) = .ok (i, rest)) ∧
  (∀ ir1 ir2 : Word, (decodeWords ir1 ir2).wellFormed = true ∧ encode (decodeWords ir1 ir2) = (ir1, ir2))

/-- 30 R156: the opcode map is total, by the bits IR1[0] and IR2[0] and by the masks over `{IR1, IR2}`. -/
def Obligations.OpcodeMapTotal : Prop :=
  ∀ ir1 ir2 : Word,
    ((ir1 ++ ir2 : BitVec 32) &&& 0x00010000 = 0x00000000 ↔ (decodeWords ir1 ir2).mnemonic = "MOVE") ∧
    ((ir1 ++ ir2 : BitVec 32) &&& 0x00010001 = 0x00010000 ↔ (decodeWords ir1 ir2).mnemonic = "WAIT") ∧
    ((ir1 ++ ir2 : BitVec 32) &&& 0x00010001 = 0x00010001 ↔ (decodeWords ir1 ir2).mnemonic = "SKIP") ∧
    ((decodeWords ir1 ir2).mnemonic = "MOVE" ↔ ir1.getLsbD 0 = false) ∧
    ((decodeWords ir1 ir2).mnemonic = "WAIT" ↔ ir1.getLsbD 0 = true ∧ ir2.getLsbD 0 = false) ∧
    ((decodeWords ir1 ir2).mnemonic = "SKIP" ↔ ir1.getLsbD 0 = true ∧ ir2.getLsbD 0 = true)

/-- 30 R160, R161 and 95 section 2.1: words of the spec decode to the instructions they stand for. -/
def Obligations.DecodesSpecWords : Prop :=
  decodeWords 0x0180 0x0F00 = .move 0 0x180 0x0F00 ∧
  decodeWords 0xFE80 0x1234 = .move 0x7F 0x080 0x1234 ∧
  decodeWords 0x008C 0x0000 = .move 0 0x08C 0 ∧
  decodeWords 0x0A01 0xFFFE = .wait 10 0 true 0x7F 0x7F ∧
  decodeWords 0x0A41 0x80FE = .wait 10 0x20 true 0 0x7F ∧
  decodeWords 0x0001 0x0000 = .wait 0 0 false 0 0 ∧
  decodeWords 0xFFFF 0xFFFE = .wait 255 127 true 0x7F 0x7F ∧
  decodeWords 0x6401 0xFFFF = .skip 100 0 true 0x7F 0x7F

/-- 10 R37 to R39 and 40 R196, R199: every named register sits at an even offset of its own; the unmapped offsets are
those of the map's `-` rows (with the odd offsets, which are no registers); a MOVE or a CPU write to one has no effect
and a read of one is a draw. -/
def Obligations.RegisterMapDecodes : Prop :=
  (∀ r : Reg, (regOffset r).getLsbD 0 = false ∧ regOf (regOffset r) = some r) ∧
  (∀ (o : Offset) (r : Reg), regOf o = some r → regOffset r = o) ∧
  (∀ o : Offset, regOf o = none ↔
    o.toNat % 2 = 1 ∨ (0x05A ≤ o.toNat ∧ o.toNat ≤ 0x05E) ∨ (0x068 ≤ o.toNat ∧ o.toNat ≤ 0x06E) ∨
    (0x076 ≤ o.toNat ∧ o.toNat ≤ 0x07C) ∨
    (0x0A0 ≤ o.toNat ∧ o.toNat ≤ 0x0DF ∧ 0xC ≤ o.toNat % 0x10) ∨ (0x0F8 ≤ o.toNat ∧ o.toNat ≤ 0x0FE) ∨
    o.toNat = 0x106 ∨ o.toNat = 0x10C ∨ o.toNat = 0x10E ∨ o.toNat = 0x11C ∨ o.toNat = 0x11E ∨ 0x1C0 ≤ o.toNat) ∧
  (∀ (o : Offset) (ign : BitVec 7) (v : Word) (s : State), o.getLsbD 0 = false → regOf o = none →
    exec (.move ign o v) s = .next s ∧ writeOffset .cpu o v s = .next s ∧
    readOffset o s = (Config.draw s.drawCount, { s with drawCount := s.drawCount + 1 }))

/-! ## The Copper's instructions -/

/-- 41 R244: a MOVE to a protected register is dropped with no effect at all; otherwise it is the write the CPU
would make. -/
def Obligations.CopperProtection : Prop :=
  ∀ (ign : BitVec 7) (dest : Offset) (v : Word) (s : State), dest.getLsbD 0 = false →
    (¬ (0x080 ≤ dest.toNat ∨ (0x040 ≤ dest.toNat ∧ s.copper.copcon.getLsbD 1 = true)) →
      exec (.move ign dest v) s = .next s) ∧
    (0x080 ≤ dest.toNat ∨ (0x040 ≤ dest.toNat ∧ s.copper.copcon.getLsbD 1 = true) →
      exec (.move ign dest v) s = writeOffset .cpu dest v s)

/-- 41 R243 and 40 R196: a MOVE to any register completes, but for BLTSIZE with line mode set (42 R298); each unit
changes only when the destination is one of its registers, and chip RAM, the raster, the output and the Copper's
own sequencing never do. -/
def Obligations.MoveCompletesWithFrame : Prop :=
  ∀ (ign : BitVec 7) (dest : Offset) (v : Word) (s : State), dest.getLsbD 0 = false →
    ¬ (dest = 0x058 ∧ s.copper.copcon.getLsbD 1 = true ∧ s.blitter.con1.getLsbD 0 = true) →
    ∃ t, exec (.move ign dest v) s = .next t ∧
      t.cfg = s.cfg ∧ t.mem = s.mem ∧ (∀ a, t.byteAt a = s.byteAt a) ∧ t.raster = s.raster ∧ t.output = s.output ∧
      t.video = s.video ∧ t.sinkInstalled = s.sinkInstalled ∧ t.responses = s.responses ∧ t.inputs = s.inputs ∧
      t.calls = s.calls ∧ t.run = s.run ∧ t.drawCount = s.drawCount ∧ t.refptr = s.refptr ∧
      t.copper.pc = s.copper.pc ∧ t.copper.mode = s.copper.mode ∧ t.copper.ir1 = s.copper.ir1 ∧
      t.copper.ir2 = s.copper.ir2 ∧ t.copper.waitValue = s.copper.waitValue ∧
      t.copper.waitMask = s.copper.waitMask ∧ t.copper.waitBfd = s.copper.waitBfd ∧
      t.copper.copcon = s.copper.copcon ∧
      (¬ (0x080 ≤ dest.toNat ∧ dest.toNat ≤ 0x08C) → t.copper = s.copper) ∧
      (¬ (0x040 ≤ dest.toNat ∧ dest.toNat ≤ 0x074) → t.blitter = s.blitter) ∧
      (dest ≠ 0x07E → t.disk = s.disk) ∧
      (¬ ((0x08E ≤ dest.toNat ∧ dest.toNat ≤ 0x094) ∨ (0x0E0 ≤ dest.toNat ∧ dest.toNat ≤ 0x11A)) →
        t.planes = s.planes) ∧
      (¬ (0x120 ≤ dest.toNat ∧ dest.toNat ≤ 0x17E) → t.sprites = s.sprites) ∧
      (¬ (0x180 ≤ dest.toNat ∧ dest.toNat ≤ 0x1BE) → t.palette = s.palette) ∧
      (dest ≠ 0x096 → t.dmacon = s.dmacon) ∧
      (¬ (dest = 0x096 ∨ (0x0A0 ≤ dest.toNat ∧ dest.toNat ≤ 0x0DA)) → t.audio = s.audio) ∧
      (dest ≠ 0x096 → dest ≠ 0x09A → dest ≠ 0x09C → t.irq = s.irq) ∧
      (dest ≠ 0x09E → t.adkcon = s.adkcon) ∧
      (dest ≠ 0x098 → t.clxcon = s.clxcon) ∧
      (¬ (dest = 0x07E ∨ dest = 0x09E ∨ dest = 0x100 ∨ (0x0A0 ≤ dest.toNat ∧ dest.toNat ≤ 0x0DA)) →
        t.outbox = s.outbox)

/-- 41 R245 with the operands of 30 R155: WAIT sets the wait fields and RUNNING or WAITING, and nothing else. -/
def Obligations.WaitResult : Prop :=
  ∀ (vp : Byte) (hp : BitVec 7) (bfd : Bool) (ve he : BitVec 7) (s : State),
    exec (.wait vp hp bfd ve he) s =
      .next { s with copper := { s.copper with
        waitValue := vp ++ hp ++ 0#1
        waitMask := 1#1 ++ ve ++ he ++ 0#1
        waitBfd := bfd
        mode :=
          if ((vp ++ hp ++ 0#1) &&& (1#1 ++ ve ++ he ++ 0#1)).toNat ≤
                ((BitVec.ofNat 8 s.raster.line ++ (BitVec.ofNat 8 s.raster.cycle).extractLsb' 1 7 ++ 0#1) &&&
                  (1#1 ++ ve ++ he ++ 0#1)).toNat ∧ (bfd = true ∨ s.blitter.busy = false)
          then .running else .waiting } }

/-- 41 R246: SKIP advances the pc by another 4 when the position is satisfied, leaves RUNNING, and changes nothing
else, the wait fields among it. -/
def Obligations.SkipResult : Prop :=
  ∀ (vp : Byte) (hp : BitVec 7) (bfd : Bool) (ve he : BitVec 7) (s : State),
    exec (.skip vp hp bfd ve he) s =
      .next { s with copper := { s.copper with
        pc :=
          if ((vp ++ hp ++ 0#1) &&& (1#1 ++ ve ++ he ++ 0#1)).toNat ≤
                ((BitVec.ofNat 8 s.raster.line ++ (BitVec.ofNat 8 s.raster.cycle).extractLsb' 1 7 ++ 0#1) &&&
                  (1#1 ++ ve ++ he ++ 0#1)).toNat ∧ (bfd = true ∨ s.blitter.busy = false)
          then ptrAdd s.cfg s.copper.pc 4 else s.copper.pc
        mode := .running } }

/-- 30 R155 under full enables: a position satisfies WAIT v, h exactly when line and cycle, `line[8]` and `cycle[0]`
left out, are at or past it in raster order, and the Blitter is idle if asked for. -/
def Obligations.WaitComparesRasterOrder : Prop :=
  ∀ (vp : Byte) (hp : BitVec 7) (bfd : Bool) (s : State),
    s.satisfied (waitValueOf vp hp) (waitMaskOf 0x7F 0x7F) bfd = true ↔
      (vp.toNat < s.raster.line % 256 ∨
        (vp.toNat = s.raster.line % 256 ∧ hp.toNat ≤ s.raster.cycle % 256 / 2)) ∧
      (bfd = true ∨ s.blitter.busy = false)

/-- 30 R160: CEND (WAIT 255, 254) leaves the Copper WAITING with a wait that is never satisfied on lines of at most
0xFE slots; CNOP changes COPINS alone; WAITBLIT's wait ends exactly when the Blitter is not busy. -/
def Obligations.PseudoInstructionWaits : Prop :=
  (∀ s : State, s.raster.cycle < s.cfg.lineLength → s.cfg.lineLength ≤ 0xFE →
    (∃ t, exec Instr.cend s = .next t ∧ t.copper.mode = .waiting ∧ t.copper.waitValue = 0xFFFE ∧
      t.copper.waitMask = 0xFFFE ∧ t.copper.waitBfd = true) ∧
    s.satisfied 0xFFFE 0xFFFE true = false) ∧
  (∀ s : State, exec Instr.cnop s = .next { s with copper := { s.copper with copins := 0 } }) ∧
  (∀ s : State, ∃ t, exec Instr.waitblit s = .next t ∧
    t.copper.mode = (if s.blitter.busy then CopperMode.waiting else CopperMode.running) ∧
    (∀ u : State, u.satisfied t.copper.waitValue t.copper.waitMask t.copper.waitBfd = !u.blitter.busy))

/-! ## Register writes and reads -/

/-- 40 R197 (with 60 R491 for the level): a SET/CLR write sets or clears exactly the writable bits that are 1 in the
value, for DMACON, INTENA, INTREQ and ADKCON; the CPU's write does what the Copper's MOVE does. One message with the
stored value at every write of ADKCON (R412; R43 says at every change) is the model's choice, assumption 14. -/
def Obligations.SetClrWrites : Prop :=
  ∀ (ign : BitVec 7) (v : Word) (s : State),
    (∃ t, exec (.move ign 0x096 v) s = .next t ∧
      t.dmacon = if v.getLsbD 15 then s.dmacon ||| (v &&& 0x07FF) else s.dmacon &&& ~~~(v &&& 0x07FF)) ∧
    (∃ t, exec (.move ign 0x09A v) s = .next t ∧
      t.irq.enable = (if v.getLsbD 15 then s.irq.enable ||| (v &&& 0x7FFF) else s.irq.enable &&& ~~~(v &&& 0x7FFF)) ∧
      t = { s with irq := { s.irq with
        enable := t.irq.enable, level := computeLevel t.irq.enable s.irq.request } }) ∧
    (∃ t, exec (.move ign 0x09C v) s = .next t ∧
      t.irq.request =
        (if v.getLsbD 15 then s.irq.request ||| (v &&& 0x7FFF) else s.irq.request &&& ~~~(v &&& 0x7FFF)) ∧
      t = { s with irq := { s.irq with
        request := t.irq.request, level := computeLevel s.irq.enable t.irq.request } }) ∧
    (∃ t, exec (.move ign 0x09E v) s = .next t ∧
      t.adkcon = (if v.getLsbD 15 then s.adkcon ||| (v &&& 0x7FFF) else s.adkcon &&& ~~~(v &&& 0x7FFF)) ∧
      t = { s with adkcon := t.adkcon, outbox := .passed .adkcon t.adkcon :: s.outbox }) ∧
    (∀ o ∈ ([0x096, 0x09A, 0x09C, 0x09E] : List Offset), writeOffset .cpu o v s = exec (.move ign o v) s)

/-- 45 R423: a DMACON write starts each audio channel whose enable rises, with its request, stops each whose enable
falls, and leaves the others; nothing but DMACON, the channels and the requests changes; by the Copper or the CPU. -/
def Obligations.DmaconStartsAudio : Prop :=
  ∀ (ign : BitVec 7) (v : Word) (s : State), ∃ t, exec (.move ign 0x096 v) s = .next t ∧
    writeOffset .cpu 0x096 v s = .next t ∧
    t = { s with dmacon := t.dmacon, audio := t.audio, irq := t.irq } ∧
    (∀ n : Fin 4,
      (s.enabled (.audio n) = false → t.enabled (.audio n) = true →
        t.audio[n] = { s.audio[n] with
          running := true, ptr := s.audio[n].loc
          left := if s.audio[n].len = 0 then 65536 else s.audio[n].len.setWidth 17 } ∧
        t.irq.request.getLsbD (7 + n.val) = true) ∧
      (s.enabled (.audio n) = true → t.enabled (.audio n) = false →
        t.audio[n] = { s.audio[n] with running := false } ∧
        t.irq.request.getLsbD (7 + n.val) = s.irq.request.getLsbD (7 + n.val)) ∧
      (s.enabled (.audio n) = t.enabled (.audio n) →
        t.audio[n] = s.audio[n] ∧ t.irq.request.getLsbD (7 + n.val) = s.irq.request.getLsbD (7 + n.val))) ∧
    (∀ i, ¬ (7 ≤ i ∧ i ≤ 10) → t.irq.request.getLsbD i = s.irq.request.getLsbD i) ∧
    t.irq = { s.irq with
      request := t.irq.request
      level :=
        if ∃ n : Fin 4, s.enabled (.audio n) = false ∧ t.enabled (.audio n) = true then
          computeLevel s.irq.enable t.irq.request
        else s.irq.level }

/-- 10 R45: a write to a pointer's high register sets the bits from 16 up, to its low register the bits 15:1, each
half alone; bits at and above CHIP_ADDR_BITS and bit 0 stay 0. -/
def Obligations.PointerHalfBits : Prop :=
  ∀ (cfg : Config) (p : Ptr) (v : Word) (i : Nat), PtrOk cfg p → 18 ≤ cfg.chipAddrBits → cfg.chipAddrBits ≤ 21 →
    (ptrSetHigh cfg p v).getLsbD i =
      (if i < 16 then p.getLsbD i else decide (i < cfg.chipAddrBits) && v.getLsbD (i - 16)) ∧
    (ptrSetLow cfg p v).getLsbD i = (if i < 16 then decide (1 ≤ i) && v.getLsbD i else p.getLsbD i)

/-- 10 R38, R45: the pointer registers a Copper MOVE may always write, each changing its own half alone. -/
def Obligations.MovePointers : Prop :=
  ∀ (ign : BitVec 7) (v : Word) (s : State),
    exec (.move ign 0x080 v) s = .next { s with copper := { s.copper with loc1 := ptrSetHigh s.cfg s.copper.loc1 v } } ∧
    exec (.move ign 0x082 v) s = .next { s with copper := { s.copper with loc1 := ptrSetLow s.cfg s.copper.loc1 v } } ∧
    exec (.move ign 0x084 v) s = .next { s with copper := { s.copper with loc2 := ptrSetHigh s.cfg s.copper.loc2 v } } ∧
    exec (.move ign 0x086 v) s = .next { s with copper := { s.copper with loc2 := ptrSetLow s.cfg s.copper.loc2 v } } ∧
    (∀ n : Fin 4,
      exec (.move ign (BitVec.ofNat 9 (0x0A0 + 0x10 * n.val)) v) s =
        .next { s with audio := s.audio.set n { s.audio[n] with loc := ptrSetHigh s.cfg s.audio[n].loc v } } ∧
      exec (.move ign (BitVec.ofNat 9 (0x0A2 + 0x10 * n.val)) v) s =
        .next { s with audio := s.audio.set n { s.audio[n] with loc := ptrSetLow s.cfg s.audio[n].loc v } }) ∧
    (∀ n : Fin 6,
      exec (.move ign (BitVec.ofNat 9 (0x0E0 + 4 * n.val)) v) s =
        .next { s with planes := { s.planes with
          ptr := s.planes.ptr.set n (ptrSetHigh s.cfg s.planes.ptr[n] v) } } ∧
      exec (.move ign (BitVec.ofNat 9 (0x0E2 + 4 * n.val)) v) s =
        .next { s with planes := { s.planes with
          ptr := s.planes.ptr.set n (ptrSetLow s.cfg s.planes.ptr[n] v) } }) ∧
    (∀ n : Fin 8,
      exec (.move ign (BitVec.ofNat 9 (0x120 + 4 * n.val)) v) s =
        .next { s with sprites := s.sprites.set n { s.sprites[n] with ptr := ptrSetHigh s.cfg s.sprites[n].ptr v } } ∧
      exec (.move ign (BitVec.ofNat 9 (0x122 + 4 * n.val)) v) s =
        .next { s with sprites := s.sprites.set n { s.sprites[n] with ptr := ptrSetLow s.cfg s.sprites[n].ptr v } })

/-- 10 R46 to R49, R38, R45: the Blitter's registers and DSKSYNC as the CPU writes them (and the Copper with CDANG:
CopperProtection), each storing its own value alone; pointers by halves. -/
def Obligations.BlitterRegisterWrites : Prop :=
  ∀ (v : Word) (s : State),
    writeOffset .cpu 0x040 v s = .next { s with blitter := { s.blitter with con0 := v } } ∧
    writeOffset .cpu 0x042 v s = .next { s with blitter := { s.blitter with con1 := v } } ∧
    writeOffset .cpu 0x044 v s = .next { s with blitter := { s.blitter with afwm := v } } ∧
    writeOffset .cpu 0x046 v s = .next { s with blitter := { s.blitter with alwm := v } } ∧
    writeOffset .cpu 0x048 v s =
      .next { s with blitter := { s.blitter with cpt := ptrSetHigh s.cfg s.blitter.cpt v } } ∧
    writeOffset .cpu 0x04A v s =
      .next { s with blitter := { s.blitter with cpt := ptrSetLow s.cfg s.blitter.cpt v } } ∧
    writeOffset .cpu 0x04C v s =
      .next { s with blitter := { s.blitter with bpt := ptrSetHigh s.cfg s.blitter.bpt v } } ∧
    writeOffset .cpu 0x04E v s =
      .next { s with blitter := { s.blitter with bpt := ptrSetLow s.cfg s.blitter.bpt v } } ∧
    writeOffset .cpu 0x050 v s =
      .next { s with blitter := { s.blitter with apt := ptrSetHigh s.cfg s.blitter.apt v } } ∧
    writeOffset .cpu 0x052 v s =
      .next { s with blitter := { s.blitter with apt := ptrSetLow s.cfg s.blitter.apt v } } ∧
    writeOffset .cpu 0x054 v s =
      .next { s with blitter := { s.blitter with dpt := ptrSetHigh s.cfg s.blitter.dpt v } } ∧
    writeOffset .cpu 0x056 v s =
      .next { s with blitter := { s.blitter with dpt := ptrSetLow s.cfg s.blitter.dpt v } } ∧
    writeOffset .cpu 0x060 v s = .next { s with blitter := { s.blitter with cmod := v } } ∧
    writeOffset .cpu 0x062 v s = .next { s with blitter := { s.blitter with bmod := v } } ∧
    writeOffset .cpu 0x064 v s = .next { s with blitter := { s.blitter with amod := v } } ∧
    writeOffset .cpu 0x066 v s = .next { s with blitter := { s.blitter with dmod := v } } ∧
    writeOffset .cpu 0x070 v s = .next { s with blitter := { s.blitter with cdat := v } } ∧
    writeOffset .cpu 0x072 v s = .next { s with blitter := { s.blitter with bdat := v } } ∧
    writeOffset .cpu 0x074 v s = .next { s with blitter := { s.blitter with adat := v } } ∧
    writeOffset .cpu 0x07E v s =
      .next { s with disk := { s.disk with dsksync := v }, outbox := .passed .dsksync v :: s.outbox }

/-- 42 R281, R298 with 10 R48: a BLTSIZE write, by the CPU or by a Copper with CDANG, arms the Blitter, abandoning any
blit under way, and is refused with LINE set. -/
def Obligations.BltsizeArmsBlitter : Prop :=
  ∀ (ign : BitVec 7) (v : Word) (s : State),
    (s.copper.copcon.getLsbD 1 = true → exec (.move ign 0x058 v) s = writeOffset .cpu 0x058 v s) ∧
    (s.blitter.con1.getLsbD 0 = true → writeOffset .cpu 0x058 v s = .refused .blitterLineMode) ∧
    (s.blitter.con1.getLsbD 0 = false → writeOffset .cpu 0x058 v s =
      .next { s with blitter := { s.blitter with
        size := v
        latch0 := s.blitter.con0
        latch1 := s.blitter.con1
        width := if v.toNat % 64 = 0 then 64 else v.toNat % 64
        height := if v.toNat / 64 = 0 then 1024 else v.toNat / 64
        wordX := 0
        linesLeft := if v.toNat / 64 = 0 then 1024 else v.toNat / 64
        aOld := 0
        bOld := 0
        fillCarry := s.blitter.con1.getLsbD 2
        step :=
          if s.blitter.con0.getLsbD 11 then .a else if s.blitter.con0.getLsbD 10 then .b
          else if s.blitter.con0.getLsbD 9 then .c else if s.blitter.con0.getLsbD 8 then .d else .idleCycle
        busy := true
        zero := true } })

/-- 10 R49 to R52, R55 to R58, R63, 43 R340, 45 R424: the display, colour and audio registers a Copper MOVE may always
write (BPLCON0's COLOR bit goes to an installed sink, assumption 13). -/
def Obligations.MoveDisplayAndAudio : Prop :=
  ∀ (ign : BitVec 7) (v : Word) (s : State),
    exec (.move ign 0x08C v) s = .next { s with copper := { s.copper with copins := v } } ∧
    exec (.move ign 0x08E v) s = .next { s with planes := { s.planes with diwstrt := v } } ∧
    exec (.move ign 0x090 v) s = .next { s with planes := { s.planes with diwstop := v } } ∧
    exec (.move ign 0x092 v) s = .next { s with planes := { s.planes with ddfstrt := v } } ∧
    exec (.move ign 0x094 v) s = .next { s with planes := { s.planes with ddfstop := v } } ∧
    exec (.move ign 0x098 v) s = .next { s with clxcon := v } ∧
    exec (.move ign 0x100 v) s = .next { s with
      planes := { s.planes with con0 := v },
      outbox := if s.sinkInstalled then .colourEnable (v.getLsbD 9) :: s.outbox else s.outbox } ∧
    exec (.move ign 0x102 v) s = .next { s with planes := { s.planes with con1 := v } } ∧
    exec (.move ign 0x104 v) s = .next { s with planes := { s.planes with con2 := v } } ∧
    exec (.move ign 0x108 v) s = .next { s with planes := { s.planes with mod1 := v } } ∧
    exec (.move ign 0x10A v) s = .next { s with planes := { s.planes with mod2 := v } } ∧
    (∀ n : Fin 6, exec (.move ign (BitVec.ofNat 9 (0x110 + 2 * n.val)) v) s =
      .next { s with planes := { s.planes with next := s.planes.next.set n v } }) ∧
    (∀ n : Fin 32, exec (.move ign (BitVec.ofNat 9 (0x180 + 2 * n.val)) v) s =
      .next { s with palette := s.palette.set n (v.extractLsb' 0 12) }) ∧
    (∀ n : Fin 4,
      exec (.move ign (BitVec.ofNat 9 (0x0A4 + 0x10 * n.val)) v) s =
        .next { s with audio := s.audio.set n { s.audio[n] with len := v } } ∧
      exec (.move ign (BitVec.ofNat 9 (0x0A6 + 0x10 * n.val)) v) s =
        .next { s with
          audio := s.audio.set n { s.audio[n] with per := v }, outbox := .passed (.audper n) v :: s.outbox } ∧
      exec (.move ign (BitVec.ofNat 9 (0x0A8 + 0x10 * n.val)) v) s =
        .next { s with
          audio := s.audio.set n { s.audio[n] with vol := v.extractLsb' 0 7 },
          outbox := .passed (.audvol n) (v &&& 0x7F) :: s.outbox } ∧
      exec (.move ign (BitVec.ofNat 9 (0x0AA + 0x10 * n.val)) v) s =
        .next { s with
          audio := s.audio.set n { s.audio[n] with dat := v }, outbox := .audioWord n v :: s.outbox })

/-- 10 R53, R54, 44 R378, R379: the sprite registers; SPRnDATA arms, SPRnCTL disarms, and no write changes the fetch
state; the CPU's write does what the Copper's MOVE does. -/
def Obligations.MoveSpriteRegisters : Prop :=
  ∀ (ign : BitVec 7) (n : Fin 8) (v : Word) (s : State),
    exec (.move ign (BitVec.ofNat 9 (0x140 + 8 * n.val)) v) s =
      .next { s with sprites := s.sprites.set n { s.sprites[n] with
        vStart := s.sprites[n].vStart.extractLsb' 8 1 ++ v.extractLsb' 8 8
        hStart := v.extractLsb' 0 8 ++ s.sprites[n].hStart.extractLsb' 0 1 } } ∧
    exec (.move ign (BitVec.ofNat 9 (0x142 + 8 * n.val)) v) s =
      .next { s with sprites := s.sprites.set n { s.sprites[n] with
        vStop := v.extractLsb' 1 1 ++ v.extractLsb' 8 8
        attached := v.getLsbD 7
        vStart := v.extractLsb' 2 1 ++ s.sprites[n].vStart.extractLsb' 0 8
        hStart := s.sprites[n].hStart.extractLsb' 1 8 ++ v.extractLsb' 0 1
        active := false } } ∧
    exec (.move ign (BitVec.ofNat 9 (0x144 + 8 * n.val)) v) s =
      .next { s with sprites := s.sprites.set n { s.sprites[n] with dataA := v, active := true } } ∧
    exec (.move ign (BitVec.ofNat 9 (0x146 + 8 * n.val)) v) s =
      .next { s with sprites := s.sprites.set n { s.sprites[n] with dataB := v } } ∧
    (∀ k : Fin 4, writeOffset .cpu (BitVec.ofNat 9 (0x140 + 8 * n.val + 2 * k.val)) v s =
      exec (.move ign (BitVec.ofNat 9 (0x140 + 8 * n.val + 2 * k.val)) v) s)

/-- 45 R411: a DSKLEN write stops with DMAEN clear; with DMAEN set it arms, and starts a transfer exactly when the
write before it had DMAEN set too and LEN is not 0. -/
def Obligations.DsklenTwoWrites : Prop :=
  ∀ (v : Word) (s : State),
    (v.getLsbD 15 = false → writeOffset .cpu 0x024 v s =
      .next { s with disk := { s.disk with dsklen := v, active := false, armed := false } }) ∧
    (v.getLsbD 15 = true → s.disk.armed = true → v.extractLsb' 0 14 ≠ 0 → writeOffset .cpu 0x024 v s =
      .next { s with disk := { s.disk with
        dsklen := v
        active := true
        dir := if v.getLsbD 14 then .write else .read
        left := v.extractLsb' 0 14
        bufFull := false
        syncSeen := false
        armed := true } }) ∧
    (v.getLsbD 15 = true → s.disk.armed = false ∨ v.extractLsb' 0 14 = 0 → writeOffset .cpu 0x024 v s =
      .next { s with disk := { s.disk with dsklen := v, armed := true } })

/-- 40 R196, R200, 20 R124, R125 and 10 R38: CPU accesses. Below 0x040, writes of read-only, DMA-only, ignored and
strobe offsets change nothing, class X is forwarded, DSKPT, REFPTR and COPCON are stored; a byte write is the word
write of the byte in both halves, a byte read one half of the word; a word access at an odd offset is the assert. -/
def Obligations.CpuRegisterAccess : Prop :=
  (∀ (v : Word) (s : State),
    (∀ o ∈ ([0x000, 0x002, 0x004, 0x006, 0x008, 0x00E, 0x010, 0x01C, 0x01E, 0x026, 0x02A, 0x02C, 0x038, 0x03A,
        0x03C, 0x03E] : List Offset), writeOffset .cpu o v s = .next s) ∧
    (∀ p ∈ ([(0x00A, .joy0dat), (0x00C, .joy1dat), (0x012, .pot0dat), (0x014, .pot1dat), (0x016, .potgor),
        (0x018, .serdatr), (0x01A, .dskbytr), (0x030, .serdat), (0x032, .serper), (0x034, .potgo),
        (0x036, .joytest)] : List (Offset × Reg)),
      writeOffset .cpu p.1 v s = .next { s with outbox := .forward p.2 v :: s.outbox }) ∧
    writeOffset .cpu 0x020 v s = .next { s with disk := { s.disk with ptr := ptrSetHigh s.cfg s.disk.ptr v } } ∧
    writeOffset .cpu 0x022 v s = .next { s with disk := { s.disk with ptr := ptrSetLow s.cfg s.disk.ptr v } } ∧
    writeOffset .cpu 0x028 v s = .next { s with refptr := v } ∧
    writeOffset .cpu 0x02E v s = .next { s with copper := { s.copper with copcon := v } }) ∧
  (∀ (o : Offset) (v : Word) (s : State),
    performAccess (.write (.register o) .byte v) s =
      writeOffset .cpu (o &&& 0x1FE) (v.extractLsb' 0 8 ++ v.extractLsb' 0 8) s ∧
    performAccess (.read (.register o) .byte) s =
      .next ((readOffset (o &&& 0x1FE) s).2.respond (.readData
        (if o.getLsbD 0 then (readOffset (o &&& 0x1FE) s).1 &&& 0xFF else (readOffset (o &&& 0x1FE) s).1 >>> 8))) ∧
    (o.getLsbD 0 = true →
      performAccess (.write (.register o) .word v) s = .fault .misalignedWordAccess ∧
      performAccess (.read (.register o) .word) s = .fault .misalignedWordAccess) ∧
    (o.getLsbD 0 = false →
      performAccess (.write (.register o) .word v) s = writeOffset .cpu o v s ∧
      performAccess (.read (.register o) .word) s =
        .next ((readOffset o s).2.respond (.readData (readOffset o s).1))))

/-- 40 R198, R199, R200 with 10 R40 to R43, R66, R67: what the CPU reads, bit by bit; a read of a class R register
changes nothing; a read of any other offset (CLXDAT among them) is a draw, a fresh free value. -/
def Obligations.RegisterReads : Prop :=
  ∀ s : State,
    (readOffset 0x002 s).2 = s ∧ (readOffset 0x004 s).2 = s ∧ (readOffset 0x006 s).2 = s ∧
    readOffset 0x010 s = (s.adkcon, s) ∧ readOffset 0x01C s = (s.irq.enable, s) ∧
    readOffset 0x01E s = (s.irq.request, s) ∧
    (∀ i < 16, (readOffset 0x002 s).1.getLsbD i =
      if i = 14 then s.blitter.busy else if i = 13 then s.blitter.zero
      else decide (i ≤ 10) && s.dmacon.getLsbD i) ∧
    (∀ i < 16, (readOffset 0x004 s).1.getLsbD i =
      if i = 15 then s.raster.lof else decide (i = 0) && s.raster.line.testBit 8) ∧
    (readOffset 0x006 s).1.toNat = s.raster.line % 256 * 256 + s.raster.cycle % 256 ∧
    (∀ o : Offset, o ∉ ([0x002, 0x004, 0x006, 0x010, 0x01C, 0x01E] : List Offset) →
      readOffset o s = (Config.draw s.drawCount, { s with drawCount := s.drawCount + 1 }))

/-! ## The slot -/

/-- 41 R248, R242 and 40 R190: when the Copper is granted a slot and the bytes at its pc decode to `i`, the slot runs
`i` on the state the fetch leaves, then the rest of the slot; granted to another channel it runs that channel's one
operation, to the CPU or to nobody none. The rest of a slot is the output, the bitplanes' unit tick and the advance of
the position (R192), in this order. A step is the input that is due, else a slot of the run in progress (in which the
CPU asks exactly under `advance_until_cpu_slot`, R186), else the next call, else a slot without the CPU; each slot and
each call brings the inputs one nearer (assumption 5). -/
def Obligations.StepRunsDecodedInstruction : Prop :=
  (∀ (cpuWants : Bool) (s : State) (i : Instr) (rest : List Byte),
    slotGrant cpuWants s = .channel .copper → decode (copperBytes (slotStart s)) = .ok (i, rest) →
    i.wellFormed = true ∧ rest = [] ∧
    slot cpuWants s = andThen (exec i { slotStart s with copper := { (slotStart s).copper with
        mode := .running
        pc := ptrAdd s.cfg (slotStart s).copper.pc 4
        ir1 := (slotStart s).memRead (slotStart s).copper.pc
        ir2 := (slotStart s).memRead (ptrAdd s.cfg (slotStart s).copper.pc 2) } })
      (fun t => .next (slotEnd t))) ∧
  (∀ (cpuWants : Bool) (s : State),
    (slotGrant cpuWants s = .channel .blitter → slot cpuWants s = .next (slotEnd (blitterStep (slotStart s)))) ∧
    (slotGrant cpuWants s = .channel .bitplane → slot cpuWants s = .next (slotEnd (bitplaneFetch (slotStart s)))) ∧
    (∀ n, slotGrant cpuWants s = .channel (.sprite n) →
      slot cpuWants s = .next (slotEnd (spriteFetch n (slotStart s)))) ∧
    (slotGrant cpuWants s = .channel .disk → slot cpuWants s = .next (slotEnd (diskStep (slotStart s)))) ∧
    (∀ n, slotGrant cpuWants s = .channel (.audio n) →
      slot cpuWants s = .next (slotEnd (audioStep n (slotStart s)))) ∧
    (slotGrant cpuWants s = .cpu ∨ slotGrant cpuWants s = .idle → slot cpuWants s = .next (slotEnd (slotStart s)))) ∧
  (∀ s : State,
    let r := s.raster
    let lineEnd := r.cycle + 1 = s.cfg.lineLength
    let frameEnd := lineEnd ∧ r.line + 1 = s.cfg.fieldHeight
    slotEnd s = { bitplaneUnitTick (outputSlot s) with raster := { r with
      cycle := if lineEnd then 0 else r.cycle + 1
      line := if frameEnd then 0 else if lineEnd then r.line + 1 else r.line
      frameCount := if frameEnd then r.frameCount + 1 else r.frameCount } }) ∧
  (∀ s : State, (∀ i rest, s.inputs ≠ (0, i) :: rest) →
    (∀ r, s.run = some r →
      step s = andThen (slot (r.mode == .stopOnCpuSlot) (tickInputs s)) (fun t => .next (r.finishSlot (tickInputs s) t))) ∧
    (s.run = none → s.calls = [] → step s = slot false (tickInputs s)) ∧
    (s.run = none → ∀ c rest, s.calls = c :: rest → step s = performCall c { tickInputs s with calls := rest })) ∧
  (∀ (s : State) (i : Input) (rest : List (Nat × Input)),
    (s.inputs = (0, i) :: rest → step s = .next (performInput i { s with inputs := rest })) ∧
    (∀ k, s.inputs = (k + 1, i) :: rest → tickInputs s = { s with inputs := (k, i) :: rest }))

/-- 40 R188, R187: the arbiter grants the first channel of the fixed list that wants the slot and is not the
passed-over Blitter; with none, the CPU if it asks, else nobody; a channel that is not enabled never wants a slot, and
what each channel wants (41 R247, 42 R282, 43 R333, 44 R374, 45 R413, R421). -/
def Obligations.GrantIsFixedPriority : Prop :=
  ∀ (cpuWants : Bool) (s : State),
    (∀ c : Channel, grant cpuWants s = .channel c ↔
      ∃ before after, ([.copper, .blitter, .bitplane, .sprite 0, .sprite 1, .sprite 2, .sprite 3, .sprite 4,
          .sprite 5, .sprite 6, .sprite 7, .disk, .audio 0, .audio 1, .audio 2, .audio 3] : List Channel)
            = before ++ c :: after ∧
        wants s c = true ∧ ¬ (c = .blitter ∧ s.dmacon.getLsbD 10 = false ∧ cpuWants = true) ∧
        ∀ d ∈ before, wants s d = true → d = .blitter ∧ s.dmacon.getLsbD 10 = false ∧ cpuWants = true) ∧
    (grant cpuWants s = .cpu ↔ cpuWants = true ∧
      ∀ d, wants s d = true → d = .blitter ∧ s.dmacon.getLsbD 10 = false) ∧
    (grant cpuWants s = .idle ↔ cpuWants = false ∧ ∀ d, wants s d = false) ∧
    (∀ c : Channel, s.enabled c = false → wants s c = false) ∧
    (s.dmacon.getLsbD 9 = false → ∀ c : Channel, s.enabled c = false) ∧
    (wants s .copper = true ↔ s.dmacon.getLsbD 9 = true ∧ s.dmacon.getLsbD 7 = true ∧ s.raster.cycle % 2 = 0 ∧
      (s.copper.mode = .running ∨ (s.copper.mode = .waiting ∧
        s.satisfied s.copper.waitValue s.copper.waitMask s.copper.waitBfd = true))) ∧
    (wants s .blitter = true ↔
      s.dmacon.getLsbD 9 = true ∧ s.dmacon.getLsbD 6 = true ∧ s.blitter.busy = true) ∧
    (let start := max (s.planes.ddfstrt.toNat % 256 / 4 * 4) 0x18
     let stop := min (s.planes.ddfstop.toNat % 256 / 4 * 4) 0xD8
     let u := if s.planes.lineHires then 4 else 8
     let units := if start ≤ stop then ((stop - start) / 8 + 1) * (8 / u) else 0
     wants s .bitplane = true ↔
      s.dmacon.getLsbD 9 = true ∧ s.dmacon.getLsbD 8 = true ∧ s.planes.fetchingLine = true ∧
      start ≤ s.raster.cycle ∧ s.raster.cycle < min (start + units * u) s.cfg.lineLength ∧
      ∃ i ∈ s.planes.order, i.val < s.planes.linePlanes ∧ s.planes.unitFetched[i] = false) ∧
    (∀ n : Fin 8, wants s (.sprite n) = true ↔
      s.dmacon.getLsbD 9 = true ∧ s.dmacon.getLsbD 5 = true ∧ s.cfg.spriteFetchCycle[n] ≤ s.raster.cycle ∧
      s.sprites[n].fetch ∈ ([.fetchStart, .fetchStopAndControl, .fetchData1, .fetchData0] : List SpriteFetch) ∧
      s.sprites[n].fetched < 2) ∧
    (wants s .disk = true ↔
      s.dmacon.getLsbD 9 = true ∧ s.dmacon.getLsbD 4 = true ∧ s.disk.active = true ∧
      ((s.disk.dir = .read ∧ s.disk.bufFull = true) ∨ (s.disk.dir = .write ∧ s.disk.bufFull = false))) ∧
    (∀ n : Fin 4, wants s (.audio n) = true ↔
      s.dmacon.getLsbD 9 = true ∧ s.dmacon.getLsbD n.val = true ∧ s.audio[n].running = true ∧
      s.audio[n].request = true)

/-- 41 R247, 40 R195: a Copper slot is an even cycle with the Copper enabled and RUNNING, or WAITING and satisfied; a
Copper not granted keeps its whole state through the slot. -/
def Obligations.CopperSlots : Prop :=
  ∀ (cpuWants : Bool) (s t : State), slot cpuWants s = .next t →
    (slotGrant cpuWants s = .channel .copper ↔
      (slotStart s).dmacon.getLsbD 9 = true ∧ (slotStart s).dmacon.getLsbD 7 = true ∧
      (slotStart s).raster.cycle % 2 = 0 ∧
      ((slotStart s).copper.mode = .running ∨
        ((slotStart s).copper.mode = .waiting ∧
          (slotStart s).satisfied (slotStart s).copper.waitValue (slotStart s).copper.waitMask
            (slotStart s).copper.waitBfd = true))) ∧
    (slotGrant cpuWants s ≠ .channel .copper → t.copper = (slotStart s).copper)

/-- 41 R250, R251: a COPJMPx strobe, by the Copper or the CPU, changes nothing but the pending jump; at the start of
the next slot the jump loads the location as it then stands and makes the Copper RUNNING, enabled or not. -/
def Obligations.JumpNextSlot : Prop :=
  (∀ (ign : BitVec 7) (v : Word) (s : State),
    exec (.move ign 0x088 v) s = .next { s with copper := { s.copper with pendingJump := .one } } ∧
    exec (.move ign 0x08A v) s = .next { s with copper := { s.copper with pendingJump := .two } } ∧
    writeOffset .cpu 0x088 v s = .next { s with copper := { s.copper with pendingJump := .one } } ∧
    writeOffset .cpu 0x08A v s = .next { s with copper := { s.copper with pendingJump := .two } }) ∧
  (∀ s : State, (s.cfg.copperVblankReload = false ∨ ¬ (s.raster.cycle = 0 ∧ s.raster.line = 0)) →
    (slotStart s).copper =
      match s.copper.pendingJump with
      | .none => s.copper
      | .one => { s.copper with pc := s.copper.loc1, mode := .running, pendingJump := .none }
      | .two => { s.copper with pc := s.copper.loc2, mode := .running, pendingJump := .none }) ∧
  (∀ s : State, s.cfg.copperVblankReload = true → s.raster.cycle = 0 → s.raster.line = 0 →
    (slotStart s).copper = { s.copper with pc := s.copper.loc1, mode := .running, pendingJump := .none })

/-- 40 R206, 60 R499: a slot never faults; it is refused exactly when the Copper runs a permitted MOVE to BLTSIZE
with line mode set. -/
def Obligations.SlotsNeverFault : Prop :=
  ∀ (cpuWants : Bool) (s : State),
    (∃ t, slot cpuWants s = .next t) ∨
    (slot cpuWants s = .refused .blitterLineMode ∧ slotGrant cpuWants s = .channel .copper ∧
      (∃ ign v, copperInstr (slotStart s) = .move ign 0x058 v) ∧
      (slotStart s).copper.copcon.getLsbD 1 = true ∧ (slotStart s).blitter.con1.getLsbD 0 = true)

/-- 40 R194, 20 R128, R122, R123: in a slot chip RAM changes only by the word the granted Blitter or disk channel
stores, at its own reduced pointer; every other byte reads as before. -/
def Obligations.OnlyGrantedChannelStores : Prop :=
  ∀ (cpuWants : Bool) (s t : State), Memory.wf s.mem = true → slot cpuWants s = .next t →
    (slotGrant cpuWants s ≠ .channel .blitter → slotGrant cpuWants s ≠ .channel .disk → t.mem = s.mem) ∧
    (slotGrant cpuWants s = .channel .blitter →
      ((slotStart s).blitter.step ≠ .d → t.mem = s.mem) ∧
      (∀ a, a ≠ reduceAddr s.cfg s.blitter.dpt.toNat → a ≠ reduceAddr s.cfg s.blitter.dpt.toNat + 1 →
        t.byteAt a = s.byteAt a)) ∧
    (slotGrant cpuWants s = .channel .disk →
      (s.disk.dir = .write → t.mem = s.mem) ∧
      (s.disk.dir = .read → Memory.readWord t.mem (reduceAddr s.cfg s.disk.ptr.toNat) = s.disk.buf) ∧
      (∀ a, a ≠ reduceAddr s.cfg s.disk.ptr.toNat → a ≠ reduceAddr s.cfg s.disk.ptr.toNat + 1 →
        t.byteAt a = s.byteAt a))

/-- 20 R122, R123: a word stored through a pointer lies big-endian at the reduced address, which is even and
installed; every other byte stays, and the word reads back. Where one byte is installed the second byte of the word
stands all the same (assumption 12). -/
def Obligations.BigEndianWords : Prop :=
  ∀ (s : State) (p : Ptr) (v : Word), s.cfg.valid = true → Memory.wf s.mem = true →
    reduceAddr s.cfg p.toNat = p.toNat % 2 ^ s.cfg.chipAddrBits % s.cfg.chipRamBytes / 2 * 2 ∧
    reduceAddr s.cfg p.toNat < s.cfg.chipRamBytes ∧
    (s.cfg.chipRamBytes ≠ 1 → reduceAddr s.cfg p.toNat + 1 < s.cfg.chipRamBytes) ∧
    (s.memWrite p v).byteAt (reduceAddr s.cfg p.toNat) = v.extractLsb' 8 8 ∧
    (s.memWrite p v).byteAt (reduceAddr s.cfg p.toNat + 1) = v.extractLsb' 0 8 ∧
    (∀ a, a ≠ reduceAddr s.cfg p.toNat → a ≠ reduceAddr s.cfg p.toNat + 1 →
      (s.memWrite p v).byteAt a = s.byteAt a) ∧
    (s.memWrite p v).memRead p = v ∧
    s.memRead p = s.byteAt (reduceAddr s.cfg p.toNat) ++ s.byteAt (reduceAddr s.cfg p.toNat + 1)

/-- 40 R192, R193: `n` slots advance the position by exactly `n`, across every line and frame boundary. -/
def Obligations.AccountingLaw : Prop :=
  ∀ (n : Nat) (s t : State), RasterOk s → slots n s = .next t →
    slotIndex s.cfg t.raster = slotIndex s.cfg s.raster + n ∧
    t.raster.line < s.cfg.fieldHeight ∧ t.raster.cycle < s.cfg.lineLength

/-- 40 R181, R185, R193: `advance(n)` from a machine with nothing else pending performs exactly `n` slots and returns
their count, twice as many ticks and the level after the last. -/
def Obligations.AdvanceReturnsItsSlots : Prop :=
  ∀ (n : Nat) (s t : State), s.inputs = [] → s.run = none → s.calls = [.advance n] →
    Host.Core.run Sys2Proof.core (n + 1) s = .next t →
    ∃ u r, slots n { s with calls := [] } = .next u ∧ t = { u with responses := .run r :: s.responses } ∧
      u.run = none ∧ u.calls = [] ∧ u.inputs = [] ∧
      r.elapsedSlots = n ∧ r.elapsedTicks = 2 * n ∧ r.level = t.irq.level

/-- 40 R183: `run_for(d)` keeps the odd tick and runs the whole slots. -/
def Obligations.RunForKeepsOddTick : Prop :=
  ∀ (d : Nat) (s : State), s.inputs = [] → s.run = none → s.calls = [.runFor d] →
    ∃ t, step s = .next t ∧ t.calls = [] ∧
      t.raster = { s.raster with residualTicks := (s.raster.residualTicks + d) % 2 } ∧
      ((s.raster.residualTicks + d) / 2 = 0 → t.run = none ∧
        t.responses = .run ⟨0, 0, s.irq.level, false, 0, 0⟩ :: s.responses) ∧
      ((s.raster.residualTicks + d) / 2 ≠ 0 →
        t.run = some ⟨.runFull, (s.raster.residualTicks + d) / 2, 0, false, 0, 0⟩ ∧ t.responses = s.responses)

/-- 40 R184 to R186: each step of `advance_until_cpu_slot` with no input due is one slot in which the CPU asks; the
operation ends with the slot the CPU gets, and answers the slots performed, that one among them. -/
def Obligations.CpuSlotEndsRun : Prop :=
  ∀ (s t : State) (r : Run), (∀ i rest, s.inputs ≠ (0, i) :: rest) → s.run = some r → r.mode = .stopOnCpuSlot →
    step s = .next t →
    (∃ u, slot true (tickInputs s) = .next u ∧ t = { u with run := t.run, responses := t.responses }) ∧
    (slotGrant true s = .cpu →
      t.run = none ∧ ∃ res, t.responses = .run res :: s.responses ∧ res.elapsedSlots = r.elapsedSlots + 1 ∧
        res.elapsedTicks = 2 * (r.elapsedSlots + 1) ∧ res.level = t.irq.level ∧
        (res.levelChanged = true ↔ r.levelChanged = true ∨ t.irq.level ≠ s.irq.level) ∧
        res.linesStarted = r.linesStarted + (if s.raster.cycle = 0 then 1 else 0) ∧
        res.framesStarted = r.framesStarted + (if s.raster.cycle = 0 ∧ s.raster.line = 0 then 1 else 0)) ∧
    (slotGrant true s ≠ .cpu →
      t.responses = s.responses ∧ ∃ r', t.run = some r' ∧ r'.mode = .stopOnCpuSlot ∧
        r'.elapsedSlots = r.elapsedSlots + 1 ∧
        (r'.levelChanged = true ↔ r.levelChanged = true ∨ t.irq.level ≠ s.irq.level) ∧
        r'.linesStarted = r.linesStarted + (if s.raster.cycle = 0 then 1 else 0) ∧
        r'.framesStarted = r.framesStarted + (if s.raster.cycle = 0 ∧ s.raster.line = 0 then 1 else 0))

/-! ## Interrupts -/

/-- 60 R491 with the table of 10 R42: the level is 0 with INTEN clear, otherwise the largest level of an enabled
pending request (0 with none); and every step recomputes it at once, so it is always the one the masks give. -/
def Obligations.InterruptLevel : Prop :=
  (∀ enable request : Word,
    (enable.getLsbD 14 = false → computeLevel enable request = 0) ∧
    (enable.getLsbD 14 = true →
      (∀ i < 14, enable.getLsbD i = true → request.getLsbD i = true →
        ([1, 1, 1, 2, 3, 3, 3, 4, 4, 4, 4, 5, 5, 6] : List Nat).getD i 0 ≤ computeLevel enable request) ∧
      (computeLevel enable request = 0 ∨
        ∃ i < 14, enable.getLsbD i = true ∧ request.getLsbD i = true ∧
          computeLevel enable request = ([1, 1, 1, 2, 3, 3, 3, 4, 4, 4, 4, 5, 5, 6] : List Nat).getD i 0))) ∧
  (∀ s t : State, s.irq.level = computeLevel s.irq.enable s.irq.request → step s = .next t →
    t.irq.level = computeLevel t.irq.enable t.irq.request)

/-- 60 R492, R494: in a slot only a Copper MOVE to INTREQ with SET/CLR clear takes a request away, and only the bits
it names. -/
def Obligations.OnlyIntreqWritesClearRequests : Prop :=
  ∀ (cpuWants : Bool) (s t : State) (i : Nat), slot cpuWants s = .next t →
    s.irq.request.getLsbD i = true → t.irq.request.getLsbD i = false →
    slotGrant cpuWants s = .channel .copper ∧
    ∃ ign v, copperInstr (slotStart s) = .move ign 0x09C v ∧ v.getLsbD 15 = false ∧ v.getLsbD i = true

/-- 60 R496, 45 R414: step 2 of a slot sets the request of every input that is high and recomputes the level with it,
leaves the inputs as they are (they are level-sensitive) and the enable mask; DSKSYN's marks a match for an active
transfer. 40 R190, R192: the start of a slot does exactly this to the requests and the disk, and besides requests VERTB
in the slot at (0, 0) of every frame; otherwise it changes the Copper (JumpNextSlot), the bitplanes and the sprites
(LineStartEvents) alone. -/
def Obligations.InputsRaiseRequests : Prop :=
  ∀ s : State,
    (∀ i, (samplePeripherals s).irq.request.getLsbD i =
      (s.irq.request.getLsbD i || (decide (i = 0) && s.irq.tbe) || (decide (i = 3) && s.irq.ports) ||
        (decide (i = 11) && s.irq.rbf) || (decide (i = 12) && s.irq.dsksyn) || (decide (i = 13) && s.irq.exter))) ∧
    (samplePeripherals s).disk =
      { s.disk with syncSeen := s.disk.syncSeen || (s.irq.dsksyn && s.disk.active) } ∧
    samplePeripherals s = { s with irq := (samplePeripherals s).irq, disk := (samplePeripherals s).disk } ∧
    (samplePeripherals s).irq = { s.irq with
      request := (samplePeripherals s).irq.request
      level :=
        if s.irq.tbe ∨ s.irq.ports ∨ s.irq.rbf ∨ s.irq.dsksyn ∨ s.irq.exter then
          computeLevel s.irq.enable (samplePeripherals s).irq.request
        else s.irq.level } ∧
    slotStart s = { s with
      copper := (slotStart s).copper, planes := (slotStart s).planes, sprites := (slotStart s).sprites
      irq := (slotStart s).irq, disk := (slotStart s).disk } ∧
    (slotStart s).disk = { s.disk with syncSeen := s.disk.syncSeen || (s.irq.dsksyn && s.disk.active) } ∧
    (∀ i, (slotStart s).irq.request.getLsbD i =
      (s.irq.request.getLsbD i || (decide (i = 0) && s.irq.tbe) || (decide (i = 3) && s.irq.ports) ||
        (decide (i = 5) && decide (s.raster.cycle = 0 ∧ s.raster.line = 0)) ||
        (decide (i = 11) && s.irq.rbf) || (decide (i = 12) && s.irq.dsksyn) || (decide (i = 13) && s.irq.exter))) ∧
    (slotStart s).irq = { s.irq with
      request := (slotStart s).irq.request
      level :=
        if s.irq.tbe ∨ s.irq.ports ∨ s.irq.rbf ∨ s.irq.dsksyn ∨ s.irq.exter ∨
            (s.raster.cycle = 0 ∧ s.raster.line = 0) then
          computeLevel s.irq.enable (slotStart s).irq.request
        else s.irq.level }

/-! ## The Blitter -/

/-- 42 R285 to R288: the shift takes its bits from the current word and, past its end, from the previous one; the logic
function bit by bit, and its named tables; the fill's output bits and carry out from the carry in and the parity of the
bits below. -/
def Obligations.BlitterDataPath : Prop :=
  (∀ (n : Nat) (old cur : Word) (i : Nat), n < 16 → i < 16 →
    (blitShift false n old cur).getLsbD i =
      (if i + n < 16 then cur.getLsbD (i + n) else old.getLsbD (i + n - 16)) ∧
    (blitShift true n old cur).getLsbD i =
      (if n ≤ i then cur.getLsbD (i - n) else old.getLsbD (16 + i - n))) ∧
  (∀ (lf : BitVec 8) (a b c : Word),
    (∀ i < 16, (minterm lf a b c).getLsbD i =
      lf.getLsbD (4 * (a.getLsbD i).toNat + 2 * (b.getLsbD i).toNat + (c.getLsbD i).toNat)) ∧
    minterm 0xF0 a b c = a ∧ minterm 0xCC a b c = b ∧ minterm 0xAA a b c = c ∧ minterm 0x00 a b c = 0 ∧
    minterm 0xFF a b c = 0xFFFF ∧ minterm 0xCA a b c = ((a &&& b) ||| (~~~a &&& c))) ∧
  (∀ (carry : Bool) (d : Word),
    (∀ i < 16, (fillWord true carry d).2.getLsbD i =
      (carry ^^ ((List.range (i + 1)).map d.getLsbD).foldl (· ^^ ·) false)) ∧
    (∀ i < 16, (fillWord false carry d).2.getLsbD i =
      ((carry ^^ ((List.range i).map d.getLsbD).foldl (· ^^ ·) false) || d.getLsbD i)) ∧
    (∀ exclusive, (fillWord exclusive carry d).1 =
      (carry ^^ ((List.range 16).map d.getLsbD).foldl (· ^^ ·) false)))

/-- 42 R299: the 1 x 1 copy: two Blitter slots store the source word, raise BLIT, and leave `blit_zero` exactly when
the word is 0; both pointers have moved past their word and on by their modulo. -/
def Obligations.BlitterCopiesOneWord : Prop :=
  ∀ s : State, Memory.wf s.mem = true → s.blitter.con0 = 0x09F0 → s.blitter.con1 = 0 → s.blitter.afwm = 0xFFFF →
    s.blitter.alwm = 0xFFFF →
    ∃ armed, writeOffset .cpu 0x058 0x0041 s = .next armed ∧
      (blitterStep armed).blitter.busy = true ∧
      (blitterStep (blitterStep armed)).memRead s.blitter.dpt = s.memRead s.blitter.apt ∧
      (∀ a, a ≠ reduceAddr s.cfg s.blitter.dpt.toNat → a ≠ reduceAddr s.cfg s.blitter.dpt.toNat + 1 →
        (blitterStep (blitterStep armed)).byteAt a = s.byteAt a) ∧
      (blitterStep (blitterStep armed)).blitter.zero = (s.memRead s.blitter.apt == 0) ∧
      (blitterStep (blitterStep armed)).blitter.busy = false ∧
      (blitterStep (blitterStep armed)).blitter.apt =
        ptrAdd s.cfg (ptrAdd s.cfg s.blitter.apt 2) (modulo s.blitter.amod) ∧
      (blitterStep (blitterStep armed)).blitter.dpt =
        ptrAdd s.cfg (ptrAdd s.cfg s.blitter.dpt 2) (modulo s.blitter.dmod) ∧
      (blitterStep (blitterStep armed)).irq.request.getLsbD 6 = true

/-- 42 R284, R289, R291: an armed blit is busy for exactly width x height x max(1, channels) granted slots. -/
def Obligations.BlitTakesExactSlots : Prop :=
  ∀ (v : Word) (s armed : State), writeOffset .cpu 0x058 v s = .next armed →
    (∀ k < armed.blitter.width * armed.blitter.height * wordSlots s.blitter.con0,
      (blitSlots k armed).blitter.busy = true) ∧
    (blitSlots (armed.blitter.width * armed.blitter.height * wordSlots s.blitter.con0) armed).blitter.busy = false ∧
    (blitSlots (armed.blitter.width * armed.blitter.height * wordSlots s.blitter.con0) armed).irq.request.getLsbD 6
      = true

/-- 42 R283 to R285, R287 to R289, R292, R293: one Blitter slot. A source step reads its word into its data register and
moves its pointer; the last step of the sequence masks, shifts, combines and fills the word, step D stores it, and the
end of the word, of the line (modulos, fill carry) and of the blit (BLIT) follow. Nothing else changes: the control
registers, their latched copies, masks, modulos and sizes stay, and every byte outside the stored word. `lines - 1` is
natural subtraction: a busy Blitter has lines left (UnitsStayInBounds, assumption 21). -/
def Obligations.BlitterStepFrame : Prop :=
  ∀ s : State,
    let b := s.blitter
    let t := blitterStep s
    let onA := b.latch0.getLsbD 11
    let onB := b.latch0.getLsbD 10
    let onC := b.latch0.getLsbD 9
    let onD := b.latch0.getLsbD 8
    let descending := b.latch1.getLsbD 1
    let last : Bool := b.step ==
      (if onD then BlitStep.d else if onC then .c else if onB then .b else if onA then .a else .idleCycle)
    let lineEnd : Bool := last && b.wordX + 1 == b.width
    let blitEnd : Bool := lineEnd && b.linesLeft - 1 == 0
    let adat := if b.step = .a then s.memRead b.apt else b.adat
    let bdat := if b.step = .b then s.memRead b.bpt else b.bdat
    let cdat := if b.step = .c then s.memRead b.cpt else b.cdat
    let masked := adat &&&
      ((if b.wordX = 0 then b.afwm else 0xFFFF) &&& (if b.wordX + 1 = b.width then b.alwm else 0xFFFF))
    let logic := minterm (b.latch0.extractLsb' 0 8)
      (blitShift descending (b.latch0.toNat / 4096) b.aOld masked)
      (blitShift descending (b.latch1.toNat / 4096) b.bOld bdat) cdat
    let fills : Bool := b.latch1.getLsbD 4 || b.latch1.getLsbD 3
    let filled := fillWord (b.latch1.getLsbD 4) b.fillCarry logic
    let d := if fills then filled.2 else logic
    let moved := fun (p : Ptr) (m : Word) (now on : Bool) =>
      let q := if now then ptrAdd s.cfg p (if descending then -2 else 2) else p
      if lineEnd && on then ptrAdd s.cfg q (if descending then -(modulo m) else modulo m) else q
    t = { s with mem := t.mem, blitter := t.blitter, irq := t.irq } ∧
    t.irq = (if blitEnd then { s.irq with
        request := s.irq.request ||| 0x0040, level := computeLevel s.irq.enable (s.irq.request ||| 0x0040) }
      else s.irq) ∧
    t.mem = (if last && b.step == .d then (s.memWrite b.dpt d).mem else s.mem) ∧
    (Memory.wf s.mem = true → ∀ a, a ≠ reduceAddr s.cfg b.dpt.toNat → a ≠ reduceAddr s.cfg b.dpt.toNat + 1 →
      t.byteAt a = s.byteAt a) ∧
    t.blitter = { b with
      adat := adat, bdat := bdat, cdat := cdat
      apt := moved b.apt b.amod (b.step == .a) onA
      bpt := moved b.bpt b.bmod (b.step == .b) onB
      cpt := moved b.cpt b.cmod (b.step == .c) onC
      dpt := moved b.dpt b.dmod (last && b.step == .d) onD
      aOld := if last then masked else b.aOld
      bOld := if last then bdat else b.bOld
      zero := b.zero && (!last || d == 0)
      fillCarry := if lineEnd then b.latch1.getLsbD 2 else if last && fills then filled.1 else b.fillCarry
      wordX := if lineEnd then 0 else if last then b.wordX + 1 else b.wordX
      linesLeft := if lineEnd then b.linesLeft - 1 else b.linesLeft
      busy := b.busy && !blitEnd
      step := t.blitter.step } ∧
    (last = true → t.blitter.step =
      if onA then .a else if onB then .b else if onC then .c else if onD then .d else .idleCycle) ∧
    (last = false →
      (b.step = .a → onA = true → t.blitter.step = if onB then .b else if onC then .c else .d) ∧
      (b.step = .b → onB = true → t.blitter.step = if onC then .c else .d) ∧
      (b.step = .c → onC = true → t.blitter.step = .d))

/-! ## Bitplanes -/

/-- 43 R334: a bitplane slot fetches the first unfetched displayed plane of the order, plane 1 last, and changes
nothing else. -/
def Obligations.BitplaneFetchResult : Prop :=
  ∀ (s : State) (i : Fin 6), s.planes.nextPlane = some i →
    bitplaneFetch s = { s with planes := { s.planes with
      next := s.planes.next.set i (s.memRead s.planes.ptr[i])
      ptr := s.planes.ptr.set i (ptrAdd s.cfg s.planes.ptr[i] 2)
      unitFetched := s.planes.unitFetched.set i true } } ∧
    i.val < s.planes.linePlanes ∧ s.planes.unitFetched[i] = false ∧
    (∃ before after, s.planes.order = before ++ i :: after ∧
      ∀ j ∈ before, ¬ (j.val < s.planes.linePlanes ∧ s.planes.unitFetched[j] = false)) ∧
    s.planes.order = (if s.planes.lineHires then [3, 1, 2, 0] else [3, 5, 1, 2, 4, 0]) ∧
    (i = 0 → ∀ j : Fin 6, j ≠ 0 → j ∈ s.planes.order → j.val < s.planes.linePlanes → s.planes.unitFetched[j] = true)

/-- 43 R335, R332 and 10 R57, R49: in the last slot of a fetch unit inside the fetch window of an enabled fetch line the
fetched set is posted and the shifter loaded, and after the last unit the modulos are added; in every other slot
nothing changes. -/
def Obligations.BitplaneUnitTick : Prop :=
  ∀ s : State,
    let start := max (s.planes.ddfstrt.toNat % 256 / 4 * 4) 0x18
    let stop := min (s.planes.ddfstop.toNat % 256 / 4 * 4) 0xD8
    let u := if s.planes.lineHires then 4 else 8
    let units := if start ≤ stop then ((stop - start) / 8 + 1) * (8 / u) else 0
    let cyc := s.raster.cycle
    let ends := s.dmacon.getLsbD 9 = true ∧ s.dmacon.getLsbD 8 = true ∧ s.planes.fetchingLine = true ∧
      start ≤ cyc ∧ cyc < min (start + units * u) s.cfg.lineLength ∧ (cyc - start) % u = u - 1
    (¬ ends → bitplaneUnitTick s = s) ∧
    (ends →
      bitplaneUnitTick s = { s with planes := { s.planes with
        previous := s.planes.posted, posted := s.planes.next, hasNext := true, unitFetched := .replicate 6 false
        shifter := (bitplaneUnitTick s).planes.shifter, ptr := (bitplaneUnitTick s).planes.ptr } } ∧
      (∀ i : Fin 6, (bitplaneUnitTick s).planes.shifter[i] =
        ((s.planes.posted[i] ++ s.planes.next[i] : BitVec 32) >>>
          (if i.val % 2 = 0 then s.planes.con1.toNat % 16 else s.planes.con1.toNat / 16 % 16)).extractLsb' 0 16) ∧
      ∀ i : Fin 6, (bitplaneUnitTick s).planes.ptr[i] =
        if (cyc - start) / u + 1 = units ∧ i.val < s.planes.linePlanes then
          ptrAdd s.cfg s.planes.ptr[i] (modulo (if i.val % 2 = 0 then s.planes.mod1 else s.planes.mod2))
        else s.planes.ptr[i])

/-- 43 R336 (with the posting of R335): after a post the 16 pixels of a plane are the last `d` pixels of the previous
word, then the first `16 - d` of the new one, `d` the delay of its parity; pixel `j` takes bit `15 - j` of each
displayed plane; a shift moves 2 pixels, or 4 in high resolution. -/
def Obligations.BitplaneShifter : Prop :=
  ∀ (p : Planes) (i : Fin 6) (j : Nat), j < 16 →
    (p.post.shifter[i].getLsbD (15 - j) =
      (let d := if i.val % 2 = 0 then p.con1.toNat % 16 else p.con1.toNat / 16 % 16
       if j < d then p.posted[i].getLsbD (d - 1 - j) else p.next[i].getLsbD (15 - (j - d)))) ∧
    (p.pixelIndex j).getLsbD i = (decide (i.val < p.linePlanes) && p.shifter[i].getLsbD (15 - j)) ∧
    p.shift.shifter[i].getLsbD (15 - j) =
      (let k := if p.lineHires then 4 else 2
       decide (j + k < 16) && p.shifter[i].getLsbD (15 - (j + k))) ∧
    p.post.previous = p.posted ∧ p.post.posted = p.next ∧ p.post.hasNext = true ∧ p.post.next = p.next ∧
    p.post.unitFetched[i] = false

/-- 40 R191, 43 R331, R337, 44 R372, R376, R377: at cycle 0 of a line the geometry is latched, the posted sets and the
shifter are cleared (`next` keeps its words), and every sprite is set up, with the frame restart on
SPRITE_DMA_START_LINE; at other cycles none of it happens. -/
def Obligations.LineStartEvents : Prop :=
  (∀ s : State, s.raster.cycle = 0 →
    (slotStart s).planes = { s.planes with
      lineHires := s.planes.con0.getLsbD 15
      linePlanes :=
        if s.planes.con0.getLsbD 15 then min (min (s.planes.con0.toNat / 4096 % 8) 6) 4
        else min (s.planes.con0.toNat / 4096 % 8) 6
      fetchingLine := decide (s.planes.diwstrt.toNat / 256 ≤ s.raster.line ∧
        s.raster.line < s.planes.diwstop.toNat / 256 + (if s.planes.diwstop.getLsbD 15 then 0 else 256))
      unitFetched := .replicate 6 false
      previous := .replicate 6 0
      posted := .replicate 6 0
      hasNext := false
      shifter := .replicate 6 0 } ∧
    ∀ n : Fin 8, (slotStart s).sprites[n] = { s.sprites[n] with
      fetched := 0
      fetch :=
        if s.raster.line = s.cfg.spriteDmaStartLine then .fetchStart
        else if s.sprites[n].fetch = .waitingForStart then
          (if s.sprites[n].vStart.toNat ≤ s.raster.line ∧ s.raster.line < s.sprites[n].vStop.toNat
           then .fetchData1 else .waitingForStart)
        else if s.sprites[n].fetch = .fetchData1 then
          (if s.sprites[n].vStart.toNat ≤ s.raster.line ∧ s.raster.line < s.sprites[n].vStop.toNat
           then .fetchData1 else .fetchStart)
        else s.sprites[n].fetch }) ∧
  (∀ s : State, s.raster.cycle ≠ 0 → (slotStart s).planes = s.planes ∧ (slotStart s).sprites = s.sprites)

/-! ## Sprites -/

/-- 44 R375, R378, R379: what a sprite's fetched word does in each state, and that the slot changes nothing but the
sprite. -/
def Obligations.SpriteFetchResult : Prop :=
  ∀ (n : Fin 8) (s : State),
    let p := s.sprites[n]
    let w := s.memRead p.ptr
    let q : Sprite := { p with ptr := ptrAdd s.cfg p.ptr 2, fetched := p.fetched + 1 }
    (p.fetch = .fetchStart → spriteFetch n s = { s with sprites := s.sprites.set n { q with
      vStart := p.vStart.extractLsb' 8 1 ++ w.extractLsb' 8 8
      hStart := w.extractLsb' 0 8 ++ p.hStart.extractLsb' 0 1
      fetch := .fetchStopAndControl } }) ∧
    (p.fetch = .fetchStopAndControl → spriteFetch n s = { s with sprites := s.sprites.set n { q with
      vStop := w.extractLsb' 1 1 ++ w.extractLsb' 8 8
      attached := w.getLsbD 7
      vStart := w.extractLsb' 2 1 ++ p.vStart.extractLsb' 0 8
      hStart := p.hStart.extractLsb' 1 8 ++ w.extractLsb' 0 1
      active := false
      fetch := if w = 0 then .stopped else .waitingForStart } }) ∧
    (p.fetch = .fetchData1 → spriteFetch n s = { s with sprites := s.sprites.set n { q with
      dataA := w, active := true, fetch := .fetchData0 } }) ∧
    (p.fetch = .fetchData0 → spriteFetch n s = { s with sprites := s.sprites.set n { q with
      dataB := w, fetch := .fetchData1 } })

/-- 46 R452, 44 R384, R385, 43 R336: every slot's output step loads each armed sprite whose start lies in the slot,
then moves both shifters on, whatever the class; a Pixels slot gives four sink units, a low-res pixel each two of
them, from the bitplane pixel, the sprite pair pixels after the loading and the window at that pixel, the running HAM
colour passing from one to the next; outside the Pixels class there are none and the running HAM colour becomes the
background; the class and the units are accumulated (FourUnitsPerSlot), and nothing but the shifters, the output
assembler and the sink's record changes. -/
def Obligations.OutputSlotShifts : Prop :=
  ∀ s : State,
    outputSlot s = { s with
      planes := { s.planes with shifter := (outputSlot s).planes.shifter }
      sprites := (outputSlot s).sprites
      output := (outputSlot s).output
      video := (outputSlot s).video } ∧
    (∀ i : Fin 6, (outputSlot s).planes.shifter[i] =
      s.planes.shifter[i] <<< (if s.planes.lineHires then 4 else 2)) ∧
    (∀ n : Fin 8,
      let p := s.sprites[n]
      let x0 := 2 * s.raster.cycle + 1
      let load := fun (w : Word) (old : BitVec 32) =>
        if p.active = true ∧ p.hStart.toNat = x0 then w ++ 0#16
        else if p.active = true ∧ p.hStart.toNat = x0 + 1 then (w ++ 0#16) >>> 1
        else old
      (outputSlot s).sprites[n] =
        { p with shiftL := load p.dataA p.shiftL <<< 2, shiftM := load p.dataB p.shiftM <<< 2 } ∧
      (activateSprites s).sprites[n] =
        { p with shiftL := load p.dataA p.shiftL, shiftM := load p.dataB p.shiftM }) ∧
    (∀ (sprites : Vector Sprite 8) (k : Fin 4) (j : Nat) (i : Nat), i < 4 →
      (pairNibble sprites k j).getLsbD i =
        (([sprites[2 * k.val].shiftL, sprites[2 * k.val].shiftM, sprites[2 * k.val + 1].shiftL,
          sprites[2 * k.val + 1].shiftM] : List (BitVec 32)).getD i 0).getLsbD (31 - j)) ∧
    (let cls := slotClass s s.raster.line s.raster.cycle
     let unit := fun (u : Nat) (ham : Colour) =>
       let x := 2 * s.raster.cycle + 1 + u / 2
       pixelColour s ham (s.planes.pixelIndex (if s.planes.lineHires then u else u / 2))
         (spritePixel (activateSprites s).sprites (u / 2))
         (decide (s.planes.diwstrt.toNat % 256 ≤ x ∧ x < 256 + s.planes.diwstop.toNat % 256))
     let u0 := unit 0 s.output.ham
     let u1 := unit 1 u0.1
     let u2 := unit 2 u1.1
     let u3 := unit 3 u2.1
     outputSlot s = accumulate cls (if cls = .pixels then [u0.2, u1.2, u2.2, u3.2] else []) { s with
       planes := { s.planes with shifter := (outputSlot s).planes.shifter }
       sprites := (outputSlot s).sprites
       output := { s.output with ham := if cls = .pixels then u3.1 else s.colour 0 } })

/-! ## Disk and audio -/

/-- 45 R415: one disk slot: the word moves, the pointer and the count advance, and the last word ends the transfer
with DSKBLK. -/
def Obligations.DiskStepResult : Prop :=
  ∀ s : State,
    (diskStep s).disk = { s.disk with
      buf := if s.disk.dir = .read then s.disk.buf else s.memRead s.disk.ptr
      bufFull := if s.disk.dir = .read then false else true
      ptr := ptrAdd s.cfg s.disk.ptr 2
      left := s.disk.left - 1
      active := s.disk.active && s.disk.left != 1 } ∧
    (diskStep s).mem = (if s.disk.dir = .read then (s.memWrite s.disk.ptr s.disk.buf).mem else s.mem) ∧
    (diskStep s).irq = (if s.disk.left = 1 then { s.irq with
        request := s.irq.request ||| 0x0002, level := computeLevel s.irq.enable (s.irq.request ||| 0x0002) }
      else s.irq) ∧
    diskStep s = { s with disk := (diskStep s).disk, mem := (diskStep s).mem, irq := (diskStep s).irq }

/-- 45 R422: one audio slot: the word is delivered, and at the block's end the channel reloads with its request. -/
def Obligations.AudioStepResult : Prop :=
  ∀ (n : Fin 4) (s : State),
    let a := s.audio[n]
    let w := s.memRead a.ptr
    (audioStep n s).outbox = .audioWord n w :: s.outbox ∧
    (a.left ≠ 1 → audioStep n s = { s with
      audio := s.audio.set n { a with
        ptr := ptrAdd s.cfg a.ptr 2, left := a.left - 1, dat := w, request := false }
      outbox := .audioWord n w :: s.outbox }) ∧
    (a.left = 1 → audioStep n s = { s with
      audio := s.audio.set n { a with
        ptr := a.loc, left := if a.len = 0 then 65536 else a.len.setWidth 17, dat := w, request := false }
      irq := { s.irq with
        request := s.irq.request ||| (1#16 <<< (7 + n.val))
        level := computeLevel s.irq.enable (s.irq.request ||| (1#16 <<< (7 + n.val))) }
      outbox := .audioWord n w :: s.outbox })

/-- 45 R412, R425, 40 R203: what the collaborators' acts change: the disk buffer, an audio channel's request, the
peripheral inputs; and nothing else (the record of answers is the model's own, assumption 6). -/
def Obligations.CollaboratorInputs : Prop :=
  (∀ (w : Word) (s : State),
    performInput (.diskWordIn w) s =
      (if s.disk.active = true ∧ s.disk.dir = .read ∧
          (¬ (s.cfg.wordsyncSupported = true ∧ s.adkcon.getLsbD 10 = true) ∨ s.disk.syncSeen = true)
       then { s with disk := { s.disk with buf := w, bufFull := true } } else s) ∧
    performInput .diskWordOut s =
      (if s.disk.dir = .write ∧ s.disk.bufFull = true
       then { s with
         disk := { s.disk with bufFull := false }, responses := .diskWord true s.disk.buf :: s.responses }
       else { s with responses := .diskWord false 0 :: s.responses })) ∧
  (∀ (n m : Fin 4) (s : State),
    performInput (.audioRequest n) s = { s with audio := (performInput (.audioRequest n) s).audio } ∧
    (performInput (.audioRequest n) s).audio[m] =
      if m = n then { s.audio[m] with request := true } else s.audio[m]) ∧
  (∀ (x y : Bool) (s : State),
    performInput (.setPeripheralInterrupts x y) s = { s with irq := { s.irq with ports := x, exter := y } } ∧
    performInput (.setSerialInterrupts x y) s = { s with irq := { s.irq with tbe := x, rbf := y } } ∧
    performInput (.setDiskSync x) s = { s with irq := { s.irq with dsksyn := x } })

/-! ## Output -/

/-- 46 R451 with 10 R55, R56: the class of a slot from the raster position, the parameters and the display window. -/
def Obligations.SlotClass : Prop :=
  ∀ (s : State) (line cyc : Nat),
    let vStart := s.planes.diwstrt.toNat / 256
    let vStop := s.planes.diwstop.toNat / 256 + (if s.planes.diwstop.getLsbD 15 then 0 else 256)
    let hStart := s.planes.diwstrt.toNat % 256
    let hStop := 256 + s.planes.diwstop.toNat % 256
    slotClass s line cyc =
      if (s.cfg.vsyncStartLine ≤ line ∧ line < s.cfg.vsyncEndLine) ∨
          (s.cfg.hsyncStart ≤ cyc ∧ cyc < s.cfg.hsyncEnd) then .sync
      else if s.cfg.burstStart ≤ cyc ∧ cyc < s.cfg.burstEnd then .colourBurst
      else if line < s.cfg.vblankEndLine ∨
          (if s.cfg.hblankStart ≤ s.cfg.hblankEnd then s.cfg.hblankStart ≤ cyc ∧ cyc < s.cfg.hblankEnd
           else s.cfg.hblankStart ≤ cyc ∨ cyc < s.cfg.hblankEnd) then .blank
      else if vStart ≤ line ∧ line < vStop ∧
          ((hStart ≤ 2 * cyc + 1 ∧ 2 * cyc + 1 < hStop) ∨ (hStart ≤ 2 * cyc + 2 ∧ 2 * cyc + 2 < hStop)) then .pixels
      else .border s.palette[0]

/-- 46 R455: the sprite pixel is that of the first pair with a non-transparent one: an attached pair's nibble from
colour 16 on, otherwise the even sprite's two bits before the odd's, from colour 16 + 4 pair on. R457, R456: a sprite
pair shows before the first playfield whose code (5 to 7 acting as 4) is above it, otherwise the first playfield that
is not transparent, from the front (PF2PRI); where all are transparent the sprite, else the background. A single
playfield uses PF2P. -/
def Obligations.PlayfieldPriority : Prop :=
  ∀ (s : State) (ham : Colour) (b : BitVec 6) (spr : Option SpritePixel),
    let i1 := 4 * (b.getLsbD 4).toNat + 2 * (b.getLsbD 2).toNat + (b.getLsbD 0).toNat
    let i2 := 4 * (b.getLsbD 5).toNat + 2 * (b.getLsbD 3).toNat + (b.getLsbD 1).toNat
    let c1 := min (s.planes.con2.toNat % 8) 4
    let c2 := min (s.planes.con2.toNat / 8 % 8) 4
    let colour1 := s.colour (BitVec.ofNat 5 i1)
    let colour2 := s.colour (BitVec.ofNat 5 (8 + i2))
    (s.planes.con0.getLsbD 10 = true → (pixelColour s ham b spr true).2 =
      match spr, s.planes.con2.getLsbD 6 with
      | none, false => if i1 ≠ 0 then colour1 else if i2 ≠ 0 then colour2 else s.colour 0
      | none, true => if i2 ≠ 0 then colour2 else if i1 ≠ 0 then colour1 else s.colour 0
      | some p, false =>
        if p.pair < c1 then s.colour p.index else if i1 ≠ 0 then colour1
        else if p.pair < c2 then s.colour p.index else if i2 ≠ 0 then colour2 else s.colour p.index
      | some p, true =>
        if p.pair < c2 then s.colour p.index else if i2 ≠ 0 then colour2
        else if p.pair < c1 then s.colour p.index else if i1 ≠ 0 then colour1 else s.colour p.index) ∧
    (s.planes.con0.getLsbD 10 = false → (pixelColour s ham b spr true).2 =
      match spr with
      | none => if b ≠ 0 then singleColour s ham b else s.colour 0
      | some p => if p.pair < c2 ∨ b = 0 then s.colour p.index else singleColour s ham b) ∧
    (∀ (pair : Fin 4) (attached : Bool) (nib : BitVec 4),
      (pairPixel pair attached nib = none ↔ nib = 0) ∧
      ∀ p, pairPixel pair attached nib = some p → p.pair = pair.val ∧
        p.index.toNat =
          if attached then 16 + nib.toNat
          else if nib.toNat % 4 ≠ 0 then 16 + 4 * pair.val + nib.toNat % 4
          else 16 + 4 * pair.val + nib.toNat / 4) ∧
    (∀ (sprites : Vector Sprite 8) (j : Nat),
      let pixel := fun k : Fin 4 => pairPixel k sprites[2 * k.val + 1].attached (pairNibble sprites k j)
      (spritePixel sprites j = none ↔ ∀ k, pixel k = none) ∧
      ∀ p, spritePixel sprites j = some p ↔ ∃ k, pixel k = some p ∧ ∀ k' < k, pixel k' = none)

/-- 46 R458, R459, R456, R453: the running HAM colour after a pixel (whatever sprite covers it), the colour of a single
playfield under HAM, under EHB and under neither, and the border pixel. -/
def Obligations.HamAndEhbPixels : Prop :=
  ∀ (s : State) (ham : Colour) (b : BitVec 6) (spr : Option SpritePixel),
    let d := b.extractLsb' 0 4
    let held := match b.extractLsb' 4 2 with
      | 0#2 => s.colour (d.setWidth 5)
      | 1#2 => (ham &&& 0xFF0#12) ||| d.setWidth 12
      | 2#2 => (ham &&& 0x0FF#12) ||| (d.setWidth 12 <<< 8)
      | _ => (ham &&& 0xF0F#12) ||| (d.setWidth 12 <<< 4)
    let hamOn := s.planes.con0.getLsbD 11 = true ∧ s.planes.con0.getLsbD 10 = false ∧ s.planes.linePlanes = 6
    let ehbOn := s.cfg.ehbSupported = true ∧ s.planes.con0.getLsbD 11 = false ∧ s.planes.con0.getLsbD 10 = false ∧
      s.planes.linePlanes = 6
    (hamOn → (pixelColour s ham b spr true).1 = held ∧ singleColour s ham b = held) ∧
    (¬ hamOn → (pixelColour s ham b spr true).1 = ham) ∧
    (ehbOn → singleColour s ham b =
      if b.toNat < 32 then s.colour (BitVec.ofNat 5 b.toNat)
      else (s.colour (BitVec.ofNat 5 (b.toNat - 32)) >>> 1) &&& 0x777) ∧
    (¬ hamOn → ¬ ehbOn → singleColour s ham b = s.colour (BitVec.ofNat 5 (b.toNat % 32))) ∧
    pixelColour s ham b spr false = (s.colour 0, s.colour 0)

/-- 46 R450, R462: with a sink installed, every slot adds exactly four sink units, emitted or still accumulating. R460,
R461: a slot of another class, or of another border colour, first ends the run; a Pixels slot that leaves no room for
another ends it after; the call that ends a run is its class's, with its length; without a sink it is discarded. -/
def Obligations.FourUnitsPerSlot : Prop :=
  (∀ (cpuWants : Bool) (s t : State), OutputOk s → s.sinkInstalled = true → slot cpuWants s = .next t →
    totalUnits t = totalUnits s + 4) ∧
  (∀ (cls : OutClass) (colours : List Colour) (s : State),
    let ends := 0 < s.output.len ∧ cls ≠ s.output.cls
    let video := if ends ∧ s.sinkInstalled = true then runCall s.output :: s.video else s.video
    let run : Output := { s.output with
      cls := cls
      len := if ends then 1 else s.output.len + 1
      pix := (if ends then [] else s.output.pix) ++ (if cls = .pixels then colours else []) }
    let full := cls = .pixels ∧ s.cfg.pixelBufferUnits < run.pix.length + 4
    accumulate cls colours s =
      if full then { s with
        video := if s.sinkInstalled then .outputData run.pix.length run.pix :: video else video
        output := { run with len := 0, pix := [] } }
      else { s with video := video, output := run }) ∧
  (∀ o : Output,
    (o.cls = .sync → runCall o = .outputSync (4 * o.len)) ∧
    (o.cls = .blank → runCall o = .outputBlank (4 * o.len)) ∧
    (o.cls = .colourBurst → runCall o = .outputColourBurst (4 * o.len)) ∧
    (∀ c, o.cls = .border c → runCall o = .outputLevel (4 * o.len) c) ∧
    (o.cls = .pixels → runCall o = .outputData o.pix.length o.pix))

/-! ## Reset and construction -/

/-- 70 R530, R531: the values `reset()` gives, every unspecified one its draw, whatever the state before, and no sink
call. That a pointer's draw is cut to its form is assumption 15, that the draws of the Blitter's counts are not cut to
the ranges of R60 is assumption 27, that the configuration stays is assumption 7. -/
def Obligations.ResetValues : Prop :=
  ∀ (s : State) (d : ResetDraws),
    let r := s.resetWith d
    r.raster = ⟨0, 0, 0, true, 0⟩ ∧ r.dmacon = 0 ∧ r.adkcon = 0 ∧
    r.irq = ⟨0, 0, 0, false, false, false, false, false⟩ ∧
    r.copper = { d.copper with
      mode := .stopped, pendingJump := .none, copcon := 0, pc := wrapPtr s.cfg d.copper.pc
      loc1 := wrapPtr s.cfg d.copper.loc1, loc2 := wrapPtr s.cfg d.copper.loc2 } ∧
    r.blitter = { d.blitter with
      busy := false, zero := false, con0 := 0, con1 := 0, size := 0, apt := wrapPtr s.cfg d.blitter.apt
      bpt := wrapPtr s.cfg d.blitter.bpt, cpt := wrapPtr s.cfg d.blitter.cpt, dpt := wrapPtr s.cfg d.blitter.dpt } ∧
    r.planes.con0 = 0 ∧ r.planes.con1 = 0 ∧ r.planes.con2 = 0 ∧ r.planes.diwstrt = d.planes.diwstrt ∧
    r.planes.diwstop = d.planes.diwstop ∧ r.planes.ddfstrt = d.planes.ddfstrt ∧
    r.planes.ddfstop = d.planes.ddfstop ∧ r.planes.mod1 = d.planes.mod1 ∧ r.planes.mod2 = d.planes.mod2 ∧
    (∀ i : Fin 6, r.planes.ptr[i] = wrapPtr s.cfg d.planes.ptr[i] ∧ r.planes.next[i] = 0 ∧ r.planes.posted[i] = 0 ∧
      r.planes.previous[i] = 0 ∧ r.planes.shifter[i] = 0 ∧ r.planes.unitFetched[i] = false) ∧
    r.planes.hasNext = false ∧ r.planes.fetchingLine = false ∧ r.planes.lineHires = false ∧
    r.planes.linePlanes = 0 ∧
    (∀ n : Fin 8, r.sprites[n] = { d.sprites[n] with
      ptr := wrapPtr s.cfg d.sprites[n].ptr, active := false, fetch := .stopped, fetched := 0, shiftL := 0
      shiftM := 0 }) ∧
    r.disk = { d.disk with
      ptr := wrapPtr s.cfg d.disk.ptr, armed := false, active := false, bufFull := false, syncSeen := false } ∧
    (∀ n : Fin 4, r.audio[n] = { d.audio[n] with
      loc := wrapPtr s.cfg d.audio[n].loc, ptr := wrapPtr s.cfg d.audio[n].ptr, running := false
      request := false }) ∧
    r.palette = d.palette ∧ r.refptr = d.refptr ∧ r.clxcon = d.clxcon ∧
    r.output = ⟨.blank, 0, [], 0⟩ ∧ r.cfg = s.cfg ∧ r.video = s.video

/-- 00 R14, R10: construction gives a reset state exactly for the parameters inside their constraints, and otherwise is
refused with a status. What R10 says in words of the burst is no constraint (assumption 19), and one byte of RAM is
inside (assumption 12). -/
def Obligations.ConstructChecksParameters : Prop :=
  ∀ (cfg : Config) (d : ResetDraws),
    (cfg.valid = true → State.construct cfg d = .next ((State.blank cfg).resetWith d)) ∧
    (cfg.valid = false → ∃ status, State.construct cfg d = .refused (.badConfiguration status)) ∧
    (cfg.valid = true ↔
      0x80 ≤ cfg.lineLength ∧ cfg.lineLength ≤ 0x100 ∧ 0x100 < cfg.fieldHeight ∧ cfg.fieldHeight ≤ 0x200 ∧
      0 < cfg.vblankEndLine ∧ cfg.vblankEndLine < cfg.fieldHeight ∧ cfg.vsyncStartLine < cfg.vsyncEndLine ∧
      cfg.vsyncEndLine < cfg.vblankEndLine ∧ cfg.hsyncStart < cfg.hsyncEnd ∧ cfg.hsyncEnd ≤ cfg.lineLength ∧
      cfg.hblankStart < cfg.lineLength ∧ cfg.hblankEnd < cfg.lineLength ∧ cfg.burstStart < cfg.lineLength ∧
      cfg.burstEnd < cfg.lineLength ∧ 18 ≤ cfg.chipAddrBits ∧ cfg.chipAddrBits ≤ 21 ∧
      cfg.chipRamBytes ≤ 2 ^ cfg.chipAddrBits ∧ (∃ k, cfg.chipRamBytes = 2 ^ k) ∧
      (∀ n : Fin 8, cfg.spriteFetchCycle[n] < cfg.lineLength - 1) ∧ cfg.spriteDmaStartLine < cfg.fieldHeight ∧
      4 ≤ cfg.pixelBufferUnits)

/-- 70 R532, 40 R192: the first step after a reset, for every valid configuration and every draw, is the slot at
(0, 0): VERTB alone is requested, the level is 0, no sink call is made. -/
def Obligations.FirstSlotAfterReset : Prop :=
  ∀ (cfg : Config) (d : ResetDraws) (s : State), State.construct cfg d = .next s →
    ∃ t, step s = .next t ∧ t.raster.line = 0 ∧ t.raster.cycle = 1 ∧ t.raster.frameCount = 0 ∧
      t.irq.request = 0x0020 ∧ t.irq.level = 0 ∧ t.dmacon = 0 ∧ t.dmaconr = 0 ∧ t.video = [] ∧ t.mem = [] ∧
      (cfg.copperVblankReload = false → t.copper.mode = .stopped) ∧
      (cfg.copperVblankReload = true → t.copper.mode = .running ∧ t.copper.pc = t.copper.loc1)

/-- The reset state meets the invariants, and so does every constructed state (assumption 2 names the reset values the
spec leaves open). -/
def Obligations.ConstructedStatesMeetInv : Prop :=
  Inv State.reset ∧ ∀ (cfg : Config) (d : ResetDraws) (s : State), State.construct cfg d = .next s → Inv s

/-! ## Invariants every step keeps -/

/-- 10 R32 to R34, R69: the raster position stays inside the frame, LOF 1, and at most one tick is left over. -/
def Obligations.RasterStaysInFrame : Prop :=
  ∀ s t : State, s.cfg.valid = true → RasterOk s → step s = .next t → RasterOk t ∧ t.cfg = s.cfg

/-- 20 R120, R122: chip RAM keeps its canonical form and holds installed bytes alone (with one byte installed, the two
bytes of its one word: assumption 12). -/
def Obligations.MemoryStaysInstalled : Prop :=
  ∀ s t : State, s.cfg.valid = true → MemoryOk s → step s = .next t → MemoryOk t

/-- 10 R31, R45, 20 R124: every pointer stays even and inside CHIP_ADDR_BITS. -/
def Obligations.PointersStayAligned : Prop :=
  ∀ s t : State, PointersOk s → step s = .next t → PointersOk t

/-- The units' bounds, kept by every step: 10 R40 to R43 (the bits the SET/CLR registers do not store stay 0), 42 R281,
R284, R289 (a busy Blitter stays inside its blit, at a step of its word's sequence), 43 R331 (at most six planes, four
in high resolution), 44 R374 (at most two fetches of a sprite in a line), 45 R411, R415, R422 (a transfer under way has
words left), 46 R460 (the staged pixels are those of the run and never exceed the buffer). -/
def Obligations.UnitsStayInBounds : Prop :=
  ∀ s t : State, step s = .next t →
    (RegistersOk s → RegistersOk t) ∧ (BlitterOk s → BlitterOk t) ∧ (PlanesOk s → PlanesOk t) ∧
    (SpritesOk s → SpritesOk t) ∧ (ChannelsOk s → ChannelsOk t) ∧
    (4 ≤ s.cfg.pixelBufferUnits → OutputOk s → OutputOk t)
end

