-- ==== Sys2Proof/Laws/State.lean ====
section
/-! SUPPORT. The named updates of State, field by field. -/

namespace Sys2Proof.Machine.State

variable (s : State)

/-! `memWrite` changes `mem` alone. -/

section

variable (p : Ptr) (v : Word)

@[simp] theorem memWrite_cfg : (s.memWrite p v).cfg = s.cfg := rfl
@[simp] theorem memWrite_mem : (s.memWrite p v).mem = Memory.writeWord s.mem (reduceAddr s.cfg p.toNat) v := rfl
@[simp] theorem memWrite_raster : (s.memWrite p v).raster = s.raster := rfl
@[simp] theorem memWrite_dmacon : (s.memWrite p v).dmacon = s.dmacon := rfl
@[simp] theorem memWrite_adkcon : (s.memWrite p v).adkcon = s.adkcon := rfl
@[simp] theorem memWrite_refptr : (s.memWrite p v).refptr = s.refptr := rfl
@[simp] theorem memWrite_clxcon : (s.memWrite p v).clxcon = s.clxcon := rfl
@[simp] theorem memWrite_irq : (s.memWrite p v).irq = s.irq := rfl
@[simp] theorem memWrite_copper : (s.memWrite p v).copper = s.copper := rfl
@[simp] theorem memWrite_blitter : (s.memWrite p v).blitter = s.blitter := rfl
@[simp] theorem memWrite_planes : (s.memWrite p v).planes = s.planes := rfl
@[simp] theorem memWrite_sprites : (s.memWrite p v).sprites = s.sprites := rfl
@[simp] theorem memWrite_disk : (s.memWrite p v).disk = s.disk := rfl
@[simp] theorem memWrite_audio : (s.memWrite p v).audio = s.audio := rfl
@[simp] theorem memWrite_palette : (s.memWrite p v).palette = s.palette := rfl
@[simp] theorem memWrite_output : (s.memWrite p v).output = s.output := rfl
@[simp] theorem memWrite_sinkInstalled : (s.memWrite p v).sinkInstalled = s.sinkInstalled := rfl
@[simp] theorem memWrite_video : (s.memWrite p v).video = s.video := rfl
@[simp] theorem memWrite_outbox : (s.memWrite p v).outbox = s.outbox := rfl
@[simp] theorem memWrite_responses : (s.memWrite p v).responses = s.responses := rfl
@[simp] theorem memWrite_inputs : (s.memWrite p v).inputs = s.inputs := rfl
@[simp] theorem memWrite_calls : (s.memWrite p v).calls = s.calls := rfl
@[simp] theorem memWrite_run : (s.memWrite p v).run = s.run := rfl
@[simp] theorem memWrite_drawCount : (s.memWrite p v).drawCount = s.drawCount := rfl

end

/-! `send` changes `outbox` alone. -/

section

variable (m : OutMessage)

@[simp] theorem send_cfg : (s.send m).cfg = s.cfg := rfl
@[simp] theorem send_mem : (s.send m).mem = s.mem := rfl
@[simp] theorem send_raster : (s.send m).raster = s.raster := rfl
@[simp] theorem send_dmacon : (s.send m).dmacon = s.dmacon := rfl
@[simp] theorem send_adkcon : (s.send m).adkcon = s.adkcon := rfl
@[simp] theorem send_refptr : (s.send m).refptr = s.refptr := rfl
@[simp] theorem send_clxcon : (s.send m).clxcon = s.clxcon := rfl
@[simp] theorem send_irq : (s.send m).irq = s.irq := rfl
@[simp] theorem send_copper : (s.send m).copper = s.copper := rfl
@[simp] theorem send_blitter : (s.send m).blitter = s.blitter := rfl
@[simp] theorem send_planes : (s.send m).planes = s.planes := rfl
@[simp] theorem send_sprites : (s.send m).sprites = s.sprites := rfl
@[simp] theorem send_disk : (s.send m).disk = s.disk := rfl
@[simp] theorem send_audio : (s.send m).audio = s.audio := rfl
@[simp] theorem send_palette : (s.send m).palette = s.palette := rfl
@[simp] theorem send_output : (s.send m).output = s.output := rfl
@[simp] theorem send_sinkInstalled : (s.send m).sinkInstalled = s.sinkInstalled := rfl
@[simp] theorem send_video : (s.send m).video = s.video := rfl
@[simp] theorem send_outbox : (s.send m).outbox = m :: s.outbox := rfl
@[simp] theorem send_responses : (s.send m).responses = s.responses := rfl
@[simp] theorem send_inputs : (s.send m).inputs = s.inputs := rfl
@[simp] theorem send_calls : (s.send m).calls = s.calls := rfl
@[simp] theorem send_run : (s.send m).run = s.run := rfl
@[simp] theorem send_drawCount : (s.send m).drawCount = s.drawCount := rfl

end

/-! `respond` changes `responses` alone. -/

section

variable (r : Response)

@[simp] theorem respond_cfg : (s.respond r).cfg = s.cfg := rfl
@[simp] theorem respond_mem : (s.respond r).mem = s.mem := rfl
@[simp] theorem respond_raster : (s.respond r).raster = s.raster := rfl
@[simp] theorem respond_dmacon : (s.respond r).dmacon = s.dmacon := rfl
@[simp] theorem respond_adkcon : (s.respond r).adkcon = s.adkcon := rfl
@[simp] theorem respond_refptr : (s.respond r).refptr = s.refptr := rfl
@[simp] theorem respond_clxcon : (s.respond r).clxcon = s.clxcon := rfl
@[simp] theorem respond_irq : (s.respond r).irq = s.irq := rfl
@[simp] theorem respond_copper : (s.respond r).copper = s.copper := rfl
@[simp] theorem respond_blitter : (s.respond r).blitter = s.blitter := rfl
@[simp] theorem respond_planes : (s.respond r).planes = s.planes := rfl
@[simp] theorem respond_sprites : (s.respond r).sprites = s.sprites := rfl
@[simp] theorem respond_disk : (s.respond r).disk = s.disk := rfl
@[simp] theorem respond_audio : (s.respond r).audio = s.audio := rfl
@[simp] theorem respond_palette : (s.respond r).palette = s.palette := rfl
@[simp] theorem respond_output : (s.respond r).output = s.output := rfl
@[simp] theorem respond_sinkInstalled : (s.respond r).sinkInstalled = s.sinkInstalled := rfl
@[simp] theorem respond_video : (s.respond r).video = s.video := rfl
@[simp] theorem respond_outbox : (s.respond r).outbox = s.outbox := rfl
@[simp] theorem respond_responses : (s.respond r).responses = r :: s.responses := rfl
@[simp] theorem respond_inputs : (s.respond r).inputs = s.inputs := rfl
@[simp] theorem respond_calls : (s.respond r).calls = s.calls := rfl
@[simp] theorem respond_run : (s.respond r).run = s.run := rfl
@[simp] theorem respond_drawCount : (s.respond r).drawCount = s.drawCount := rfl

end

/-! `raise` changes `irq` alone. -/

section

variable (b : IrqBit)

@[simp] theorem raise_cfg : (s.raise b).cfg = s.cfg := rfl
@[simp] theorem raise_mem : (s.raise b).mem = s.mem := rfl
@[simp] theorem raise_raster : (s.raise b).raster = s.raster := rfl
@[simp] theorem raise_dmacon : (s.raise b).dmacon = s.dmacon := rfl
@[simp] theorem raise_adkcon : (s.raise b).adkcon = s.adkcon := rfl
@[simp] theorem raise_refptr : (s.raise b).refptr = s.refptr := rfl
@[simp] theorem raise_clxcon : (s.raise b).clxcon = s.clxcon := rfl
@[simp] theorem raise_irq : (s.raise b).irq = s.irq.setRequest b := rfl
@[simp] theorem raise_copper : (s.raise b).copper = s.copper := rfl
@[simp] theorem raise_blitter : (s.raise b).blitter = s.blitter := rfl
@[simp] theorem raise_planes : (s.raise b).planes = s.planes := rfl
@[simp] theorem raise_sprites : (s.raise b).sprites = s.sprites := rfl
@[simp] theorem raise_disk : (s.raise b).disk = s.disk := rfl
@[simp] theorem raise_audio : (s.raise b).audio = s.audio := rfl
@[simp] theorem raise_palette : (s.raise b).palette = s.palette := rfl
@[simp] theorem raise_output : (s.raise b).output = s.output := rfl
@[simp] theorem raise_sinkInstalled : (s.raise b).sinkInstalled = s.sinkInstalled := rfl
@[simp] theorem raise_video : (s.raise b).video = s.video := rfl
@[simp] theorem raise_outbox : (s.raise b).outbox = s.outbox := rfl
@[simp] theorem raise_responses : (s.raise b).responses = s.responses := rfl
@[simp] theorem raise_inputs : (s.raise b).inputs = s.inputs := rfl
@[simp] theorem raise_calls : (s.raise b).calls = s.calls := rfl
@[simp] theorem raise_run : (s.raise b).run = s.run := rfl
@[simp] theorem raise_drawCount : (s.raise b).drawCount = s.drawCount := rfl

end

/-! `modSprite` changes `sprites` alone. -/

section

variable (n : Fin 8) (f : Sprite → Sprite)

@[simp] theorem modSprite_cfg : (s.modSprite n f).cfg = s.cfg := rfl
@[simp] theorem modSprite_mem : (s.modSprite n f).mem = s.mem := rfl
@[simp] theorem modSprite_raster : (s.modSprite n f).raster = s.raster := rfl
@[simp] theorem modSprite_dmacon : (s.modSprite n f).dmacon = s.dmacon := rfl
@[simp] theorem modSprite_adkcon : (s.modSprite n f).adkcon = s.adkcon := rfl
@[simp] theorem modSprite_refptr : (s.modSprite n f).refptr = s.refptr := rfl
@[simp] theorem modSprite_clxcon : (s.modSprite n f).clxcon = s.clxcon := rfl
@[simp] theorem modSprite_irq : (s.modSprite n f).irq = s.irq := rfl
@[simp] theorem modSprite_copper : (s.modSprite n f).copper = s.copper := rfl
@[simp] theorem modSprite_blitter : (s.modSprite n f).blitter = s.blitter := rfl
@[simp] theorem modSprite_planes : (s.modSprite n f).planes = s.planes := rfl
@[simp] theorem modSprite_sprites : (s.modSprite n f).sprites = s.sprites.set n (f s.sprites[n]) := rfl
@[simp] theorem modSprite_disk : (s.modSprite n f).disk = s.disk := rfl
@[simp] theorem modSprite_audio : (s.modSprite n f).audio = s.audio := rfl
@[simp] theorem modSprite_palette : (s.modSprite n f).palette = s.palette := rfl
@[simp] theorem modSprite_output : (s.modSprite n f).output = s.output := rfl
@[simp] theorem modSprite_sinkInstalled : (s.modSprite n f).sinkInstalled = s.sinkInstalled := rfl
@[simp] theorem modSprite_video : (s.modSprite n f).video = s.video := rfl
@[simp] theorem modSprite_outbox : (s.modSprite n f).outbox = s.outbox := rfl
@[simp] theorem modSprite_responses : (s.modSprite n f).responses = s.responses := rfl
@[simp] theorem modSprite_inputs : (s.modSprite n f).inputs = s.inputs := rfl
@[simp] theorem modSprite_calls : (s.modSprite n f).calls = s.calls := rfl
@[simp] theorem modSprite_run : (s.modSprite n f).run = s.run := rfl
@[simp] theorem modSprite_drawCount : (s.modSprite n f).drawCount = s.drawCount := rfl

end

/-! `modAudio` changes `audio` alone. -/

section

variable (n : Fin 4) (f : Audio → Audio)

@[simp] theorem modAudio_cfg : (s.modAudio n f).cfg = s.cfg := rfl
@[simp] theorem modAudio_mem : (s.modAudio n f).mem = s.mem := rfl
@[simp] theorem modAudio_raster : (s.modAudio n f).raster = s.raster := rfl
@[simp] theorem modAudio_dmacon : (s.modAudio n f).dmacon = s.dmacon := rfl
@[simp] theorem modAudio_adkcon : (s.modAudio n f).adkcon = s.adkcon := rfl
@[simp] theorem modAudio_refptr : (s.modAudio n f).refptr = s.refptr := rfl
@[simp] theorem modAudio_clxcon : (s.modAudio n f).clxcon = s.clxcon := rfl
@[simp] theorem modAudio_irq : (s.modAudio n f).irq = s.irq := rfl
@[simp] theorem modAudio_copper : (s.modAudio n f).copper = s.copper := rfl
@[simp] theorem modAudio_blitter : (s.modAudio n f).blitter = s.blitter := rfl
@[simp] theorem modAudio_planes : (s.modAudio n f).planes = s.planes := rfl
@[simp] theorem modAudio_sprites : (s.modAudio n f).sprites = s.sprites := rfl
@[simp] theorem modAudio_disk : (s.modAudio n f).disk = s.disk := rfl
@[simp] theorem modAudio_audio : (s.modAudio n f).audio = s.audio.set n (f s.audio[n]) := rfl
@[simp] theorem modAudio_palette : (s.modAudio n f).palette = s.palette := rfl
@[simp] theorem modAudio_output : (s.modAudio n f).output = s.output := rfl
@[simp] theorem modAudio_sinkInstalled : (s.modAudio n f).sinkInstalled = s.sinkInstalled := rfl
@[simp] theorem modAudio_video : (s.modAudio n f).video = s.video := rfl
@[simp] theorem modAudio_outbox : (s.modAudio n f).outbox = s.outbox := rfl
@[simp] theorem modAudio_responses : (s.modAudio n f).responses = s.responses := rfl
@[simp] theorem modAudio_inputs : (s.modAudio n f).inputs = s.inputs := rfl
@[simp] theorem modAudio_calls : (s.modAudio n f).calls = s.calls := rfl
@[simp] theorem modAudio_run : (s.modAudio n f).run = s.run := rfl
@[simp] theorem modAudio_drawCount : (s.modAudio n f).drawCount = s.drawCount := rfl

end

/-! A draw changes `drawCount` alone. -/

@[simp] theorem draw_cfg : s.draw.2.cfg = s.cfg := rfl
@[simp] theorem draw_mem : s.draw.2.mem = s.mem := rfl
@[simp] theorem draw_raster : s.draw.2.raster = s.raster := rfl
@[simp] theorem draw_dmacon : s.draw.2.dmacon = s.dmacon := rfl
@[simp] theorem draw_adkcon : s.draw.2.adkcon = s.adkcon := rfl
@[simp] theorem draw_refptr : s.draw.2.refptr = s.refptr := rfl
@[simp] theorem draw_clxcon : s.draw.2.clxcon = s.clxcon := rfl
@[simp] theorem draw_irq : s.draw.2.irq = s.irq := rfl
@[simp] theorem draw_copper : s.draw.2.copper = s.copper := rfl
@[simp] theorem draw_blitter : s.draw.2.blitter = s.blitter := rfl
@[simp] theorem draw_planes : s.draw.2.planes = s.planes := rfl
@[simp] theorem draw_sprites : s.draw.2.sprites = s.sprites := rfl
@[simp] theorem draw_disk : s.draw.2.disk = s.disk := rfl
@[simp] theorem draw_audio : s.draw.2.audio = s.audio := rfl
@[simp] theorem draw_palette : s.draw.2.palette = s.palette := rfl
@[simp] theorem draw_output : s.draw.2.output = s.output := rfl
@[simp] theorem draw_sinkInstalled : s.draw.2.sinkInstalled = s.sinkInstalled := rfl
@[simp] theorem draw_video : s.draw.2.video = s.video := rfl
@[simp] theorem draw_outbox : s.draw.2.outbox = s.outbox := rfl
@[simp] theorem draw_responses : s.draw.2.responses = s.responses := rfl
@[simp] theorem draw_inputs : s.draw.2.inputs = s.inputs := rfl
@[simp] theorem draw_calls : s.draw.2.calls = s.calls := rfl
@[simp] theorem draw_run : s.draw.2.run = s.run := rfl
@[simp] theorem draw_drawCount : s.draw.2.drawCount = s.drawCount + 1 := rfl

end Sys2Proof.Machine.State
end

