-- ==== Sys2Proof/Laws/Frames.lean ====
section
/-! SUPPORT. The frame of every shared operation: which fields of State it may change, said once as an equation. -/

namespace Sys2Proof.Machine

/-! ## The start of a slot -/

theorem copperApplyPendingJump_frame (s : State) :
    copperApplyPendingJump s = { s with copper := (copperApplyPendingJump s).copper } := by
  unfold copperApplyPendingJump
  split <;> rfl

/-- Raising a request changes the request mask and the level alone. -/
theorem raise_frame (s : State) (b : IrqBit) : s.raise b = { s with irq := (s.raise b).irq } := rfl

theorem raise_irq (s : State) (b : IrqBit) :
    (s.raise b).irq = { s.irq with
      request := s.irq.request ||| (1#16 <<< b.pos)
      level := computeLevel s.irq.enable (s.irq.request ||| (1#16 <<< b.pos)) } := rfl

/-- Step 2 of a slot, with its parts in closed form. -/
theorem samplePeripherals_eq (s : State) :
    samplePeripherals s =
      (let q := s.irq
       let q1 := if s.irq.tbe then q.setRequest .tbe else q
       let q2 := if s.irq.ports then q1.setRequest .ports else q1
       let q3 := if s.irq.rbf then q2.setRequest .rbf else q2
       let q4 := if s.irq.dsksyn then q3.setRequest .dsksyn else q3
       { s with
         irq := if s.irq.exter then q4.setRequest .exter else q4
         disk := { s.disk with syncSeen := s.disk.syncSeen || (s.irq.dsksyn && s.disk.active) } }) := by
  obtain ⟨cfg, mem, raster, dmacon, adkcon, refptr, clxcon, ⟨en, rq, lv, ports, exter, tbe, rbf, dsksyn⟩, copper,
    blitter, planes, sprites, ⟨dp, dl, ds, da, act, dd, dleft, seen, buf, full⟩, audio, palette, output, sink, video,
    outbox, responses, inputs, calls, run, drawCount⟩ := s
  cases tbe <;> cases ports <;> cases rbf <;> cases exter <;> cases dsksyn <;> first
    | (cases seen <;> rfl)
    | (cases act <;> cases seen <;> rfl)

theorem samplePeripherals_frame (s : State) :
    samplePeripherals s = { s with irq := (samplePeripherals s).irq, disk := (samplePeripherals s).disk } := by
  rw [samplePeripherals_eq]

theorem spriteLineStart_frame (s : State) : spriteLineStart s = { s with sprites := (spriteLineStart s).sprites } := rfl

theorem lineStart_frame (s : State) :
    lineStart s = { s with planes := (lineStart s).planes, sprites := (lineStart s).sprites } := rfl

theorem copperFrameReload_frame (s : State) :
    copperFrameReload s = { s with copper := (copperFrameReload s).copper } := by
  unfold copperFrameReload
  split <;> rfl

theorem frameStart_frame (s : State) :
    frameStart s = { s with irq := (frameStart s).irq, copper := (frameStart s).copper } := by
  unfold frameStart copperFrameReload
  split <;> rfl

/-- Steps 1 to 3 of a slot change the Copper, the requests, the disk's sync flag, the planes and the sprites alone. -/
theorem slotStart_frame (s : State) :
    slotStart s = { s with
      copper := (slotStart s).copper, irq := (slotStart s).irq, disk := (slotStart s).disk
      planes := (slotStart s).planes, sprites := (slotStart s).sprites } := by
  unfold slotStart
  rw [copperApplyPendingJump_frame s, samplePeripherals_frame]
  dsimp only
  split
  · split
    · rw [frameStart_frame, lineStart_frame]
    · rw [lineStart_frame]
  · split
    · rw [frameStart_frame]
    · rfl

section

variable (s : State)

@[simp] theorem slotStart_cfg : (slotStart s).cfg = s.cfg := by rw [slotStart_frame]
@[simp] theorem slotStart_mem : (slotStart s).mem = s.mem := by rw [slotStart_frame]
@[simp] theorem slotStart_raster : (slotStart s).raster = s.raster := by rw [slotStart_frame]
@[simp] theorem slotStart_dmacon : (slotStart s).dmacon = s.dmacon := by rw [slotStart_frame]
@[simp] theorem slotStart_adkcon : (slotStart s).adkcon = s.adkcon := by rw [slotStart_frame]
@[simp] theorem slotStart_refptr : (slotStart s).refptr = s.refptr := by rw [slotStart_frame]
@[simp] theorem slotStart_clxcon : (slotStart s).clxcon = s.clxcon := by rw [slotStart_frame]
@[simp] theorem slotStart_blitter : (slotStart s).blitter = s.blitter := by rw [slotStart_frame]
@[simp] theorem slotStart_audio : (slotStart s).audio = s.audio := by rw [slotStart_frame]
@[simp] theorem slotStart_palette : (slotStart s).palette = s.palette := by rw [slotStart_frame]
@[simp] theorem slotStart_output : (slotStart s).output = s.output := by rw [slotStart_frame]
@[simp] theorem slotStart_sinkInstalled : (slotStart s).sinkInstalled = s.sinkInstalled := by rw [slotStart_frame]
@[simp] theorem slotStart_video : (slotStart s).video = s.video := by rw [slotStart_frame]
@[simp] theorem slotStart_outbox : (slotStart s).outbox = s.outbox := by rw [slotStart_frame]
@[simp] theorem slotStart_responses : (slotStart s).responses = s.responses := by rw [slotStart_frame]
@[simp] theorem slotStart_inputs : (slotStart s).inputs = s.inputs := by rw [slotStart_frame]
@[simp] theorem slotStart_calls : (slotStart s).calls = s.calls := by rw [slotStart_frame]
@[simp] theorem slotStart_run : (slotStart s).run = s.run := by rw [slotStart_frame]
@[simp] theorem slotStart_drawCount : (slotStart s).drawCount = s.drawCount := by rw [slotStart_frame]

end

/-! What the fields the start of a slot changes become. -/

section

variable (s : State)

theorem frameStart_planes : (frameStart s).planes = s.planes := by rw [frameStart_frame]
theorem frameStart_sprites : (frameStart s).sprites = s.sprites := by rw [frameStart_frame]
theorem frameStart_disk : (frameStart s).disk = s.disk := by rw [frameStart_frame]

theorem frameStart_irq : (frameStart s).irq = s.irq.setRequest .vertb := by
  unfold frameStart copperFrameReload
  split <;> rfl

theorem frameStart_copper :
    (frameStart s).copper = if s.cfg.copperVblankReload then
      { s.copper with pc := s.copper.loc1, mode := .running, pendingJump := .none } else s.copper := by
  unfold frameStart copperFrameReload
  have e : (s.raise .vertb).cfg = s.cfg := rfl
  rw [e]
  split <;> rfl

theorem slotStart_planes :
    (slotStart s).planes = if s.raster.cycle = 0 then s.planes.lineSetup s.raster.line else s.planes := by
  unfold slotStart
  rw [copperApplyPendingJump_frame, samplePeripherals_frame]
  dsimp only
  by_cases h0 : s.raster.cycle = 0
  · by_cases h1 : s.raster.line = 0
    · simp only [h0, h1, if_true, lineStart, spriteLineStart, and_self]
      exact frameStart_planes _
    · simp [h0, h1, lineStart, spriteLineStart]
  · simp [h0]

theorem slotStart_sprites :
    (slotStart s).sprites =
      if s.raster.cycle = 0 then
        vmap (fun p => (if s.raster.line = s.cfg.spriteDmaStartLine then p.frameRestart else p).lineSetup s.raster.line)
          s.sprites
      else s.sprites := by
  unfold slotStart
  rw [copperApplyPendingJump_frame, samplePeripherals_frame]
  dsimp only
  by_cases h0 : s.raster.cycle = 0
  · by_cases h1 : s.raster.line = 0
    · simp only [h0, h1, if_true, lineStart, spriteLineStart, and_self]
      exact frameStart_sprites _
    · simp [h0, h1, lineStart, spriteLineStart]
  · simp [h0]

theorem slotStart_irq :
    (slotStart s).irq = if s.raster.cycle = 0 ∧ s.raster.line = 0 then (samplePeripherals s).irq.setRequest .vertb
      else (samplePeripherals s).irq := by
  unfold slotStart
  rw [copperApplyPendingJump_frame]
  have e : (samplePeripherals { s with copper := (copperApplyPendingJump s).copper }).irq =
      (samplePeripherals s).irq := by
    rw [samplePeripherals_eq, samplePeripherals_eq]
  rw [← e, samplePeripherals_frame]
  dsimp only
  by_cases h0 : s.raster.cycle = 0
  · by_cases h1 : s.raster.line = 0
    · simp only [h0, h1, if_true, lineStart, spriteLineStart, and_self]
      exact frameStart_irq _
    · simp [h0, h1, lineStart, spriteLineStart]
  · simp [h0]

theorem slotStart_disk : (slotStart s).disk = (samplePeripherals s).disk := by
  unfold slotStart
  rw [copperApplyPendingJump_frame]
  have e : (samplePeripherals { s with copper := (copperApplyPendingJump s).copper }).disk =
      (samplePeripherals s).disk := by
    rw [samplePeripherals_eq, samplePeripherals_eq]
  rw [← e, samplePeripherals_frame]
  dsimp only
  by_cases h0 : s.raster.cycle = 0
  · by_cases h1 : s.raster.line = 0
    · simp only [h0, h1, if_true, lineStart, spriteLineStart, and_self]
      exact frameStart_disk _
    · simp [h0, h1, lineStart, spriteLineStart]
  · simp [h0]

/-- The Copper after the start of a slot: the pending jump, then the frame reload where the parameter asks for it. -/
theorem slotStart_copper :
    (slotStart s).copper =
      if s.cfg.copperVblankReload = true ∧ s.raster.cycle = 0 ∧ s.raster.line = 0 then
        { (copperApplyPendingJump s).copper with
          pc := (copperApplyPendingJump s).copper.loc1, mode := .running, pendingJump := .none }
      else (copperApplyPendingJump s).copper := by
  unfold slotStart
  rw [copperApplyPendingJump_frame, samplePeripherals_frame]
  dsimp only
  by_cases h0 : s.raster.cycle = 0
  · by_cases h1 : s.raster.line = 0
    · cases h2 : s.cfg.copperVblankReload <;> simp [h0, h1, h2, lineStart, spriteLineStart, frameStart_copper]
    · simp [h0, h1, lineStart, spriteLineStart]
  · simp [h0]

end

/-! ## Register writes -/

/-- A write of DMACON changes DMACON, the audio channels and the requests alone. -/
theorem audioEnableChange_frame (before : Word) (s : State) (n : Fin 4) :
    audioEnableChange before s n =
      { s with audio := (audioEnableChange before s n).audio, irq := (audioEnableChange before s n).irq } := by
  unfold audioEnableChange
  dsimp only
  split
  · rfl
  · split <;> rfl

theorem foldl_audioEnableChange_frame (before : Word) (l : List (Fin 4)) (s : State) :
    l.foldl (audioEnableChange before) s =
      { s with audio := (l.foldl (audioEnableChange before) s).audio
               irq := (l.foldl (audioEnableChange before) s).irq } := by
  induction l generalizing s with
  | nil => rfl
  | cons n l ih =>
    rw [List.foldl_cons, ih, audioEnableChange_frame]

theorem writeDmacon_frame (v : Word) (s : State) :
    writeDmacon v s = { s with
      dmacon := setClr 0x07FF s.dmacon v, audio := (writeDmacon v s).audio, irq := (writeDmacon v s).irq } := by
  unfold writeDmacon
  rw [foldl_audioEnableChange_frame]

theorem writeBplcon0_frame (v : Word) (s : State) :
    writeBplcon0 v s = { s with
      planes := { s.planes with con0 := v }
      outbox := if s.sinkInstalled then .colourEnable (v.getLsbD 9) :: s.outbox else s.outbox } := by
  unfold writeBplcon0
  dsimp only
  split <;> rfl

/-- No register's storage touches the configuration, chip RAM, the raster, the output or the model's own lists. -/
theorem storeReg_frame (r : Reg) (v : Word) (s : State) :
    storeReg r v s = { s with
      dmacon := (storeReg r v s).dmacon, adkcon := (storeReg r v s).adkcon, refptr := (storeReg r v s).refptr
      clxcon := (storeReg r v s).clxcon, irq := (storeReg r v s).irq, copper := (storeReg r v s).copper
      blitter := (storeReg r v s).blitter, planes := (storeReg r v s).planes, sprites := (storeReg r v s).sprites
      disk := (storeReg r v s).disk, audio := (storeReg r v s).audio, palette := (storeReg r v s).palette
      outbox := (storeReg r v s).outbox } := by
  cases r with
  | dmacon => rw [storeReg, writeDmacon_frame]
  | bplcon0 => rw [storeReg, writeBplcon0_frame]
  | _ => rfl

section

variable (r : Reg) (v : Word) (s : State)

@[simp] theorem storeReg_cfg : (storeReg r v s).cfg = s.cfg := by rw [storeReg_frame]
@[simp] theorem storeReg_mem : (storeReg r v s).mem = s.mem := by rw [storeReg_frame]
@[simp] theorem storeReg_raster : (storeReg r v s).raster = s.raster := by rw [storeReg_frame]
@[simp] theorem storeReg_output : (storeReg r v s).output = s.output := by rw [storeReg_frame]
@[simp] theorem storeReg_sinkInstalled : (storeReg r v s).sinkInstalled = s.sinkInstalled := by rw [storeReg_frame]
@[simp] theorem storeReg_video : (storeReg r v s).video = s.video := by rw [storeReg_frame]
@[simp] theorem storeReg_responses : (storeReg r v s).responses = s.responses := by rw [storeReg_frame]
@[simp] theorem storeReg_inputs : (storeReg r v s).inputs = s.inputs := by rw [storeReg_frame]
@[simp] theorem storeReg_calls : (storeReg r v s).calls = s.calls := by rw [storeReg_frame]
@[simp] theorem storeReg_run : (storeReg r v s).run = s.run := by rw [storeReg_frame]
@[simp] theorem storeReg_drawCount : (storeReg r v s).drawCount = s.drawCount := by rw [storeReg_frame]

end

/-! ## The channels -/

theorem endOfWord_frame (s : State) :
    endOfWord s = { s with blitter := (endOfWord s).blitter, irq := (endOfWord s).irq } := by
  unfold endOfWord
  dsimp only
  split
  · split <;> rfl
  · rfl

theorem blitRead_frame (s : State) : blitRead s = { s with blitter := (blitRead s).blitter } := by
  unfold blitRead
  dsimp only
  split <;> rfl

/-- A Blitter slot changes chip RAM, the Blitter and the requests alone. -/
theorem blitterStep_frame (s : State) :
    blitterStep s = { s with
      mem := (blitterStep s).mem, blitter := (blitterStep s).blitter, irq := (blitterStep s).irq } := by
  unfold blitterStep
  dsimp only
  rw [blitRead_frame]
  split
  · unfold blitFinishWord
    dsimp only
    rw [endOfWord_frame]
    split <;> rfl
  · rfl

theorem bitplaneFetch_frame (s : State) : bitplaneFetch s = { s with planes := (bitplaneFetch s).planes } := by
  unfold bitplaneFetch
  dsimp only
  split <;> rfl

theorem bitplaneUnitTick_frame (s : State) :
    bitplaneUnitTick s = { s with planes := (bitplaneUnitTick s).planes } := by
  unfold bitplaneUnitTick
  dsimp only
  split <;> rfl

theorem spriteFetch_frame (n : Fin 8) (s : State) :
    spriteFetch n s = { s with sprites := (spriteFetch n s).sprites } := rfl

theorem diskTransfer_frame (s : State) :
    diskTransfer s = { s with mem := (diskTransfer s).mem, disk := (diskTransfer s).disk } := by
  unfold diskTransfer
  split <;> rfl

/-- A disk slot changes chip RAM, the disk channel and the requests alone. -/
theorem diskStep_frame (s : State) :
    diskStep s = { s with mem := (diskStep s).mem, disk := (diskStep s).disk, irq := (diskStep s).irq } := by
  unfold diskStep
  dsimp only
  rw [diskTransfer_frame]
  split <;> rfl

/-- An audio slot changes the channels, the record and the requests alone. -/
theorem audioStep_frame (n : Fin 4) (s : State) :
    audioStep n s = { s with
      audio := (audioStep n s).audio, outbox := (audioStep n s).outbox, irq := (audioStep n s).irq } := by
  unfold audioStep
  dsimp only
  split <;> rfl

/-! ## The end of a slot -/

theorem flush_frame (s : State) : flush s = { s with video := (flush s).video, output := (flush s).output } := rfl

theorem accumulate_frame (cls : OutClass) (colours : List Colour) (s : State) :
    accumulate cls colours s = { s with
      video := (accumulate cls colours s).video, output := (accumulate cls colours s).output } := by
  unfold accumulate
  dsimp only
  split <;> split <;> first | rfl | (split <;> rfl)

/-- The output step changes the shifters, the assembler and the sink's record alone. -/
theorem outputSlot_frame (s : State) :
    outputSlot s = { s with
      planes := { s.planes with shifter := (outputSlot s).planes.shifter }, sprites := (outputSlot s).sprites
      output := (outputSlot s).output, video := (outputSlot s).video } := by
  unfold outputSlot
  dsimp only
  rw [accumulate_frame]
  rfl

theorem outputSlot_planes (s : State) : (outputSlot s).planes = s.planes.shift := by
  unfold outputSlot
  dsimp only
  rw [accumulate_frame]
  rfl

theorem outputSlot_sprites (s : State) :
    (outputSlot s).sprites = vmap Sprite.shift (vmap (fun p => p.activate (slotX s.raster.cycle)) s.sprites) := by
  unfold outputSlot
  dsimp only
  rw [accumulate_frame]
  rfl

/-- Steps 6 to 8 of a slot change the planes, the sprites' shifters, the assembler, the record and the raster alone. -/
theorem slotEnd_frame (s : State) :
    slotEnd s = { s with
      planes := (slotEnd s).planes, sprites := (outputSlot s).sprites, output := (outputSlot s).output
      video := (outputSlot s).video, raster := advancePosition s.cfg s.raster } := by
  unfold slotEnd
  dsimp only
  rw [bitplaneUnitTick_frame, outputSlot_frame]

section

variable (s : State)

@[simp] theorem slotEnd_cfg : (slotEnd s).cfg = s.cfg := by rw [slotEnd_frame]
@[simp] theorem slotEnd_mem : (slotEnd s).mem = s.mem := by rw [slotEnd_frame]
@[simp] theorem slotEnd_raster : (slotEnd s).raster = advancePosition s.cfg s.raster := by rw [slotEnd_frame]
@[simp] theorem slotEnd_dmacon : (slotEnd s).dmacon = s.dmacon := by rw [slotEnd_frame]
@[simp] theorem slotEnd_adkcon : (slotEnd s).adkcon = s.adkcon := by rw [slotEnd_frame]
@[simp] theorem slotEnd_irq : (slotEnd s).irq = s.irq := by rw [slotEnd_frame]
@[simp] theorem slotEnd_copper : (slotEnd s).copper = s.copper := by rw [slotEnd_frame]
@[simp] theorem slotEnd_blitter : (slotEnd s).blitter = s.blitter := by rw [slotEnd_frame]
@[simp] theorem slotEnd_disk : (slotEnd s).disk = s.disk := by rw [slotEnd_frame]
@[simp] theorem slotEnd_audio : (slotEnd s).audio = s.audio := by rw [slotEnd_frame]
@[simp] theorem slotEnd_palette : (slotEnd s).palette = s.palette := by rw [slotEnd_frame]
@[simp] theorem slotEnd_sprites : (slotEnd s).sprites = (outputSlot s).sprites := by rw [slotEnd_frame]
@[simp] theorem slotEnd_output : (slotEnd s).output = (outputSlot s).output := by rw [slotEnd_frame]
@[simp] theorem slotEnd_video : (slotEnd s).video = (outputSlot s).video := by rw [slotEnd_frame]
@[simp] theorem slotEnd_sinkInstalled : (slotEnd s).sinkInstalled = s.sinkInstalled := by rw [slotEnd_frame]
@[simp] theorem slotEnd_outbox : (slotEnd s).outbox = s.outbox := by rw [slotEnd_frame]
@[simp] theorem slotEnd_responses : (slotEnd s).responses = s.responses := by rw [slotEnd_frame]
@[simp] theorem slotEnd_inputs : (slotEnd s).inputs = s.inputs := by rw [slotEnd_frame]
@[simp] theorem slotEnd_calls : (slotEnd s).calls = s.calls := by rw [slotEnd_frame]
@[simp] theorem slotEnd_run : (slotEnd s).run = s.run := by rw [slotEnd_frame]

end

end Sys2Proof.Machine
end

