-- ==== Sys2Proof/Laws/Blitter.lean ====
section
/-! SUPPORT. What one Blitter slot does, in closed form (R283 to R289). -/

namespace Sys2Proof.Machine

/-- The Blitter after `end_of_word`. -/
def Blitter.wordDone (cfg : Config) (b : Blitter) : Blitter :=
  if b.lineEnds then ({ b with step := blitFirstStep b.latch0 } : Blitter).endOfLine cfg
  else { b with wordX := b.wordX + 1, step := blitFirstStep b.latch0 }

theorem endOfWord_eq (s : State) :
    endOfWord s = { s with
      blitter := s.blitter.wordDone s.cfg
      irq := if s.blitter.blitEnds then s.irq.setRequest .blit else s.irq } := by
  unfold endOfWord Blitter.wordDone
  dsimp only
  cases h : s.blitter.lineEnds
  · simp [Blitter.blitEnds, h]
  · cases h2 : s.blitter.blitEnds <;> simp [State.raise, Irq.setRequest, Irq.withMasks]

/-- The Blitter after the bus read of a step. -/
def Blitter.readStep (s : State) : Blitter :=
  let b := s.blitter
  match b.step with
  | .a => { b with adat := s.memRead b.apt, apt := ptrAdd s.cfg b.apt b.inc }
  | .b => { b with bdat := s.memRead b.bpt, bpt := ptrAdd s.cfg b.bpt b.inc }
  | .c => { b with cdat := s.memRead b.cpt, cpt := ptrAdd s.cfg b.cpt b.inc }
  | .d => b
  | .idleCycle => b

theorem blitRead_eq (s : State) : blitRead s = { s with blitter := Blitter.readStep s } := by
  unfold blitRead Blitter.readStep
  cases h : s.blitter.step <;> simp [h]

/-- The Blitter after `compute_word` and the store of step D. -/
def Blitter.storeStep (cfg : Config) (b : Blitter) : Blitter :=
  { b.computeWord with dpt := if b.step = .d then ptrAdd cfg b.dpt b.inc else b.dpt }

theorem blitFinishWord_eq (s : State) :
    blitFinishWord s = { s with
      mem := if s.blitter.step = .d then
          Memory.writeWord s.mem (reduceAddr s.cfg s.blitter.dpt.toNat) s.blitter.outputWord.2 else s.mem
      blitter := (s.blitter.storeStep s.cfg).wordDone s.cfg
      irq := if s.blitter.blitEnds then s.irq.setRequest .blit else s.irq } := by
  have e : (match s.blitter.step with
      | .d => { State.memWrite { s with blitter := s.blitter.computeWord } s.blitter.dpt s.blitter.outputWord.2 with
                blitter := { s.blitter.computeWord with dpt := ptrAdd s.cfg s.blitter.dpt s.blitter.inc } }
      | .a => { s with blitter := s.blitter.computeWord }
      | .b => { s with blitter := s.blitter.computeWord }
      | .c => { s with blitter := s.blitter.computeWord }
      | .idleCycle => { s with blitter := s.blitter.computeWord }) =
      { s with
        mem := if s.blitter.step = .d then
          Memory.writeWord s.mem (reduceAddr s.cfg s.blitter.dpt.toNat) s.blitter.outputWord.2 else s.mem
        blitter := s.blitter.storeStep s.cfg } := by
    cases h : s.blitter.step <;> simp [Blitter.storeStep, h] <;> rfl
  refine Eq.trans (congrArg endOfWord e) ?_
  rw [endOfWord_eq]
  rfl

/-- One Blitter slot: the read of the step, and, in the last step of the word, its computation, store and end. -/
theorem blitterStep_eq (s : State) :
    blitterStep s =
      (let b := Blitter.readStep s
       if blitIsLast b.latch0 b.step then
         { s with
           mem := if b.step = .d then
               Memory.writeWord s.mem (reduceAddr s.cfg b.dpt.toNat) b.outputWord.2 else s.mem
           blitter := (b.storeStep s.cfg).wordDone s.cfg
           irq := if b.blitEnds then s.irq.setRequest .blit else s.irq }
       else { s with blitter := { b with step := blitNextStep b.latch0 b.step } }) := by
  unfold blitterStep
  rw [blitRead_eq]
  dsimp only
  rw [blitFinishWord_eq]

section

variable (s : State)

@[simp] theorem readStep_step : (Blitter.readStep s).step = s.blitter.step := by
  unfold Blitter.readStep
  dsimp only
  split <;> simp_all

/-- The fields a step's read leaves alone. -/
theorem readStep_frame :
    Blitter.readStep s = { s.blitter with
      adat := (Blitter.readStep s).adat, apt := (Blitter.readStep s).apt, bdat := (Blitter.readStep s).bdat
      bpt := (Blitter.readStep s).bpt, cdat := (Blitter.readStep s).cdat, cpt := (Blitter.readStep s).cpt } := by
  unfold Blitter.readStep
  dsimp only
  split <;> rfl

/-- The data registers after a step's read. -/
theorem readStep_adat :
    (Blitter.readStep s).adat = if s.blitter.step = .a then s.memRead s.blitter.apt else s.blitter.adat := by
  unfold Blitter.readStep
  dsimp only
  split <;> simp_all

theorem readStep_bdat :
    (Blitter.readStep s).bdat = if s.blitter.step = .b then s.memRead s.blitter.bpt else s.blitter.bdat := by
  unfold Blitter.readStep
  dsimp only
  split <;> simp_all

theorem readStep_cdat :
    (Blitter.readStep s).cdat = if s.blitter.step = .c then s.memRead s.blitter.cpt else s.blitter.cdat := by
  unfold Blitter.readStep
  dsimp only
  split <;> simp_all

end

/-- The requests after a Blitter slot: BLIT with the last step of the blit, nothing else. -/
theorem blitterStep_irq (s : State) :
    (blitterStep s).irq =
      if blitIsLast s.blitter.latch0 s.blitter.step = true ∧ s.blitter.blitEnds = true then s.irq.setRequest .blit
      else s.irq := by
  have e1 : (Blitter.readStep s).latch0 = s.blitter.latch0 := by rw [readStep_frame]
  have e2 : (Blitter.readStep s).blitEnds = s.blitter.blitEnds := by rw [readStep_frame]; rfl
  rw [blitterStep_eq]
  dsimp only
  rw [e1, readStep_step, e2]
  by_cases h : blitIsLast s.blitter.latch0 s.blitter.step = true
  · rw [if_pos h]
    simp only [h, true_and]
  · rw [if_neg h, if_neg (fun k => h k.1)]

/-- The fields the end of a word leaves alone. -/
theorem wordDone_frame (cfg : Config) (b : Blitter) :
    b.wordDone cfg = { b with
      step := blitFirstStep b.latch0, wordX := (b.wordDone cfg).wordX, fillCarry := (b.wordDone cfg).fillCarry
      linesLeft := (b.wordDone cfg).linesLeft, busy := (b.wordDone cfg).busy, apt := (b.wordDone cfg).apt
      bpt := (b.wordDone cfg).bpt, cpt := (b.wordDone cfg).cpt, dpt := (b.wordDone cfg).dpt } := by
  unfold Blitter.wordDone
  split <;> rfl

/-- The first and the last step of a word's sequence, and the step after a source step that is not the last (R284). -/
theorem blitFirstStep_eq (c : Word) :
    blitFirstStep c =
      if useA c then .a else if useB c then .b else if useC c then .c else if useD c then .d else .idleCycle := by
  unfold blitFirstStep blitSequence
  cases useA c <;> cases useB c <;> cases useC c <;> cases useD c <;> rfl

theorem blitIsLast_eq (c : Word) (st : BlitStep) :
    blitIsLast c st =
      (st == if useD c then .d else if useC c then .c else if useB c then .b else if useA c then .a
        else .idleCycle) := by
  unfold blitIsLast blitSequence
  cases useA c <;> cases useB c <;> cases useC c <;> cases useD c <;> cases st <;> rfl

theorem blitNextStep_eq (c : Word) (st : BlitStep) (h : blitIsLast c st = false) :
    (st = .a → useA c = true → blitNextStep c st = if useB c then .b else if useC c then .c else .d) ∧
    (st = .b → useB c = true → blitNextStep c st = if useC c then .c else .d) ∧
    (st = .c → useC c = true → blitNextStep c st = .d) := by
  revert h
  unfold blitIsLast blitNextStep blitFirstStep blitSequence
  cases useA c <;> cases useB c <;> cases useC c <;> cases useD c <;> cases st <;> decide

end Sys2Proof.Machine
end

