-- ==== Sys2Proof/Laws/Slot.lean ====
section
/-! SUPPORT. What one operation, one slot and one step can do: each said once, so that a property of every step is
proved from its parts. -/

namespace Sys2Proof.Machine

/-! ## Outcomes -/

@[simp] theorem andThen_next (s : State) (f : State → Host.Outcome State Fault Refusal) :
    andThen (.next s) f = f s := rfl

theorem andThen_eq_next {o : Host.Outcome State Fault Refusal} {f : State → Host.Outcome State Fault Refusal}
    {t : State} (h : andThen o f = .next t) : ∃ s, o = .next s ∧ f s = .next t := by
  cases o with
  | next s => exact ⟨s, rfl, h⟩
  | fault r => simp [andThen] at h
  | refused r => simp [andThen] at h

/-! ## Register writes -/

/-- What a register write can do: nothing, the storage and effect of the register, the arming of the Blitter, or a
forwarded message. -/
theorem writeOffset_cases {agent : Agent} {o : Offset} {v : Word} {s t : State}
    (h : writeOffset agent o v s = .next t) :
    t = s ∨ (∃ r, regOf o = some r ∧ r ≠ .bltsize ∧ t = storeReg r v s) ∨
      (regOf o = some .bltsize ∧ lineMode s.blitter.con1 = false ∧ t = { s with blitter := s.blitter.arm v }) ∨
      ∃ r, regOf o = some r ∧ accessClass r = .externalUnit ∧ t = s.send (.forward r v) := by
  unfold writeOffset at h
  split at h
  · simp at h
  · split at h
    · exact .inl (by simpa using h.symm)
    · split at h
      · exact .inl (by simpa using h.symm)
      · rename_i r hr
        unfold writeReg at h
        split at h
        · rename_i hc
          split at h
          · rename_i hb
            subst hb
            unfold armBlitter at h
            split at h
            · simp at h
            · rename_i hl
              exact .inr (.inr (.inl ⟨hr, by simpa using hl, by simpa using h.symm⟩))
          · rename_i hb
            exact .inr (.inl ⟨r, hr, hb, by simpa using h.symm⟩)
        · rename_i hc
          exact .inr (.inl ⟨r, hr, (by rintro rfl; simp [accessClass] at hc), by simpa using h.symm⟩)
        · rename_i hc
          exact .inr (.inl ⟨r, hr, (by rintro rfl; simp [accessClass] at hc), by simpa using h.symm⟩)
        · rename_i hc
          exact .inr (.inr (.inr ⟨r, hr, hc, by simpa using h.symm⟩))
        · exact .inl (by simpa using h.symm)

/-- A property kept by every register's storage, by arming and by messages is kept by every register write. -/
theorem writeOffset_preserves {P : State → Prop} (hstore : ∀ r v s, P s → P (storeReg r v s))
    (harm : ∀ v s, P s → P { s with blitter := s.blitter.arm v })
    (hsend : ∀ m s, P s → P (s.send m)) {agent : Agent} {o : Offset} {v : Word} {s t : State} (h : P s)
    (hw : writeOffset agent o v s = .next t) : P t := by
  rcases writeOffset_cases hw with rfl | ⟨r, -, -, rfl⟩ | ⟨-, -, rfl⟩ | ⟨r, -, -, rfl⟩
  · exact h
  · exact hstore _ _ _ h
  · exact harm _ _ h
  · exact hsend _ _ h

/-! ## The Copper's instructions -/

/-- A property kept by register writes and blind to the Copper's mode, wait fields and (through `ptrAdd`) pc is kept by
every instruction. -/
theorem exec_preserves {P : State → Prop}
    (hwrite : ∀ agent o v s t, P s → writeOffset agent o v s = .next t → P t)
    (hwait : ∀ s value mask bfd mode, P s → P { s with copper := { s.copper with
      waitValue := value, waitMask := mask, waitBfd := bfd, mode := mode } })
    (hskip : ∀ s mode, P s → P { s with copper := { s.copper with
      pc := ptrAdd s.cfg s.copper.pc 4, mode := mode } })
    (hmode : ∀ s mode, P s → P { s with copper := { s.copper with mode := mode } })
    {i : Instr} {s t : State} (h : P s) (he : exec i s = .next t) : P t := by
  cases i with
  | move ign dest data => exact hwrite _ _ _ _ _ h he
  | wait vp hp bfd ve he' =>
    simp only [exec, execWait, Host.Outcome.next.injEq] at he
    subst he
    exact hwait _ _ _ _ _ h
  | skip vp hp bfd ve he' =>
    simp only [exec, execSkip, Host.Outcome.next.injEq] at he
    subst he
    split
    · exact hskip _ _ h
    · exact hmode _ _ h

/-- The same for the Copper's slot, with the fetch before the instruction. -/
theorem copperStep_preserves {P : State → Prop}
    (hwrite : ∀ agent o v s t, P s → writeOffset agent o v s = .next t → P t)
    (hfetch : ∀ s mode ir1 ir2, P s → P { s with copper := { s.copper with
      mode := mode, pc := ptrAdd s.cfg s.copper.pc 4, ir1 := ir1, ir2 := ir2 } })
    (hwait : ∀ s value mask bfd mode, P s → P { s with copper := { s.copper with
      waitValue := value, waitMask := mask, waitBfd := bfd, mode := mode } })
    (hskip : ∀ s mode, P s → P { s with copper := { s.copper with
      pc := ptrAdd s.cfg s.copper.pc 4, mode := mode } })
    (hmode : ∀ s mode, P s → P { s with copper := { s.copper with mode := mode } })
    {s t : State} (h : P s) (he : copperStep s = .next t) : P t :=
  exec_preserves hwrite hwait hskip hmode (hfetch _ _ _ _ h) he

/-! ## Arbitration -/

theorem grant_channel {cpuWants : Bool} {s : State} {c : Channel} (h : grant cpuWants s = .channel c) :
    wants s c = true ∧ passedOver s cpuWants c = false := by
  unfold grant at h
  split at h
  · rename_i d hd
    have := List.find?_some hd
    simp only [Grant.channel.injEq] at h
    subst h
    simpa using this
  · split at h <;> simp at h

/-! ## The slot -/

/-- A slot is its start, the granted unit's operation, and its end. -/
theorem slot_cases {cpuWants : Bool} {s t : State} (h : slot cpuWants s = .next t) :
    ∃ u, performGrant (slotGrant cpuWants s) (slotStart s) = .next u ∧ t = slotEnd u := by
  obtain ⟨u, hu, ht⟩ := andThen_eq_next h
  exact ⟨u, hu, by simpa using ht.symm⟩

/-- A property kept by the start, by the operation of every channel that wants the slot, and by the end of a slot, is
kept by the slot. -/
theorem slot_preserves {P : State → Prop} (hstart : ∀ s, P s → P (slotStart s))
    (hgrant : ∀ c s t, P s → wants s c = true → performGrant (.channel c) s = .next t → P t)
    (hend : ∀ s, P s → P (slotEnd s)) {cpuWants : Bool} {s t : State} (h : P s) (hs : slot cpuWants s = .next t) :
    P t := by
  obtain ⟨u, hu, rfl⟩ := slot_cases hs
  apply hend
  generalize hg : slotGrant cpuWants s = g at hu
  cases g with
  | channel c => exact hgrant c _ _ (hstart _ h) (grant_channel hg).1 hu
  | cpu =>
    simp only [performGrant, Host.Outcome.next.injEq] at hu
    exact hu ▸ hstart _ h
  | idle =>
    simp only [performGrant, Host.Outcome.next.injEq] at hu
    exact hu ▸ hstart _ h

/-! ## The step -/

/-- What one step can do: the input that is due, a slot (of the run in progress, or without the CPU), or the caller's
next operation. -/
theorem step_cases {s t : State} (h : step s = .next t) :
    (∃ i rest, s.inputs = (0, i) :: rest ∧ t = performInput i { s with inputs := rest }) ∨
    ((∀ i rest, s.inputs ≠ (0, i) :: rest) ∧
      ((∃ r u, s.run = some r ∧ slot r.cpuWants (tickInputs s) = .next u ∧ t = r.finishSlot (tickInputs s) u) ∨
       (s.run = none ∧ s.calls = [] ∧ slot false (tickInputs s) = .next t) ∨
       ∃ c rest, s.run = none ∧ s.calls = c :: rest ∧ performCall c { tickInputs s with calls := rest } = .next t)) := by
  unfold step at h
  split at h
  · rename_i i rest hi
    exact .inl ⟨i, rest, hi, by simpa using h.symm⟩
  · rename_i hno
    refine .inr ⟨fun i rest hi => hno i rest hi, ?_⟩
    unfold drivenStep at h
    split at h
    · rename_i r hr
      obtain ⟨u, hu, ht⟩ := andThen_eq_next h
      exact .inl ⟨r, u, hr, hu, by simpa using ht.symm⟩
    · rename_i hr
      split at h
      · rename_i hc
        exact .inr (.inl ⟨hr, hc, h⟩)
      · rename_i c rest hc
        exact .inr (.inr ⟨c, rest, hr, hc, h⟩)

/-- `tickInputs` changes the list of inputs alone. -/
theorem tickInputs_frame (s : State) : tickInputs s = { s with inputs := (tickInputs s).inputs } := by
  unfold tickInputs
  split <;> rfl

/-- The end of a slot of a run changes the run and the answers alone. -/
theorem finishSlot_frame (r : Run) (s t : State) :
    r.finishSlot s t = { t with run := (r.finishSlot s t).run, responses := (r.finishSlot s t).responses } := by
  unfold Run.finishSlot
  split <;> rfl

/-- The start of `advance` changes the run and the answers alone. -/
theorem startAdvance_frame (n : Nat) (s : State) :
    startAdvance n s =
      { s with run := (startAdvance n s).run, responses := (startAdvance n s).responses } := by
  unfold startAdvance
  split <;> rfl

/-- A property blind to the model's own lists, kept by every input, by the parts of a slot, by the leftover tick, by
every CPU access and by reset, is kept by every step. -/
theorem step_preserves {P : State → Prop}
    (hown : ∀ s inputs calls run responses, P s →
      P { s with inputs := inputs, calls := calls, run := run, responses := responses })
    (hinput : ∀ i s, P s → P (performInput i s))
    (hstart : ∀ s, P s → P (slotStart s))
    (hgrant : ∀ c s t, P s → wants s c = true → performGrant (.channel c) s = .next t → P t)
    (hend : ∀ s, P s → P (slotEnd s))
    (htick : ∀ s n, n < 2 → P s → P { s with raster := { s.raster with residualTicks := n } })
    (haccess : ∀ a s t, P s → performAccess a s = .next t → P t)
    (hreset : ∀ d s, P s → P (s.resetWith d))
    {s t : State} (h : P s) (hs : step s = .next t) : P t := by
  have hticked : P (tickInputs s) := by
    rw [tickInputs_frame]
    exact hown s _ s.calls s.run s.responses h
  rcases step_cases hs with ⟨i, rest, -, rfl⟩ | ⟨-, ⟨r, u, -, hu, rfl⟩ | ⟨-, -, hu⟩ | ⟨c, rest, -, -, hc⟩⟩
  · exact hinput _ _ (hown s rest s.calls s.run s.responses h)
  · rw [finishSlot_frame]
    exact hown u u.inputs u.calls _ _ (slot_preserves hstart hgrant hend hticked hu)
  · exact slot_preserves hstart hgrant hend hticked hu
  · have h' : P { tickInputs s with calls := rest } :=
      hown (tickInputs s) (tickInputs s).inputs rest (tickInputs s).run (tickInputs s).responses hticked
    revert hc h'
    generalize ({ tickInputs s with calls := rest } : State) = s'
    intro hc h'
    have hadv : ∀ n s, P s → P (startAdvance n s) := fun n s hp => by
      rw [startAdvance_frame]
      exact hown s s.inputs s.calls _ _ hp
    cases c with
    | advance n =>
      simp only [performCall, Host.Outcome.next.injEq] at hc
      exact hc ▸ hadv _ _ h'
    | runFor d =>
      simp only [performCall, startRunFor, Host.Outcome.next.injEq] at hc
      exact hc ▸ hadv _ _ (htick _ _ (Nat.mod_lt _ (by omega)) h')
    | advanceUntilCpuSlot =>
      simp only [performCall, Host.Outcome.next.injEq] at hc
      exact hc ▸ hown s' s'.inputs s'.calls _ s'.responses h'
    | perform a => exact haccess _ _ _ h' hc
    | getInterruptLevel =>
      simp only [performCall, Host.Outcome.next.injEq] at hc
      exact hc ▸ hown s' s'.inputs s'.calls s'.run _ h'
    | reset d =>
      simp only [performCall, Host.Outcome.next.injEq] at hc
      exact hc ▸ hreset _ _ h'

end Sys2Proof.Machine
end

