-- ==== Sys2Proof/Laws/Level.lean ====
section
/-! SUPPORT. The interrupt level after every operation is the one its masks give (R491). -/

namespace Sys2Proof.Machine

/-- The level of an interrupt controller is the one its masks give. -/
def Irq.InSync (q : Irq) : Prop := q.level = computeLevel q.enable q.request

theorem levelOk_iff (s : State) : LevelOk s ↔ s.irq.InSync := Iff.rfl

theorem withMasks_inSync (q : Irq) (e r : Word) : (q.withMasks e r).InSync := rfl
theorem setRequest_inSync (q : Irq) (b : IrqBit) : (q.setRequest b).InSync := rfl
theorem raise_inSync (s : State) (b : IrqBit) : (s.raise b).irq.InSync := rfl

theorem setRequest_if_inSync {q : Irq} (h : q.InSync) (c : Bool) (b : IrqBit) :
    (if c then q.setRequest b else q).InSync := by
  cases c
  · exact h
  · rfl

theorem samplePeripherals_inSync {s : State} (h : s.irq.InSync) : (samplePeripherals s).irq.InSync := by
  rw [samplePeripherals_eq]
  exact setRequest_if_inSync (setRequest_if_inSync (setRequest_if_inSync (setRequest_if_inSync
    (setRequest_if_inSync h _ _) _ _) _ _) _ _) _ _

theorem slotStart_inSync {s : State} (h : s.irq.InSync) : (slotStart s).irq.InSync := by
  have h2 : (samplePeripherals (copperApplyPendingJump s)).irq.InSync :=
    samplePeripherals_inSync (by rw [copperApplyPendingJump_frame]; exact h)
  unfold slotStart
  dsimp only
  split
  · split
    · unfold frameStart copperFrameReload
      split <;> rfl
    · exact h2
  · split
    · unfold frameStart copperFrameReload
      split <;> rfl
    · exact h2

theorem audioEnableChange_inSync {s : State} (before : Word) (n : Fin 4) (h : s.irq.InSync) :
    (audioEnableChange before s n).irq.InSync := by
  unfold audioEnableChange
  dsimp only
  split
  · rfl
  · split <;> exact h

theorem foldl_audioEnableChange_inSync (before : Word) (l : List (Fin 4)) {s : State} (h : s.irq.InSync) :
    (l.foldl (audioEnableChange before) s).irq.InSync := by
  induction l generalizing s with
  | nil => exact h
  | cons n l ih => exact ih (audioEnableChange_inSync before n h)

theorem storeReg_inSync {s : State} (r : Reg) (v : Word) (h : s.irq.InSync) : (storeReg r v s).irq.InSync := by
  cases r with
  | dmacon => exact foldl_audioEnableChange_inSync _ _ (s := { s with dmacon := setClr 0x07FF s.dmacon v }) h
  | bplcon0 => rw [storeReg, writeBplcon0_frame]; exact h
  | intena => rfl
  | intreq => rfl
  | _ => exact h

theorem writeOffset_inSync {agent : Agent} {o : Offset} {v : Word} {s t : State} (h : s.irq.InSync)
    (hw : writeOffset agent o v s = .next t) : t.irq.InSync :=
  writeOffset_preserves (P := fun s => s.irq.InSync) (fun r v _ h => storeReg_inSync r v h) (fun _ _ h => h)
    (fun _ _ h => h) h hw

theorem blitterStep_inSync {s : State} (h : s.irq.InSync) : (blitterStep s).irq.InSync := by
  rw [blitterStep_eq]
  dsimp only
  split
  · exact setRequest_if_inSync h _ _
  · exact h

theorem diskStep_inSync {s : State} (h : s.irq.InSync) : (diskStep s).irq.InSync := by
  have ht : (diskTransfer s).irq.InSync := by rw [diskTransfer_frame]; exact h
  unfold diskStep
  dsimp only
  split
  · rfl
  · exact ht

theorem audioStep_inSync {s : State} (n : Fin 4) (h : s.irq.InSync) : (audioStep n s).irq.InSync := by
  unfold audioStep
  dsimp only
  split
  · rfl
  · exact h

/-- The operation of every granted channel keeps the level in step with the masks. -/
theorem performGrant_inSync {c : Channel} {s t : State} (h : s.irq.InSync)
    (hg : performGrant (.channel c) s = .next t) : t.irq.InSync := by
  cases c with
  | copper =>
    exact copperStep_preserves (P := fun s => s.irq.InSync) (fun _ _ _ _ _ h hw => writeOffset_inSync h hw)
      (fun _ _ _ _ h => h) (fun _ _ _ _ _ h => h) (fun _ _ h => h) (fun _ _ h => h) h hg
  | blitter =>
    simp only [performGrant, Host.Outcome.next.injEq] at hg
    exact hg ▸ blitterStep_inSync h
  | bitplane =>
    simp only [performGrant, Host.Outcome.next.injEq] at hg
    rw [← hg, bitplaneFetch_frame]
    exact h
  | sprite n =>
    simp only [performGrant, Host.Outcome.next.injEq] at hg
    rw [← hg, spriteFetch_frame]
    exact h
  | disk =>
    simp only [performGrant, Host.Outcome.next.injEq] at hg
    exact hg ▸ diskStep_inSync h
  | audio n =>
    simp only [performGrant, Host.Outcome.next.injEq] at hg
    exact hg ▸ audioStep_inSync n h

theorem performInput_inSync {s : State} (i : Input) (h : s.irq.InSync) : (performInput i s).irq.InSync := by
  cases i with
  | diskWordIn w => unfold performInput diskWordIn; dsimp only; split <;> exact h
  | diskWordOut => unfold performInput diskWordOut; dsimp only; split <;> exact h
  | _ => exact h

end Sys2Proof.Machine
end

