-- ==== Sys2Proof/Laws/Memory.lean ====
section
/-! SUPPORT. Chip RAM: a read after a write, and the canonical form every operation keeps. -/

namespace Sys2Proof.Machine.Memory

@[simp] theorem read_nil (a : Nat) : read [] a = 0 := rfl

/-- In a canonical memory every listed address is above the bound, so an address at or below it reads 0. -/
theorem read_eq_zero_of_wfFrom {m : Memory} {lo a : Nat} (h : wfFrom (some lo) m = true) (ha : a ≤ lo) :
    read m a = 0 := by
  induction m generalizing lo with
  | nil => rfl
  | cons c t ih =>
    obtain ⟨k, x⟩ := c
    simp only [wfFrom, above, Bool.and_eq_true, decide_eq_true_eq] at h
    have hk : k ≠ a := by omega
    simp only [read, hk, if_false]
    exact ih h.2 (by omega)

/-- A byte reads back what was written there last. -/
theorem read_write_same {lo : Option Nat} {m : Memory} (h : wfFrom lo m = true) (a : Nat) (b : Byte) :
    read (write m a b) a = b := by
  induction m generalizing lo with
  | nil => by_cases hb : b = 0#8 <;> simp [write, read, hb]
  | cons c t ih =>
    obtain ⟨k, x⟩ := c
    simp only [wfFrom, Bool.and_eq_true] at h
    by_cases h1 : a < k
    · have hk : k ≠ a := by omega
      by_cases hb : b = 0#8
      · simp [write, h1, hb, read, hk, read_eq_zero_of_wfFrom h.2 (Nat.le_of_lt h1)]
      · simp [write, h1, hb, read]
    · by_cases h2 : a = k
      · subst h2
        by_cases hb : b = 0#8
        · simp [write, hb, read_eq_zero_of_wfFrom h.2 (Nat.le_refl a)]
        · simp [write, hb, read]
      · have hk : k ≠ a := by omega
        simp [write, h1, h2, read, hk, ih h.2]

/-- A write leaves every other address alone. -/
theorem read_write_other {lo : Option Nat} {m : Memory} (h : wfFrom lo m = true) {a c : Nat} (b : Byte) (hac : c ≠ a) :
    read (write m a b) c = read m c := by
  induction m generalizing lo with
  | nil => by_cases hb : b = 0#8 <;> simp [write, read, hb, Ne.symm hac]
  | cons d t ih =>
    obtain ⟨k, x⟩ := d
    simp only [wfFrom, Bool.and_eq_true] at h
    by_cases h1 : a < k
    · by_cases hb : b = 0#8 <;> simp [write, h1, hb, read, Ne.symm hac]
    · by_cases h2 : a = k
      · subst h2
        by_cases hb : b = 0#8 <;> simp [write, hb, read, Ne.symm hac]
      · by_cases hk : k = c
        · subst hk
          simp [write, h1, h2, read]
        · simp [write, h1, h2, read, hk, ih h.2]

/-- A write keeps the canonical form. -/
theorem write_wfFrom {lo : Option Nat} {m : Memory} (h : wfFrom lo m = true) (a : Nat) (b : Byte)
    (ha : above lo a = true) : wfFrom lo (write m a b) = true := by
  induction m generalizing lo with
  | nil => by_cases hb : b = 0#8 <;> simp [write, wfFrom, hb, ha]
  | cons c t ih =>
    obtain ⟨k, x⟩ := c
    simp only [wfFrom, Bool.and_eq_true] at h
    obtain ⟨⟨hl, hx⟩, ht⟩ := h
    by_cases h1 : a < k
    · by_cases hb : b = 0
      · rw [write, if_pos h1, if_pos hb, wfFrom, hl, hx, ht]
        rfl
      · have hk : above (some a) k = true := by simpa [above] using h1
        have hb' : (b != 0) = true := by simpa using hb
        rw [write, if_pos h1, if_neg hb, wfFrom, wfFrom, ha, hb', hk, hx, ht]
        rfl
    · by_cases h2 : a = k
      · subst h2
        by_cases hb : b = 0
        · simp only [write, hb, lt_irrefl, if_true, if_false]
          cases t with
          | nil => rfl
          | cons d t' =>
            obtain ⟨k', x'⟩ := d
            simp only [wfFrom, Bool.and_eq_true] at ht ⊢
            refine ⟨⟨?_, ht.1.2⟩, ht.2⟩
            have hk := ht.1.1
            cases lo with
            | none => rfl
            | some l =>
              simp only [above, decide_eq_true_eq] at ha hk ⊢
              omega
        · have hb' : (b != 0) = true := by simpa using hb
          simp only [write, hb, lt_irrefl, if_true, if_false, wfFrom, ha, hb', ht]
          rfl
      · have hka : above (some k) a = true := by
          simp only [above, decide_eq_true_eq]
          omega
        simp only [write, h1, h2, if_false, wfFrom, hl, hx, ih ht hka]
        rfl

theorem write_wf {m : Memory} (h : wf m = true) (a : Nat) (b : Byte) : wf (write m a b) = true :=
  write_wfFrom h a b rfl

/-- The addresses a write lists. -/
theorem mem_write {m : Memory} {a : Nat} {b : Byte} {c : Host.Cell} (h : c ∈ write m a b) : c.1 = a ∨ c ∈ m := by
  induction m with
  | nil =>
    by_cases hb : b = 0#8
    · simp [write, hb] at h
    · simp [write, hb] at h
      exact .inl (by rw [h])
  | cons d t ih =>
    obtain ⟨k, x⟩ := d
    simp only [write] at h
    split at h
    · split at h
      · exact .inr h
      · rcases List.mem_cons.1 h with rfl | h
        · exact .inl rfl
        · exact .inr h
    · split at h
      · split at h
        · exact .inr (List.mem_cons_of_mem _ h)
        · rcases List.mem_cons.1 h with rfl | h
          · exact .inl rfl
          · exact .inr (List.mem_cons_of_mem _ h)
      · rcases List.mem_cons.1 h with rfl | h
        · exact .inr (List.mem_cons_self ..)
        · exact (ih h).imp id (List.mem_cons_of_mem _)

theorem writeWord_wf {m : Memory} (h : wf m = true) (a : Nat) (v : Word) : wf (writeWord m a v) = true :=
  write_wf (write_wf h _ _) _ _

/-- A word write leaves every address outside its two bytes alone. -/
theorem read_writeWord_other {m : Memory} (h : wf m = true) {a c : Nat} (v : Word) (h1 : c ≠ a) (h2 : c ≠ a + 1) :
    read (writeWord m a v) c = read m c := by
  rw [writeWord, read_write_other (lo := none) (write_wf h _ _) _ h2, read_write_other (lo := none) h _ h1]

/-- A word reads back (R123). -/
theorem readWord_writeWord {m : Memory} (h : wf m = true) (a : Nat) (v : Word) :
    readWord (writeWord m a v) a = v := by
  have e1 : read (writeWord m a v) a = v.extractLsb' 8 8 := by
    rw [writeWord, read_write_other (lo := none) (write_wf h _ _) _ (by omega), read_write_same (lo := none) h]
  have e2 : read (writeWord m a v) (a + 1) = v.extractLsb' 0 8 := by
    rw [writeWord, read_write_same (lo := none) (write_wf h _ _)]
  rw [readWord, e1, e2]
  ext i hi
  simp only [BitVec.getElem_append, BitVec.getElem_extractLsb']
  split
  · simp [← BitVec.getLsbD_eq_getElem]
  · rw [← BitVec.getLsbD_eq_getElem]
    congr 1
    omega

end Sys2Proof.Machine.Memory
end

