-- ==== Sys2Proof/Laws/Pointers.lean ====
section
/-! SUPPORT. Pointers: the bits a wrapped pointer keeps, and that every pointer operation gives an even pointer inside
`CHIP_ADDR_BITS`; address reduction. -/

namespace Sys2Proof.Machine

theorem testBit_two_pow_sub_two (n i : Nat) (hn : 1 ≤ n) :
    (2 ^ n - 2).testBit i = (decide (1 ≤ i) && decide (i < n)) := by
  obtain ⟨k, rfl⟩ : ∃ k, n = k + 1 := ⟨n - 1, by omega⟩
  have h : 2 ^ (k + 1) - 2 = 2 * (2 ^ k - 1) := by rw [pow_succ]; omega
  cases i with
  | zero => rw [h]; simp
  | succ j => rw [h, Nat.testBit_succ, Nat.mul_div_cancel_left _ (by omega), Nat.testBit_two_pow_sub_one]; simp

/-- The bits of a wrapped pointer (R12, R45). -/
theorem wrapPtr_getLsbD (cfg : Config) (p : Ptr) (i : Nat) (h : 1 ≤ cfg.chipAddrBits) :
    (wrapPtr cfg p).getLsbD i = (decide (1 ≤ i) && decide (i < cfg.chipAddrBits) && p.getLsbD i) := by
  simp only [wrapPtr, BitVec.getLsbD_and, BitVec.getLsbD_ofNat, testBit_two_pow_sub_two _ _ h]
  by_cases hi : i < 21
  · simp [hi, Bool.and_comm]
  · simp [BitVec.getLsbD_of_ge p i (by omega)]

/-- A wrapped pointer is even and inside `CHIP_ADDR_BITS`, whatever the width. -/
theorem wrapPtr_ok (cfg : Config) (p : Ptr) : PtrOk cfg (wrapPtr cfg p) := by
  have e : (wrapPtr cfg p).toNat = p.toNat &&& ((2 ^ cfg.chipAddrBits - 2) % 2 ^ 21) := by
    simp [wrapPtr, BitVec.toNat_and, BitVec.toNat_ofNat]
  have h2 : ((2 ^ cfg.chipAddrBits - 2) % 2 ^ 21) % 2 = 0 := by
    rw [Nat.mod_mod_of_dvd _ (by norm_num)]
    rcases Nat.eq_zero_or_pos cfg.chipAddrBits with h | h
    · simp [h]
    · obtain ⟨k, hk⟩ : ∃ k, cfg.chipAddrBits = k + 1 := ⟨cfg.chipAddrBits - 1, by omega⟩
      rw [hk, pow_succ]
      omega
  refine ⟨?_, ?_⟩
  · rw [e]
    have h1 : p.toNat &&& ((2 ^ cfg.chipAddrBits - 2) % 2 ^ 21) ≤ 2 ^ cfg.chipAddrBits - 2 :=
      le_trans Nat.and_le_right (Nat.mod_le _ _)
    have := Nat.two_pow_pos cfg.chipAddrBits
    omega
  · rw [e, Nat.and_mod_two_pow (n := 1), h2]
    simp

theorem ptrAdd_ok (cfg : Config) (p d : Ptr) : PtrOk cfg (ptrAdd cfg p d) := wrapPtr_ok _ _
theorem ptrSetHigh_ok (cfg : Config) (p : Ptr) (v : Word) : PtrOk cfg (ptrSetHigh cfg p v) := wrapPtr_ok _ _
theorem ptrSetLow_ok (cfg : Config) (p : Ptr) (v : Word) : PtrOk cfg (ptrSetLow cfg p v) := wrapPtr_ok _ _

/-! ## Address reduction (R122) -/

theorem reduceAddr_even (cfg : Config) (a : Nat) : reduceAddr cfg a % 2 = 0 := by
  simp only [reduceAddr]
  omega

/-- A reduced word lies whole inside the installed bytes, or in the first two where one byte is installed. -/
theorem reduceAddr_installed (cfg : Config) (a : Nat) (h0 : 0 < cfg.chipRamBytes)
    (h2 : cfg.chipRamBytes = 1 ∨ cfg.chipRamBytes % 2 = 0) : reduceAddr cfg a + 1 < max cfg.chipRamBytes 2 := by
  have := Nat.mod_lt (a % 2 ^ cfg.chipAddrBits) h0
  simp only [reduceAddr, reduceByte]
  omega

theorem reduceByte_installed (cfg : Config) (a : Nat) (h0 : 0 < cfg.chipRamBytes) :
    reduceByte cfg a < cfg.chipRamBytes := Nat.mod_lt _ h0

/-- Inside R10 the installed bytes are one or an even number above 0. -/
theorem valid_ram {cfg : Config} (h : cfg.valid = true) :
    0 < cfg.chipRamBytes ∧ (cfg.chipRamBytes = 1 ∨ cfg.chipRamBytes % 2 = 0) := by
  simp only [Config.valid, Config.constraints, List.all_cons, List.all_nil, Bool.and_eq_true, decide_eq_true_eq,
    beq_iff_eq, Bool.and_true] at h
  obtain ⟨-, -, -, -, -, -, -, -, ⟨-, h2⟩, -⟩ := h
  cases hk : Nat.log2 cfg.chipRamBytes with
  | zero => rw [hk] at h2; omega
  | succ k =>
    rw [hk, pow_succ] at h2
    have := Nat.two_pow_pos k
    omega

end Sys2Proof.Machine
end

