-- ==== Sys2Proof/Laws/Vectors.lean ====
section
/-! SUPPORT. The elements of a mapped vector. -/

namespace Sys2Proof.Machine

@[simp] theorem vmap_getElem {α β : Type} {n : Nat} (f : α → β) (v : Vector α n) (i : Nat) (hi : i < n) :
    (vmap f v)[i] = f v[i] := by
  obtain ⟨⟨l⟩, hl⟩ := v
  simp [vmap, Vector.toList]

@[simp] theorem vmapIdx_getElem {α β : Type} {n : Nat} (f : Fin n → α → β) (v : Vector α n) (i : Nat) (hi : i < n) :
    (vmapIdx f v)[i] = f ⟨i, hi⟩ v[i] := by
  simp [vmapIdx]

/-- A vector with one element replaced, element by element. -/
theorem set_getElem {α : Type} {n : Nat} (v : Vector α n) (i j : Fin n) (x : α) :
    (v.set i x)[j] = if i = j then x else v[j] := by
  simp only [Fin.getElem_fin, Vector.getElem_set, Fin.ext_iff]

/-- Every element of a vector meets a predicate. -/
def ForAll {α : Type} {n : Nat} (f : α → Prop) (v : Vector α n) : Prop := ∀ i : Fin n, f v[i]

theorem ForAll.set {α : Type} {n : Nat} {f : α → Prop} {v : Vector α n} (h : ForAll f v) (i : Fin n) {x : α}
    (hx : f x) : ForAll f (v.set i x) := by
  intro j
  rw [set_getElem]
  split
  · exact hx
  · exact h j

theorem ForAll.vmap {α β : Type} {n : Nat} {g : α → Prop} {f : β → Prop} {k : α → β} {v : Vector α n}
    (h : ForAll g v) (hk : ∀ x, g x → f (k x)) : ForAll f (vmap k v) := by
  intro j
  rw [Fin.getElem_fin, vmap_getElem]
  exact hk _ (h j)

end Sys2Proof.Machine
end

