-- ==== Sys2Proof/Laws/UnitsKept.lean ====
section
/-! SUPPORT. Every operation keeps the raster inside its frame, chip RAM canonical and installed, and every unit inside
its bounds. -/

namespace Sys2Proof.Machine

/-! ## Raster (R32 to R34, R192) -/

/-- One position on: inside the frame, exactly one slot further. -/
theorem advancePosition_ok {cfg : Config} {r : Raster} (hl : r.line < cfg.fieldHeight) (hc : r.cycle < cfg.lineLength) :
    (advancePosition cfg r).line < cfg.fieldHeight ∧ (advancePosition cfg r).cycle < cfg.lineLength ∧
      (advancePosition cfg r).lof = r.lof ∧ (advancePosition cfg r).residualTicks = r.residualTicks ∧
      slotIndex cfg (advancePosition cfg r) = slotIndex cfg r + 1 := by
  unfold advancePosition
  split
  · rename_i h1
    split
    · rename_i h2
      refine ⟨by dsimp only; omega, by dsimp only; omega, rfl, rfl, ?_⟩
      have e : (r.frameCount + 1) * cfg.fieldHeight = r.frameCount * cfg.fieldHeight + r.line + 1 := by
        rw [add_mul, ← h2]
        omega
      have e2 : cfg.lineLength = r.cycle + 1 := h1.symm
      simp only [slotIndex, e, add_mul, e2]
      ring
    · rename_i h2
      refine ⟨by dsimp only; omega, by dsimp only; omega, rfl, rfl, ?_⟩
      have e2 : cfg.lineLength = r.cycle + 1 := h1.symm
      simp only [slotIndex, e2]
      ring
  · rename_i h1
    refine ⟨hl, by dsimp only; omega, rfl, rfl, ?_⟩
    simp only [slotIndex]
    omega

theorem rasterOk_of {s t : State} (h : RasterOk s) (hc : t.cfg = s.cfg) (hr : t.raster = s.raster) : RasterOk t :=
  ⟨by rw [hr, hc]; exact h.line, by rw [hr, hc]; exact h.cycle, by rw [hr]; exact h.lof,
    by rw [hr]; exact h.residual⟩

theorem slotEnd_rasterOk {s : State} (h : RasterOk s) : RasterOk (slotEnd s) := by
  have ha := advancePosition_ok h.line h.cycle
  refine ⟨?_, ?_, ?_, ?_⟩ <;> rw [slotEnd_raster]
  · rw [slotEnd_cfg]; exact ha.1
  · rw [slotEnd_cfg]; exact ha.2.1
  · rw [ha.2.2.1]; exact h.lof
  · rw [ha.2.2.2.1]; exact h.residual

/-- A register write leaves the configuration, chip RAM, the raster and the output alone. -/
theorem writeOffset_frame {agent : Agent} {o : Offset} {v : Word} {s t : State}
    (hw : writeOffset agent o v s = .next t) :
    t.cfg = s.cfg ∧ t.mem = s.mem ∧ t.raster = s.raster ∧ t.output = s.output ∧ t.video = s.video ∧
      t.sinkInstalled = s.sinkInstalled := by
  rcases writeOffset_cases hw with rfl | ⟨r, -, -, rfl⟩ | ⟨-, -, rfl⟩ | ⟨r, -, -, rfl⟩
  · simp
  · simp
  · simp
  · exact ⟨rfl, rfl, rfl, rfl, rfl, rfl⟩

/-- An instruction leaves the configuration, chip RAM, the raster and the output alone. -/
theorem exec_frame {i : Instr} {s t : State} (he : exec i s = .next t) :
    t.cfg = s.cfg ∧ t.mem = s.mem ∧ t.raster = s.raster ∧ t.output = s.output ∧ t.video = s.video ∧
      t.sinkInstalled = s.sinkInstalled := by
  cases i with
  | move ign dest data => exact writeOffset_frame he
  | wait vp hp bfd ve he' =>
    simp only [exec, execWait, Host.Outcome.next.injEq] at he
    subst he
    simp
  | skip vp hp bfd ve he' =>
    simp only [exec, execSkip, Host.Outcome.next.injEq] at he
    subst he
    simp

/-- The operation of a granted channel leaves the configuration, the raster and the output alone. -/
theorem performGrant_frame {g : Grant} {s t : State} (hg : performGrant g s = .next t) :
    t.cfg = s.cfg ∧ t.raster = s.raster ∧ t.output = s.output ∧ t.video = s.video ∧
      t.sinkInstalled = s.sinkInstalled := by
  cases g with
  | channel c =>
    cases c with
    | copper =>
      have := exec_frame (s := copperFetch s) (t := t) hg
      exact ⟨this.1, this.2.2.1, this.2.2.2.1, this.2.2.2.2.1, this.2.2.2.2.2⟩
    | blitter =>
      simp only [performGrant, Host.Outcome.next.injEq] at hg
      rw [← hg, blitterStep_frame]
      simp
    | bitplane =>
      simp only [performGrant, Host.Outcome.next.injEq] at hg
      rw [← hg, bitplaneFetch_frame]
      simp
    | sprite n =>
      simp only [performGrant, Host.Outcome.next.injEq] at hg
      rw [← hg, spriteFetch_frame]
      simp
    | disk =>
      simp only [performGrant, Host.Outcome.next.injEq] at hg
      rw [← hg, diskStep_frame]
      simp
    | audio n =>
      simp only [performGrant, Host.Outcome.next.injEq] at hg
      rw [← hg, audioStep_frame]
      simp
  | cpu =>
    simp only [performGrant, Host.Outcome.next.injEq] at hg
    simp [← hg]
  | idle =>
    simp only [performGrant, Host.Outcome.next.injEq] at hg
    simp [← hg]

/-- An input leaves the configuration, chip RAM, the raster, the output assembler and the sink's record alone. -/
theorem performInput_frame (i : Input) (s : State) :
    (performInput i s).cfg = s.cfg ∧ (performInput i s).mem = s.mem ∧ (performInput i s).raster = s.raster ∧
      (performInput i s).output = s.output ∧ (performInput i s).video = s.video ∧
      (performInput i s).planes = s.planes ∧ (performInput i s).sprites = s.sprites ∧
      (performInput i s).blitter = s.blitter ∧ (performInput i s).copper = s.copper := by
  cases i with
  | diskWordIn w => unfold performInput diskWordIn; dsimp only; split <;> simp
  | diskWordOut => unfold performInput diskWordOut; dsimp only; split <;> simp
  | _ => exact ⟨rfl, rfl, rfl, rfl, rfl, rfl, rfl, rfl, rfl⟩

/-- A read access changes the answers and the draw count alone. -/
theorem performRead_frame {t : Target} {w : Width} {s u : State} (h : performRead t w s = .next u) :
    u = { s with responses := u.responses, drawCount := u.drawCount } := by
  have hr : ∀ o, (readOffset o s).2 = { s with drawCount := (readOffset o s).2.drawCount } := by
    intro o
    unfold readOffset
    split <;> rfl
  cases t with
  | register o =>
    cases w with
    | word =>
      unfold performRead at h
      dsimp only at h
      split at h
      · simp at h
      · simp only [Host.Outcome.next.injEq] at h
        rw [← h, hr]
        rfl
    | byte =>
      simp only [performRead, Host.Outcome.next.injEq] at h
      rw [← h, hr]
      rfl
  | chipRam a =>
    cases w with
    | word =>
      unfold performRead at h
      dsimp only at h
      split at h
      · simp at h
      · simp only [Host.Outcome.next.injEq] at h
        rw [← h]
        rfl
    | byte =>
      simp only [performRead, Host.Outcome.next.injEq] at h
      rw [← h]
      rfl
  | general =>
    cases w <;>
      · simp only [performRead, Host.Outcome.next.injEq] at h
        rw [← h]
        rfl

/-- What an access can do: answer, write a register, or change chip RAM alone, by a byte or a word at a reduced
address. -/
theorem performAccess_cases {a : Access} {s t : State} (h : performAccess a s = .next t) :
    (∃ responses drawCount, t = { s with responses := responses, drawCount := drawCount }) ∨
    (∃ o v, writeOffset .cpu o v s = .next t) ∨
    (∃ x v, t = { s with mem := Memory.writeWord s.mem (reduceAddr s.cfg x) v }) ∨
    (∃ x b, t = { s with mem := Memory.write s.mem (reduceByte s.cfg x) b }) := by
  cases a with
  | read tg w => exact .inl ⟨_, _, performRead_frame h⟩
  | write tg w v =>
    cases tg with
    | register o =>
      cases w with
      | word => exact .inr (.inl ⟨o, v, h⟩)
      | byte => exact .inr (.inl ⟨_, _, h⟩)
    | chipRam x =>
      cases w with
      | word =>
        unfold performAccess performWrite at h
        dsimp only at h
        split at h
        · simp at h
        · simp only [Host.Outcome.next.injEq] at h
          exact .inr (.inr (.inl ⟨x, v, h.symm⟩))
      | byte =>
        simp only [performAccess, performWrite, Host.Outcome.next.injEq] at h
        exact .inr (.inr (.inr ⟨x, _, h.symm⟩))
    | general =>
      cases w <;>
        · simp only [performAccess, performWrite, Host.Outcome.next.injEq] at h
          subst h
          exact .inl ⟨s.responses, s.drawCount, rfl⟩

/-- A property kept by register writes and blind to chip RAM, the answers and the draw count is kept by every access. -/
theorem performAccess_preserves {P : State → Prop} (hw : ∀ o v s t, P s → writeOffset .cpu o v s = .next t → P t)
    (hm : ∀ (s : State) m r d, P s → P { s with mem := m, responses := r, drawCount := d }) {a : Access}
    {s t : State} (h : P s) (ha : performAccess a s = .next t) : P t := by
  rcases performAccess_cases ha with ⟨r, d, rfl⟩ | ⟨o, v, hw'⟩ | ⟨x, v, rfl⟩ | ⟨x, b, rfl⟩
  · exact hm s s.mem r d h
  · exact hw _ _ _ _ h hw'
  · exact hm s _ s.responses s.drawCount h
  · exact hm s _ s.responses s.drawCount h

/-! ## Chip RAM (R120, R122) -/

theorem writeWord_memoryOk {s : State} (h : MemoryOk s) (hv : s.cfg.valid = true) (x : Nat) (v : Word) {t : State}
    (hc : t.cfg = s.cfg) (hm : t.mem = Memory.writeWord s.mem (reduceAddr s.cfg x) v) : MemoryOk t := by
  obtain ⟨h0, h2⟩ := valid_ram hv
  have hi := reduceAddr_installed s.cfg x h0 h2
  refine ⟨by rw [hm]; exact Memory.writeWord_wf h.canonical _ _, fun c hcm => ?_⟩
  rw [hm, Memory.writeWord] at hcm
  rw [hc]
  rcases Memory.mem_write hcm with e | hcm
  · omega
  · rcases Memory.mem_write hcm with e | hcm
    · omega
    · exact h.installed c hcm

theorem write_memoryOk {s : State} (h : MemoryOk s) (hv : s.cfg.valid = true) (x : Nat) (b : Byte) {t : State}
    (hc : t.cfg = s.cfg) (hm : t.mem = Memory.write s.mem (reduceByte s.cfg x) b) : MemoryOk t := by
  have hi := reduceByte_installed s.cfg x (valid_ram hv).1
  refine ⟨by rw [hm]; exact Memory.write_wf h.canonical _ _, fun c hcm => ?_⟩
  rw [hm] at hcm
  rw [hc]
  rcases Memory.mem_write hcm with e | hcm
  · omega
  · exact h.installed c hcm

theorem memoryOk_of {s t : State} (h : MemoryOk s) (hc : t.cfg = s.cfg) (hm : t.mem = s.mem) : MemoryOk t :=
  ⟨by rw [hm]; exact h.canonical, by rw [hm, hc]; exact h.installed⟩

theorem diskTransfer_mem (s : State) :
    (diskTransfer s).mem = if s.disk.dir = .read then
      Memory.writeWord s.mem (reduceAddr s.cfg s.disk.ptr.toNat) s.disk.buf else s.mem := by
  unfold diskTransfer
  cases s.disk.dir <;> rfl

theorem diskStep_mem (s : State) : (diskStep s).mem = (diskTransfer s).mem := by
  unfold diskStep
  dsimp only
  split <;> rfl

theorem blitterStep_mem (s : State) :
    (blitterStep s).mem = if blitIsLast s.blitter.latch0 s.blitter.step ∧ s.blitter.step = .d then
      Memory.writeWord s.mem (reduceAddr s.cfg s.blitter.dpt.toNat) (Blitter.readStep s).outputWord.2 else s.mem := by
  have e1 : (Blitter.readStep s).latch0 = s.blitter.latch0 := by rw [readStep_frame]
  have e2 : (Blitter.readStep s).dpt = s.blitter.dpt := by rw [readStep_frame]
  rw [blitterStep_eq]
  dsimp only
  rw [e1, e2, readStep_step]
  split
  · rename_i h1
    simp [h1]
  · rename_i h1
    simp [h1]

theorem performGrant_memoryOk {c : Channel} {s t : State} (h : MemoryOk s) (hv : s.cfg.valid = true)
    (hg : performGrant (.channel c) s = .next t) : MemoryOk t := by
  have hc := (performGrant_frame hg).1
  cases c with
  | copper => exact memoryOk_of h hc (exec_frame (s := copperFetch s) (t := t) hg).2.1
  | blitter =>
    simp only [performGrant, Host.Outcome.next.injEq] at hg
    by_cases hw : blitIsLast s.blitter.latch0 s.blitter.step ∧ s.blitter.step = .d
    · exact writeWord_memoryOk h hv s.blitter.dpt.toNat _ hc (by rw [← hg, blitterStep_mem, if_pos hw])
    · exact memoryOk_of h hc (by rw [← hg, blitterStep_mem, if_neg hw])
  | bitplane =>
    simp only [performGrant, Host.Outcome.next.injEq] at hg
    exact memoryOk_of h hc (by rw [← hg, bitplaneFetch_frame])
  | sprite n =>
    simp only [performGrant, Host.Outcome.next.injEq] at hg
    exact memoryOk_of h hc (by rw [← hg, spriteFetch_frame])
  | disk =>
    simp only [performGrant, Host.Outcome.next.injEq] at hg
    by_cases hw : s.disk.dir = .read
    · exact writeWord_memoryOk h hv s.disk.ptr.toNat _ hc (by rw [← hg, diskStep_mem, diskTransfer_mem, if_pos hw])
    · exact memoryOk_of h hc (by rw [← hg, diskStep_mem, diskTransfer_mem, if_neg hw])
  | audio n =>
    simp only [performGrant, Host.Outcome.next.injEq] at hg
    exact memoryOk_of h hc (by rw [← hg, audioStep_frame])

theorem performAccess_memoryOk {a : Access} {s t : State} (h : MemoryOk s) (hv : s.cfg.valid = true)
    (ha : performAccess a s = .next t) : MemoryOk t := by
  rcases performAccess_cases ha with ⟨r, d, rfl⟩ | ⟨o, v, hw⟩ | ⟨x, v, rfl⟩ | ⟨x, b, rfl⟩
  · exact memoryOk_of h rfl rfl
  · exact memoryOk_of h (writeOffset_frame hw).1 (writeOffset_frame hw).2.1
  · exact writeWord_memoryOk h hv x v rfl rfl
  · exact write_memoryOk h hv x b rfl rfl

end Sys2Proof.Machine
end

