-- ==== Sys2Proof/Laws/BoundsKept.lean ====
section
/-! SUPPORT. Every operation keeps the bounds of Safety.lean, unit by unit. -/

namespace Sys2Proof.Machine

/-! ## Reserved bits (R40 to R43) -/

/-- The reserved bits of the four SET/CLR registers. -/
def RegBits (dmacon enable request adkcon : Word) : Prop :=
  dmacon &&& 0xF800 = 0 ∧ enable.getLsbD 15 = false ∧ request.getLsbD 15 = false ∧ adkcon.getLsbD 15 = false

theorem registersOk_iff (s : State) : RegistersOk s ↔ RegBits s.dmacon s.irq.enable s.irq.request s.adkcon :=
  ⟨fun h => ⟨h.dmacon, h.enable, h.request, h.adkcon⟩, fun ⟨a, b, c, d⟩ => ⟨a, b, c, d⟩⟩

theorem setClr_getLsbD (mask old v : Word) (i : Nat) (hi : i < 16) :
    (setClr mask old v).getLsbD i =
      if v.getLsbD 15 then old.getLsbD i || (v.getLsbD i && mask.getLsbD i)
      else old.getLsbD i && !(v.getLsbD i && mask.getLsbD i) := by
  unfold setClr
  split <;> simp [hi]

/-- A SET/CLR write changes no bit outside the mask. -/
theorem setClr_outside (mask old v m : Word) (h : mask &&& m = 0) (ho : old &&& m = 0) : setClr mask old v &&& m = 0 := by
  apply BitVec.eq_of_getLsbD_eq
  intro i hi
  have h1 := congrArg (·.getLsbD i) h
  have h2 := congrArg (·.getLsbD i) ho
  simp only [BitVec.getLsbD_and] at h1 h2 ⊢
  rw [setClr_getLsbD _ _ _ _ hi]
  split <;> revert h1 h2 <;> cases mask.getLsbD i <;> cases m.getLsbD i <;> cases old.getLsbD i <;> simp

theorem setClr_bit15 (old v : Word) (h : old.getLsbD 15 = false) : (setClr 0x7FFF old v).getLsbD 15 = false := by
  rw [setClr_getLsbD _ _ _ _ (by omega), h]
  simp

theorem setRequest_bits (q : Irq) (b : IrqBit) (h : q.request.getLsbD 15 = false) :
    (q.setRequest b).enable = q.enable ∧ (q.setRequest b).request.getLsbD 15 = false := by
  refine ⟨rfl, ?_⟩
  simp only [Irq.setRequest, Irq.withMasks, BitVec.getLsbD_or, h, Bool.false_or]
  cases b with
  | aud n => revert n; decide
  | _ => decide

/-- The masks' top bits. -/
def Irq.TopClear (q : Irq) : Prop := q.enable.getLsbD 15 = false ∧ q.request.getLsbD 15 = false

theorem setRequest_topClear {q : Irq} (h : q.TopClear) (b : IrqBit) : (q.setRequest b).TopClear :=
  ⟨h.1, (setRequest_bits q b h.2).2⟩

theorem setRequest_if_topClear {q : Irq} (h : q.TopClear) (c : Bool) (b : IrqBit) :
    (if c then q.setRequest b else q).TopClear := by
  cases c
  · exact h
  · exact setRequest_topClear h b

theorem samplePeripherals_topClear {s : State} (h : s.irq.TopClear) : (samplePeripherals s).irq.TopClear := by
  rw [samplePeripherals_eq]
  exact setRequest_if_topClear (setRequest_if_topClear (setRequest_if_topClear (setRequest_if_topClear
    (setRequest_if_topClear h _ _) _ _) _ _) _ _) _ _

theorem slotStart_registersOk {s : State} (h : RegistersOk s) : RegistersOk (slotStart s) := by
  have hq := samplePeripherals_topClear (s := s) ⟨h.enable, h.request⟩
  have ht : (slotStart s).irq.TopClear := by
    rw [slotStart_irq]
    split
    · exact setRequest_topClear hq _
    · exact hq
  exact ⟨by rw [slotStart_dmacon]; exact h.dmacon, ht.1, ht.2, by rw [slotStart_adkcon]; exact h.adkcon⟩

theorem audioEnableChange_topClear {s : State} (before : Word) (n : Fin 4) (h : s.irq.TopClear) :
    (audioEnableChange before s n).irq.TopClear := by
  unfold audioEnableChange
  dsimp only
  split
  · exact setRequest_topClear h _
  · split <;> exact h

theorem writeDmacon_topClear {s : State} (v : Word) (h : s.irq.TopClear) : (writeDmacon v s).irq.TopClear := by
  unfold writeDmacon
  generalize hs : ({ s with dmacon := setClr 0x07FF s.dmacon v } : State) = s'
  replace h : s'.irq.TopClear := by rw [← hs]; exact h
  clear hs
  generalize ([0, 1, 2, 3] : List (Fin 4)) = l
  induction l generalizing s' with
  | nil => exact h
  | cons n l ih => exact ih _ (audioEnableChange_topClear _ n h)

theorem storeReg_registersOk {s : State} (r : Reg) (v : Word) (h : RegistersOk s) : RegistersOk (storeReg r v s) := by
  cases r with
  | dmacon =>
    have ht := writeDmacon_topClear v (s := s) ⟨h.enable, h.request⟩
    rw [storeReg]
    refine ⟨?_, ht.1, ht.2, ?_⟩
    · rw [writeDmacon_frame]; exact setClr_outside _ _ _ _ (by decide) h.dmacon
    · rw [writeDmacon_frame]; exact h.adkcon
  | bplcon0 => rw [storeReg, writeBplcon0_frame]; exact ⟨h.dmacon, h.enable, h.request, h.adkcon⟩
  | intena => exact ⟨h.dmacon, setClr_bit15 _ _ h.enable, h.request, h.adkcon⟩
  | intreq => exact ⟨h.dmacon, h.enable, setClr_bit15 _ _ h.request, h.adkcon⟩
  | adkcon => exact ⟨h.dmacon, h.enable, h.request, setClr_bit15 _ _ h.adkcon⟩
  | _ => exact ⟨h.dmacon, h.enable, h.request, h.adkcon⟩

theorem writeOffset_registersOk {agent : Agent} {o : Offset} {v : Word} {s t : State} (h : RegistersOk s)
    (hw : writeOffset agent o v s = .next t) : RegistersOk t :=
  writeOffset_preserves (P := RegistersOk) (fun r v _ h => storeReg_registersOk r v h)
    (fun _ _ h => ⟨h.dmacon, h.enable, h.request, h.adkcon⟩)
    (fun _ _ h => ⟨h.dmacon, h.enable, h.request, h.adkcon⟩) h hw

/-- The two registers and the masks of a state whose DMACON and ADKCON are those of `s`. -/
theorem registersOk_of {s t : State} (h : RegistersOk s) (hd : t.dmacon = s.dmacon) (ha : t.adkcon = s.adkcon)
    (ht : t.irq.TopClear) : RegistersOk t :=
  ⟨by rw [hd]; exact h.dmacon, ht.1, ht.2, by rw [ha]; exact h.adkcon⟩

theorem performGrant_registersOk {c : Channel} {s t : State} (h : RegistersOk s)
    (hg : performGrant (.channel c) s = .next t) : RegistersOk t := by
  have hq : s.irq.TopClear := ⟨h.enable, h.request⟩
  cases c with
  | copper =>
    exact copperStep_preserves (P := RegistersOk) (fun _ _ _ _ _ h hw => writeOffset_registersOk h hw)
      (fun _ _ _ _ h => ⟨h.dmacon, h.enable, h.request, h.adkcon⟩)
      (fun _ _ _ _ _ h => ⟨h.dmacon, h.enable, h.request, h.adkcon⟩)
      (fun _ _ h => ⟨h.dmacon, h.enable, h.request, h.adkcon⟩)
      (fun _ _ h => ⟨h.dmacon, h.enable, h.request, h.adkcon⟩) h hg
  | blitter =>
    simp only [performGrant, Host.Outcome.next.injEq] at hg
    subst hg
    refine registersOk_of h (by rw [blitterStep_frame]) (by rw [blitterStep_frame]) ?_
    rw [blitterStep_eq]
    dsimp only
    split
    · exact setRequest_if_topClear hq _ _
    · exact hq
  | bitplane =>
    simp only [performGrant, Host.Outcome.next.injEq] at hg
    rw [← hg, bitplaneFetch_frame]
    exact ⟨h.dmacon, h.enable, h.request, h.adkcon⟩
  | sprite n =>
    simp only [performGrant, Host.Outcome.next.injEq] at hg
    rw [← hg, spriteFetch_frame]
    exact ⟨h.dmacon, h.enable, h.request, h.adkcon⟩
  | disk =>
    simp only [performGrant, Host.Outcome.next.injEq] at hg
    subst hg
    refine registersOk_of h (by rw [diskStep_frame]) (by rw [diskStep_frame]) ?_
    unfold diskStep
    rw [diskTransfer_frame]
    dsimp only
    split
    · exact setRequest_topClear hq _
    · exact hq
  | audio n =>
    simp only [performGrant, Host.Outcome.next.injEq] at hg
    subst hg
    refine registersOk_of h (by rw [audioStep_frame]) (by rw [audioStep_frame]) ?_
    unfold audioStep
    dsimp only
    split
    · exact setRequest_topClear hq _
    · exact hq

theorem performInput_registersOk {s : State} (i : Input) (h : RegistersOk s) : RegistersOk (performInput i s) := by
  cases i with
  | diskWordIn w =>
    unfold performInput diskWordIn
    dsimp only
    split <;> exact ⟨h.dmacon, h.enable, h.request, h.adkcon⟩
  | diskWordOut =>
    unfold performInput diskWordOut
    dsimp only
    split <;> exact ⟨h.dmacon, h.enable, h.request, h.adkcon⟩
  | _ => exact ⟨h.dmacon, h.enable, h.request, h.adkcon⟩

/-! ## The Blitter (R60, R284) -/

/-- The bounds of a Blitter. -/
def Blitter.Ok (b : Blitter) : Prop :=
  b.busy = true → b.width ≤ 64 ∧ b.height ≤ 1024 ∧ b.wordX < b.width ∧ 0 < b.linesLeft ∧ b.linesLeft ≤ b.height ∧
    b.step ∈ blitSequence b.latch0

theorem blitterOk_iff (s : State) : BlitterOk s ↔ s.blitter.Ok :=
  ⟨fun h hb => ⟨h.width hb, h.height hb, h.wordX hb, (h.lines hb).1, (h.lines hb).2, h.step hb⟩,
    fun h => ⟨fun hb => (h hb).1, fun hb => (h hb).2.1, fun hb => (h hb).2.2.1,
      fun hb => ⟨(h hb).2.2.2.1, (h hb).2.2.2.2.1⟩, fun hb => (h hb).2.2.2.2.2⟩⟩

/-- The sequence as a function of the four enables. -/
theorem blitSequence_eq (con0 : Word) :
    blitSequence con0 =
      match useA con0, useB con0, useC con0, useD con0 with
      | false, false, false, false => [.idleCycle]
      | a, b, c, d => (if a then [.a] else []) ++ (if b then [.b] else []) ++ (if c then [.c] else [])
          ++ (if d then [.d] else []) := by
  unfold blitSequence
  cases useA con0 <;> cases useB con0 <;> cases useC con0 <;> cases useD con0 <;> rfl

theorem blitFirstStep_mem (con0 : Word) : blitFirstStep con0 ∈ blitSequence con0 := by
  unfold blitFirstStep blitSequence
  cases useA con0 <;> cases useB con0 <;> cases useC con0 <;> cases useD con0 <;> decide

theorem blitNextStep_mem (con0 : Word) (st : BlitStep) : blitNextStep con0 st ∈ blitSequence con0 := by
  unfold blitNextStep blitFirstStep blitSequence
  cases useA con0 <;> cases useB con0 <;> cases useC con0 <;> cases useD con0 <;> cases st <;> decide

theorem sizeWidth_bounds (v : Word) : 0 < sizeWidth v ∧ sizeWidth v ≤ 64 := by
  unfold sizeWidth
  split
  · omega
  · rename_i h
    have : (v.extractLsb' 0 6).toNat ≠ 0 := fun e => h (BitVec.eq_of_toNat_eq e)
    have := (v.extractLsb' 0 6).isLt
    omega

theorem sizeHeight_bounds (v : Word) : 0 < sizeHeight v ∧ sizeHeight v ≤ 1024 := by
  unfold sizeHeight
  split
  · omega
  · rename_i h
    have : (v.extractLsb' 6 10).toNat ≠ 0 := fun e => h (BitVec.eq_of_toNat_eq e)
    have := (v.extractLsb' 6 10).isLt
    omega

theorem arm_ok (b : Blitter) (v : Word) : (b.arm v).Ok := fun _ =>
  ⟨(sizeWidth_bounds v).2, (sizeHeight_bounds v).2, (sizeWidth_bounds v).1, (sizeHeight_bounds v).1, Nat.le_refl _,
    blitFirstStep_mem b.con0⟩

theorem wordDone_ok {cfg : Config} {b : Blitter} (h : b.Ok) : (b.wordDone cfg).Ok := by
  unfold Blitter.wordDone
  split
  · intro hb
    have hbb : b.busy = true ∧ b.linesLeft - 1 ≠ 0 := by
      simpa [Blitter.endOfLine, Blitter.addModulos] using hb
    obtain ⟨h1, h2, h3, h4, h5, h6⟩ := h hbb.1
    refine ⟨h1, h2, ?_, ?_, ?_, blitFirstStep_mem _⟩
    · show 0 < b.width
      omega
    · show 0 < b.linesLeft - 1
      omega
    · show b.linesLeft - 1 ≤ b.height
      omega
  · rename_i hl
    intro hb
    obtain ⟨h1, h2, h3, h4, h5, h6⟩ := h hb
    have hx : b.wordX + 1 ≠ b.width := by simpa [Blitter.lineEnds] using hl
    refine ⟨h1, h2, ?_, h4, h5, blitFirstStep_mem _⟩
    show b.wordX + 1 < b.width
    omega

theorem blitterStep_ok {s : State} (h : s.blitter.Ok) : (blitterStep s).blitter.Ok := by
  have hr : (Blitter.readStep s).Ok := by
    have e : (Blitter.readStep s).step = s.blitter.step := readStep_step s
    rw [readStep_frame]
    exact h
  rw [blitterStep_eq]
  dsimp only
  split
  · apply wordDone_ok
    exact hr
  · intro hb
    obtain ⟨h1, h2, h3, h4, h5, -⟩ := hr hb
    exact ⟨h1, h2, h3, h4, h5, blitNextStep_mem _ _⟩

theorem storeReg_blitterOk {s : State} (r : Reg) (v : Word) (h : s.blitter.Ok) : (storeReg r v s).blitter.Ok := by
  cases r with
  | dmacon => rw [storeReg, writeDmacon_frame]; exact h
  | bplcon0 => rw [storeReg, writeBplcon0_frame]; exact h
  | _ => exact h

theorem writeOffset_blitterOk {agent : Agent} {o : Offset} {v : Word} {s t : State} (h : s.blitter.Ok)
    (hw : writeOffset agent o v s = .next t) : t.blitter.Ok :=
  writeOffset_preserves (P := fun s => s.blitter.Ok) (fun r v _ h => storeReg_blitterOk r v h)
    (fun v s _ => arm_ok s.blitter v) (fun _ _ h => h) h hw

theorem performGrant_blitterOk {c : Channel} {s t : State} (h : s.blitter.Ok)
    (hg : performGrant (.channel c) s = .next t) : t.blitter.Ok := by
  cases c with
  | copper =>
    exact copperStep_preserves (P := fun s => s.blitter.Ok) (fun _ _ _ _ _ h hw => writeOffset_blitterOk h hw)
      (fun _ _ _ _ h => h) (fun _ _ _ _ _ h => h) (fun _ _ h => h) (fun _ _ h => h) h hg
  | blitter =>
    simp only [performGrant, Host.Outcome.next.injEq] at hg
    exact hg ▸ blitterStep_ok h
  | bitplane =>
    simp only [performGrant, Host.Outcome.next.injEq] at hg
    rw [← hg, bitplaneFetch_frame]; exact h
  | sprite n =>
    simp only [performGrant, Host.Outcome.next.injEq] at hg
    rw [← hg, spriteFetch_frame]; exact h
  | disk =>
    simp only [performGrant, Host.Outcome.next.injEq] at hg
    rw [← hg, diskStep_frame]; exact h
  | audio n =>
    simp only [performGrant, Host.Outcome.next.injEq] at hg
    rw [← hg, audioStep_frame]; exact h

/-! ## Bitplanes (R331) -/

/-- The bounds of the latched plane count. -/
def Planes.Ok (p : Planes) : Prop := p.linePlanes ≤ 6 ∧ (p.lineHires = true → p.linePlanes ≤ 4)

theorem planesOk_iff (s : State) : PlanesOk s ↔ s.planes.Ok :=
  ⟨fun h => ⟨h.count, h.hires⟩, fun ⟨a, b⟩ => ⟨a, b⟩⟩

theorem lineSetup_ok (p : Planes) (line : Nat) : (p.lineSetup line).Ok := by
  have hb : p.bpu ≤ 6 := Nat.min_le_right _ _
  unfold Planes.Ok Planes.lineSetup
  dsimp only
  refine ⟨?_, fun h => ?_⟩
  · split <;> omega
  · rw [if_pos h]
    omega

theorem slotStart_planesOk {s : State} (h : s.planes.Ok) : (slotStart s).planes.Ok := by
  rw [slotStart_planes]
  split
  · exact lineSetup_ok _ _
  · exact h

theorem storeReg_planesOk {s : State} (r : Reg) (v : Word) (h : s.planes.Ok) : (storeReg r v s).planes.Ok := by
  cases r with
  | dmacon => rw [storeReg, writeDmacon_frame]; exact h
  | bplcon0 => rw [storeReg, writeBplcon0_frame]; exact h
  | _ => exact h

theorem performGrant_planesOk {c : Channel} {s t : State} (h : s.planes.Ok)
    (hg : performGrant (.channel c) s = .next t) : t.planes.Ok := by
  cases c with
  | copper =>
    exact copperStep_preserves (P := fun s => s.planes.Ok)
      (fun _ _ _ _ _ h hw => writeOffset_preserves (P := fun s => s.planes.Ok) (fun r v _ h => storeReg_planesOk r v h)
        (fun _ _ h => h) (fun _ _ h => h) h hw)
      (fun _ _ _ _ h => h) (fun _ _ _ _ _ h => h) (fun _ _ h => h) (fun _ _ h => h) h hg
  | blitter =>
    simp only [performGrant, Host.Outcome.next.injEq] at hg
    rw [← hg, blitterStep_frame]; exact h
  | bitplane =>
    simp only [performGrant, Host.Outcome.next.injEq] at hg
    subst hg
    unfold bitplaneFetch
    dsimp only
    split <;> exact h
  | sprite n =>
    simp only [performGrant, Host.Outcome.next.injEq] at hg
    rw [← hg, spriteFetch_frame]; exact h
  | disk =>
    simp only [performGrant, Host.Outcome.next.injEq] at hg
    rw [← hg, diskStep_frame]; exact h
  | audio n =>
    simp only [performGrant, Host.Outcome.next.injEq] at hg
    rw [← hg, audioStep_frame]; exact h

theorem bitplaneUnitTick_planesOk {s : State} (h : s.planes.Ok) : (bitplaneUnitTick s).planes.Ok := by
  unfold bitplaneUnitTick
  dsimp only
  split
  · split <;> exact h
  · exact h

theorem slotEnd_planesOk {s : State} (h : s.planes.Ok) : (slotEnd s).planes.Ok := by
  have e : (slotEnd s).planes = (bitplaneUnitTick (outputSlot s)).planes := rfl
  rw [e]
  apply bitplaneUnitTick_planesOk
  rw [outputSlot_planes]
  exact h

/-! ## Sprites (R374) -/

/-- At most two fetches of each sprite. -/
abbrev SpritesBound (v : Vector Sprite 8) : Prop := ForAll (fun p : Sprite => p.fetched ≤ 2) v

theorem slotStart_spritesOk {s : State} (h : SpritesBound s.sprites) : SpritesBound (slotStart s).sprites := by
  rw [slotStart_sprites]
  split
  · exact ForAll.vmap (g := fun p : Sprite => p.fetched ≤ 2) h (fun x _ => Nat.zero_le 2)
  · exact h

theorem storeReg_spritesOk {s : State} (r : Reg) (v : Word) (h : SpritesBound s.sprites) :
    SpritesBound (storeReg r v s).sprites := by
  cases r with
  | dmacon => rw [storeReg, writeDmacon_frame]; exact h
  | bplcon0 => rw [storeReg, writeBplcon0_frame]; exact h
  | sprpth n => exact h.set n (h n)
  | sprptl n => exact h.set n (h n)
  | sprpos n => exact h.set n (h n)
  | sprctl n => exact h.set n (h n)
  | sprdata n => exact h.set n (h n)
  | sprdatb n => exact h.set n (h n)
  | _ => exact h

theorem performGrant_spritesOk {c : Channel} {s t : State} (h : SpritesBound s.sprites) (hw : wants s c = true)
    (hg : performGrant (.channel c) s = .next t) : SpritesBound t.sprites := by
  cases c with
  | copper =>
    exact copperStep_preserves (P := fun s => SpritesBound s.sprites)
      (fun _ _ _ _ _ h hw => writeOffset_preserves (P := fun s => SpritesBound s.sprites)
        (fun r v _ h => storeReg_spritesOk r v h) (fun _ _ h => h) (fun _ _ h => h) h hw)
      (fun _ _ _ _ h => h) (fun _ _ _ _ _ h => h) (fun _ _ h => h) (fun _ _ h => h) h hg
  | blitter =>
    simp only [performGrant, Host.Outcome.next.injEq] at hg
    rw [← hg, blitterStep_frame]; exact h
  | bitplane =>
    simp only [performGrant, Host.Outcome.next.injEq] at hg
    rw [← hg, bitplaneFetch_frame]; exact h
  | sprite n =>
    simp only [performGrant, Host.Outcome.next.injEq] at hg
    subst hg
    simp only [wants, wantsSprite, Bool.and_eq_true, decide_eq_true_eq] at hw
    exact h.set n (by show s.sprites[n].fetched + 1 ≤ 2; omega)
  | disk =>
    simp only [performGrant, Host.Outcome.next.injEq] at hg
    rw [← hg, diskStep_frame]; exact h
  | audio n =>
    simp only [performGrant, Host.Outcome.next.injEq] at hg
    rw [← hg, audioStep_frame]; exact h

theorem activate_fetched (p : Sprite) (x : Nat) : (p.activate x).fetched = p.fetched := by
  unfold Sprite.activate
  split
  · split
    · rfl
    · split <;> rfl
  · rfl

theorem slotEnd_spritesOk {s : State} (h : SpritesBound s.sprites) : SpritesBound (slotEnd s).sprites := by
  rw [slotEnd_sprites, outputSlot_sprites]
  refine ForAll.vmap (g := fun p : Sprite => p.fetched ≤ 2) (h.vmap fun x hx => ?_) fun x hx => hx
  rw [activate_fetched]
  exact hx

/-! ## Disk and audio (R411, R415, R422, R423) -/

/-- A disk transfer under way has words left. -/
def Disk.Ok (d : Disk) : Prop := d.active = true → d.left ≠ 0

/-- A running channel has words left. -/
def Audio.Ok (a : Audio) : Prop := a.running = true → a.left ≠ 0

theorem channelsOk_iff (s : State) : ChannelsOk s ↔ s.disk.Ok ∧ ForAll Audio.Ok s.audio :=
  ⟨fun h => ⟨h.disk, h.audio⟩, fun ⟨a, b⟩ => ⟨a, b⟩⟩

theorem audioLen_ne_zero (x : Word) : audioLen x ≠ 0 := by
  unfold audioLen
  split
  · decide
  · rename_i h
    intro e
    apply h
    apply BitVec.eq_of_getLsbD_eq
    intro i hi
    have := congrArg (·.getLsbD i) e
    simpa [BitVec.getLsbD_setWidth, show i < 17 by omega] using this

theorem reload_ok (a : Audio) : a.reload.Ok := fun _ => audioLen_ne_zero _

theorem audioEnableChange_ok {s : State} (before : Word) (n : Fin 4) (h : ForAll Audio.Ok s.audio) :
    ForAll Audio.Ok (audioEnableChange before s n).audio := by
  unfold audioEnableChange
  dsimp only
  split
  · exact h.set n (fun _ => audioLen_ne_zero _)
  · split
    · exact h.set n (fun hr => by simp at hr)
    · exact h

theorem writeDmacon_audioOk {s : State} (v : Word) (h : ForAll Audio.Ok s.audio) :
    ForAll Audio.Ok (writeDmacon v s).audio := by
  unfold writeDmacon
  generalize hs : ({ s with dmacon := setClr 0x07FF s.dmacon v } : State) = s'
  replace h : ForAll Audio.Ok s'.audio := by rw [← hs]; exact h
  clear hs
  generalize ([0, 1, 2, 3] : List (Fin 4)) = l
  induction l generalizing s' with
  | nil => exact h
  | cons n l ih => exact ih _ (audioEnableChange_ok _ n h)

theorem writeLen_ok {d : Disk} (h : d.Ok) (v : Word) : (d.writeLen v).Ok := by
  unfold Disk.writeLen
  split
  · intro hb
    simp at hb
  · split
    · rename_i h2
      intro _
      simp only [Bool.and_eq_true, bne_iff_ne, ne_eq] at h2
      exact h2.2
    · exact h

theorem storeReg_channelsOk {s : State} (r : Reg) (v : Word) (h : s.disk.Ok ∧ ForAll Audio.Ok s.audio) :
    (storeReg r v s).disk.Ok ∧ ForAll Audio.Ok (storeReg r v s).audio := by
  cases r with
  | dmacon =>
    refine ⟨?_, writeDmacon_audioOk v h.2⟩
    rw [storeReg, writeDmacon_frame]
    exact h.1
  | bplcon0 => rw [storeReg, writeBplcon0_frame]; exact h
  | dsklen => exact ⟨writeLen_ok h.1 v, h.2⟩
  | audlch n => exact ⟨h.1, h.2.set n (h.2 n)⟩
  | audlcl n => exact ⟨h.1, h.2.set n (h.2 n)⟩
  | audlen n => exact ⟨h.1, h.2.set n (h.2 n)⟩
  | audper n => exact ⟨h.1, h.2.set n (h.2 n)⟩
  | audvol n => exact ⟨h.1, h.2.set n (h.2 n)⟩
  | auddat n => exact ⟨h.1, h.2.set n (h.2 n)⟩
  | _ => exact h

theorem diskStep_disk (s : State) :
    (diskStep s).disk = { (diskTransfer s).disk with
      ptr := ptrAdd s.cfg s.disk.ptr 2, left := s.disk.left - 1
      active := s.disk.active && s.disk.left - 1 != 0 } := by
  have e : (diskTransfer s).cfg = s.cfg ∧ (diskTransfer s).disk.ptr = s.disk.ptr ∧
      (diskTransfer s).disk.left = s.disk.left ∧ (diskTransfer s).disk.active = s.disk.active := by
    unfold diskTransfer
    split <;> simp
  unfold diskStep
  dsimp only
  rw [e.1, e.2.1, e.2.2.1, e.2.2.2]
  split <;> rfl

theorem performGrant_channelsOk {c : Channel} {s t : State} (h : s.disk.Ok ∧ ForAll Audio.Ok s.audio)
    (hg : performGrant (.channel c) s = .next t) : t.disk.Ok ∧ ForAll Audio.Ok t.audio := by
  cases c with
  | copper =>
    exact copperStep_preserves (P := fun s => s.disk.Ok ∧ ForAll Audio.Ok s.audio)
      (fun _ _ _ _ _ h hw => writeOffset_preserves (P := fun s => s.disk.Ok ∧ ForAll Audio.Ok s.audio)
        (fun r v _ h => storeReg_channelsOk r v h) (fun _ _ h => h) (fun _ _ h => h) h hw)
      (fun _ _ _ _ h => h) (fun _ _ _ _ _ h => h) (fun _ _ h => h) (fun _ _ h => h) h hg
  | blitter =>
    simp only [performGrant, Host.Outcome.next.injEq] at hg
    rw [← hg, blitterStep_frame]; exact h
  | bitplane =>
    simp only [performGrant, Host.Outcome.next.injEq] at hg
    rw [← hg, bitplaneFetch_frame]; exact h
  | sprite n =>
    simp only [performGrant, Host.Outcome.next.injEq] at hg
    rw [← hg, spriteFetch_frame]; exact h
  | disk =>
    simp only [performGrant, Host.Outcome.next.injEq] at hg
    subst hg
    refine ⟨?_, by rw [diskStep_frame]; exact h.2⟩
    rw [diskStep_disk]
    intro hb
    simp only [Bool.and_eq_true, bne_iff_ne, ne_eq] at hb
    exact hb.2
  | audio n =>
    simp only [performGrant, Host.Outcome.next.injEq] at hg
    subst hg
    refine ⟨by rw [audioStep_frame]; exact h.1, ?_⟩
    unfold audioStep
    dsimp only
    split
    · refine fun j => ?_
      simp only [State.raise, State.modAudio, State.send]
      rw [set_getElem]
      split
      · exact reload_ok _
      · rw [set_getElem]
        rename_i hne
        rw [if_neg hne]
        exact h.2 j
    · rename_i hl
      exact h.2.set n (fun _ => hl)

theorem performInput_channelsOk {s : State} (i : Input) (h : s.disk.Ok ∧ ForAll Audio.Ok s.audio) :
    (performInput i s).disk.Ok ∧ ForAll Audio.Ok (performInput i s).audio := by
  cases i with
  | diskWordIn w => unfold performInput diskWordIn; dsimp only; split <;> exact h
  | diskWordOut => unfold performInput diskWordOut; dsimp only; split <;> exact h
  | audioRequest n => exact ⟨h.1, h.2.set n (h.2 n)⟩
  | _ => exact h

/-! ## The output assembler (R460, R462) -/

theorem flush_output (s : State) : (flush s).output = { s.output with len := 0, pix := [] } := rfl

/-- A slot's colours are four in the Pixels class and none elsewhere. -/
theorem slotColours_length (s : State) (cls : OutClass) :
    (slotColours s cls).2.length = if cls = .pixels then 4 else 0 := by
  unfold slotColours
  split <;> rfl

/-- The pixels of a run: four a slot in the Pixels class, none elsewhere, with room for four more. -/
def Output.Ok (cap : Nat) (o : Output) : Prop :=
  o.pix.length = (if o.cls = .pixels then 4 * o.len else 0) ∧ o.pix.length + 4 ≤ cap

theorem outputOk_iff (s : State) : OutputOk s ↔ s.output.Ok s.cfg.pixelBufferUnits :=
  ⟨fun h => ⟨h.staged, h.room⟩, fun ⟨a, b⟩ => ⟨a, b⟩⟩

theorem accumulate_ok {cls : OutClass} {colours : List Colour} {s : State}
    (hl : colours.length = if cls = .pixels then 4 else 0) (h4 : 4 ≤ s.cfg.pixelBufferUnits)
    (h : s.output.Ok s.cfg.pixelBufferUnits) : (accumulate cls colours s).output.Ok s.cfg.pixelBufferUnits := by
  -- the run the slot joins: the old one, or an empty one
  have hj : ∃ o : Output, (if 0 < s.output.len ∧ cls ≠ s.output.cls then flush s else s).output = o ∧
      o.pix.length = (if cls = .pixels then 4 * o.len else 0) ∧ o.pix.length + 4 ≤ s.cfg.pixelBufferUnits := by
    refine ⟨_, rfl, ?_⟩
    split
    · rw [flush_output]
      simp [h4]
    · rename_i hn
      by_cases hz : s.output.len = 0
      · have h0 : s.output.pix.length = 0 := by rw [h.1, hz]; simp
        rw [h0, hz]
        simp [h4]
      · have hc : cls = s.output.cls := by
          by_contra hne
          exact hn ⟨by omega, hne⟩
        rw [hc]
        exact ⟨h.1, h.2⟩
  obtain ⟨o, ho, h1, h2⟩ := hj
  unfold accumulate
  dsimp only
  rw [ho]
  by_cases hp : cls = .pixels
  · subst hp
    rw [if_pos rfl] at h1 hl ⊢
    split
    · rw [flush_output]
      exact ⟨by simp, by simpa using h4⟩
    · rename_i hr
      simp only [List.length_append] at hr
      refine ⟨?_, ?_⟩
      · simp only [List.length_append, if_true]
        omega
      · simp only [List.length_append]
        omega
  · rw [if_neg hp] at h1 hl ⊢
    exact ⟨by simp [hp, h1], h2⟩

theorem slotEnd_outputOk {s : State} (h4 : 4 ≤ s.cfg.pixelBufferUnits) (h : s.output.Ok s.cfg.pixelBufferUnits) :
    (slotEnd s).output.Ok s.cfg.pixelBufferUnits := by
  rw [slotEnd_output]
  unfold outputSlot
  dsimp only
  refine accumulate_ok (s := { shiftAll (activateSprites s) with output := _ }) ?_ h4 h
  rw [slotColours_length]

/-- With a sink installed, `flush` moves the run's units into the record. -/
theorem flush_totalUnits {s : State} (hs : s.sinkInstalled = true) (h : s.output.Ok s.cfg.pixelBufferUnits) :
    totalUnits (flush s) = totalUnits s := by
  unfold totalUnits flush
  dsimp only
  rw [hs]
  simp only [if_true, List.map_cons, List.sum_cons]
  have e : (runCall s.output).units = 4 * s.output.len := by
    unfold runCall
    cases hc : s.output.cls with
    | pixels => simp only [SinkCall.units]; rw [h.1, hc]; simp
    | _ => rfl
  rw [e]
  omega

end Sys2Proof.Machine
end

