-- ==== Sys2Proof/Laws/Registers.lean ====
section
/-! SUPPORT. The register map in both directions, and the register write path by its agent. -/

namespace Sys2Proof.Machine

/-! ## The map (R38) -/

/-- Every register's offset is even and names that register. -/
theorem regOf_regOffset (r : Reg) : (regOffset r).getLsbD 0 = false ∧ regOf (regOffset r) = some r := by
  cases r
  all_goals first | decide | (rename_i n; revert n; decide)

/-- An offset names no register but the one that sits there. -/
theorem regOffset_of_regOf {o : Offset} {r : Reg} (h : regOf o = some r) : regOffset r = o := by
  have row : ∀ (a : Fin 32) (b : Fin 16),
      (regOf (BitVec.ofNat 9 (16 * a.val + b.val))).all (fun r => regOffset r == BitVec.ofNat 9 (16 * a.val + b.val)) := by
    decide
  have ho := o.isLt
  have := row ⟨o.toNat / 16, by omega⟩ ⟨o.toNat % 16, by omega⟩
  have hb : BitVec.ofNat 9 (16 * (o.toNat / 16) + o.toNat % 16) = o := by
    rw [Nat.div_add_mod]
    simp
  simp only [hb, h, Option.all_some, beq_iff_eq] at this
  exact this

/-! ## The write path (R196, R244) -/

/-- A write of the CPU at an even offset. -/
theorem writeOffset_cpu {o : Offset} (h : o.getLsbD 0 = false) (v : Word) (s : State) :
    writeOffset .cpu o v s = match regOf o with | none => .next s | some r => writeReg r v s := by
  unfold writeOffset
  exact (if_neg (by rw [h]; decide)).trans (if_neg (by rintro ⟨hc, -⟩; cases hc))

/-- A write of the Copper at an even offset: the CPU's write, or nothing. -/
theorem writeOffset_copper {o : Offset} (h : o.getLsbD 0 = false) (v : Word) (s : State) :
    writeOffset .copper o v s =
      if copperMayWrite s.copper.copcon o = true then writeOffset .cpu o v s else .next s := by
  unfold writeOffset
  rw [if_neg (by rw [h]; decide)]
  by_cases hc : copperMayWrite s.copper.copcon o = true
  · rw [if_pos hc, if_neg (by rw [hc]; decide), if_neg (by rw [h]; decide), if_neg (by rintro ⟨h, -⟩; cases h)]
  · rw [if_neg hc, if_pos ⟨rfl, by simpa using hc⟩]

/-- The registers the Copper may write. -/
theorem copperMayWrite_iff (copcon : Word) (o : Offset) :
    copperMayWrite copcon o = true ↔ 0x080 ≤ o.toNat ∨ (0x040 ≤ o.toNat ∧ copcon.getLsbD 1 = true) := by
  simp only [copperMayWrite, Bool.or_eq_true, Bool.and_eq_true, decide_eq_true_eq]

/-- A permitted MOVE to a named register. -/
theorem execMove_reg {o : Offset} {r : Reg} (ho : regOf o = some r) {s : State}
    (hm : copperMayWrite s.copper.copcon o = true) (v : Word) : execMove o v s = writeReg r v s := by
  have h0 : o.getLsbD 0 = false := by
    rw [← regOffset_of_regOf ho]
    exact (regOf_regOffset r).1
  rw [execMove, writeOffset_copper h0, if_pos hm, writeOffset_cpu h0, ho]

/-- A MOVE to a named register from 0x080 up. -/
theorem execMove_open (r : Reg) (hr : 0x080 ≤ (regOffset r).toNat) (v : Word) (s : State) :
    execMove (regOffset r) v s = writeReg r v s :=
  execMove_reg (regOf_regOffset r).2 ((copperMayWrite_iff _ _).2 (.inl hr)) v

/-- A CPU write of a named register. -/
theorem writeOffset_reg (r : Reg) (v : Word) (s : State) : writeOffset .cpu (regOffset r) v s = writeReg r v s := by
  rw [writeOffset_cpu (regOf_regOffset r).1, (regOf_regOffset r).2]

/-! ## Frames of the shared record updates -/

theorem modAudio_frame (n : Fin 4) (f : Audio → Audio) (s : State) :
    s.modAudio n f = { s with audio := (s.modAudio n f).audio } := rfl

theorem modSprite_frame (n : Fin 8) (f : Sprite → Sprite) (s : State) :
    s.modSprite n f = { s with sprites := (s.modSprite n f).sprites } := rfl

end Sys2Proof.Machine
end

