-- ==== Sys2Proof/Laws/Copper.lean ====
section
/-! SUPPORT. The Copper's comparison as numbers (R155), its fetch (R242, R248), and when a register write stops. -/

namespace Sys2Proof.Machine

/-! ## Decoding -/

/-- A word is its two bytes in memory order. -/
theorem bytes_append (w : Word) : w.extractLsb' 8 8 ++ w.extractLsb' 0 8 = w := by
  apply BitVec.eq_of_getLsbD_eq
  intro i hi
  simp only [BitVec.getLsbD_append, BitVec.getLsbD_extractLsb']
  by_cases h : i < 8
  · simp [h]
  · simp [h, show i - 8 < 8 by omega, show 8 + (i - 8) = i by omega]

/-- The decoder gives well-formed instructions alone. -/
theorem decodeWords_wellFormed (ir1 ir2 : Word) : (decodeWords ir1 ir2).wellFormed = true := by
  unfold decodeWords
  split
  · simp [Instr.wellFormed]
  · split <;> rfl

/-- The bytes at `cop_pc` decode to the instruction there. -/
theorem decode_copperBytes (s : State) : decode (copperBytes s) = .ok (copperInstr s, []) := by
  simp only [copperBytes, wordsToBytes, decode, bytes_append, copperInstr]

/-! ## Waits -/

theorem satisfied_iff (s : State) (value mask : Word) (bfd : Bool) : s.satisfied value mask bfd = true ↔
    (value &&& mask).toNat ≤ (s.raster.beam &&& mask).toNat ∧ (bfd = true ∨ s.blitter.busy = false) := by
  simp only [State.satisfied, Bool.and_eq_true, decide_eq_true_eq, Bool.or_eq_true, Bool.not_eq_true']

/-- A position word as a number: 256 a line, 2 a pair of cycles. -/
theorem position_toNat (a : Byte) (b : BitVec 7) : (a ++ b ++ 0#1).toNat = a.toNat * 256 + b.toNat * 2 := by
  simp only [BitVec.toNat_append]
  have := b.isLt
  rw [Nat.shiftLeft_eq, Nat.shiftLeft_eq, Nat.mul_comm _ (2 ^ 7), ← Nat.two_pow_add_eq_or_of_lt this,
    Nat.mul_comm _ (2 ^ 1), ← Nat.two_pow_add_eq_or_of_lt (by decide)]
  simp
  omega

theorem beam_toNat (r : Raster) : r.beam.toNat = r.line % 256 * 256 + r.cycle % 256 / 2 * 2 := by
  rw [Raster.beam, position_toNat]
  simp [BitVec.extractLsb'_toNat, Nat.shiftRight_eq_div_pow]
  omega

/-- Full enables compare every bit of a position word. -/
theorem position_and_full (a : Byte) (b : BitVec 7) : (a ++ b ++ 0#1) &&& waitMaskOf 0x7F 0x7F = a ++ b ++ 0#1 := by
  apply BitVec.eq_of_getLsbD_eq
  intro i hi
  have hm : ∀ j : Nat, j < 16 → (waitMaskOf 0x7F 0x7F).getLsbD j = decide (j ≠ 0) := by decide
  rw [BitVec.getLsbD_and, hm i hi]
  rcases Nat.eq_zero_or_pos i with rfl | h0
  · rw [BitVec.getLsbD_append, if_pos (by decide)]
    rfl
  · simp [show i ≠ 0 by omega]

/-! ## The fetch -/

/-- What a granted Copper's fetch leaves. -/
theorem copperFetch_eq {s : State} (h : s.copper.mode = .running ∨ s.copper.mode = .waiting) :
    copperFetch s = { s with copper := { s.copper with
      mode := .running
      pc := ptrAdd s.cfg s.copper.pc 4
      ir1 := s.memRead s.copper.pc
      ir2 := s.memRead (ptrAdd s.cfg s.copper.pc 2) } } := by
  unfold copperFetch copperWords
  rcases h with h | h <;> simp [h]

/-- A register write stops in one case alone: BLTSIZE with line mode set. -/
theorem writeReg_cases (r : Reg) (v : Word) (s : State) :
    (∃ t, writeReg r v s = .next t) ∨
      (writeReg r v s = .refused .blitterLineMode ∧ r = .bltsize ∧ s.blitter.con1.getLsbD 0 = true) := by
  unfold writeReg
  cases accessClass r
  case writeOnly =>
    dsimp only
    split
    · unfold armBlitter
      split
      · exact .inr ⟨rfl, by assumption, by assumption⟩
      · exact .inl ⟨_, rfl⟩
    · exact .inl ⟨_, rfl⟩
  all_goals exact .inl ⟨_, rfl⟩

end Sys2Proof.Machine
end

