-- ==== Sys2Proof/Laws/OwnFields.lean ====
section
/-! SUPPORT. A slot reads and writes none of the model's own lists: it runs the same whatever they hold. -/

namespace Sys2Proof.Machine

/-- A state with other pending inputs and calls, another run in progress and other answers. -/
def State.withOwn (s : State) (inputs : List (Nat × Input)) (calls : List Call) (run : Option Run)
    (responses : List Response) : State :=
  { s with inputs := inputs, calls := calls, run := run, responses := responses }

variable (i : List (Nat × Input)) (c : List Call) (r : Option Run) (p : List Response)

theorem withOwn_self (s : State) : s.withOwn s.inputs s.calls s.run s.responses = s := rfl

/-! ## The start of a slot -/

theorem copperApplyPendingJump_withOwn (s : State) :
    copperApplyPendingJump (s.withOwn i c r p) = (copperApplyPendingJump s).withOwn i c r p := by
  have e : (s.withOwn i c r p).copper = s.copper := rfl
  unfold copperApplyPendingJump
  rw [e]
  rcases s.copper.pendingJump <;> rfl

theorem samplePeripherals_withOwn (s : State) :
    samplePeripherals (s.withOwn i c r p) = (samplePeripherals s).withOwn i c r p := by
  rw [samplePeripherals_eq, samplePeripherals_eq]
  rfl

theorem frameStart_withOwn (s : State) : frameStart (s.withOwn i c r p) = (frameStart s).withOwn i c r p := by
  have e : ((s.withOwn i c r p).raise .vertb).cfg = (s.raise .vertb).cfg := rfl
  unfold frameStart copperFrameReload
  rw [e]
  split <;> rfl

theorem slotStart_withOwn (s : State) : slotStart (s.withOwn i c r p) = (slotStart s).withOwn i c r p := by
  unfold slotStart
  rw [copperApplyPendingJump_withOwn, samplePeripherals_withOwn]
  generalize samplePeripherals (copperApplyPendingJump s) = u
  have e : (u.withOwn i c r p).raster = u.raster := rfl
  dsimp only
  rw [e]
  by_cases h0 : u.raster.cycle = 0
  · rw [if_pos h0, if_pos h0]
    have e1 : lineStart (u.withOwn i c r p) = (lineStart u).withOwn i c r p := rfl
    rw [e1]
    have e2 : ((lineStart u).withOwn i c r p).raster = (lineStart u).raster := rfl
    rw [e2]
    split
    · exact frameStart_withOwn i c r p _
    · rfl
  · rw [if_neg h0, if_neg h0]
    rw [e]
    split
    · exact frameStart_withOwn i c r p _
    · rfl

/-! ## The grant -/

theorem wants_withOwn (s : State) (ch : Channel) : wants (s.withOwn i c r p) ch = wants s ch := by
  cases ch <;> rfl

theorem grant_withOwn (b : Bool) (s : State) : grant b (s.withOwn i c r p) = grant b s := by
  unfold grant
  have e : (fun ch => wants (s.withOwn i c r p) ch && !passedOver (s.withOwn i c r p) b ch) =
      (fun ch => wants s ch && !passedOver s b ch) := by
    funext ch
    rw [wants_withOwn]
    rfl
  rw [e]

theorem slotGrant_withOwn (b : Bool) (s : State) : slotGrant b (s.withOwn i c r p) = slotGrant b s := by
  unfold slotGrant
  rw [slotStart_withOwn, grant_withOwn]

/-! ## The granted operation -/

theorem audioEnableChange_withOwn (before : Word) (s : State) (n : Fin 4) :
    audioEnableChange before (s.withOwn i c r p) n = (audioEnableChange before s n).withOwn i c r p := by
  have e : (s.withOwn i c r p).enabled (.audio n) = s.enabled (.audio n) := rfl
  unfold audioEnableChange
  dsimp only
  rw [e]
  split
  · rfl
  · split <;> rfl

theorem foldl_audioEnableChange_withOwn (before : Word) (l : List (Fin 4)) (s : State) :
    l.foldl (audioEnableChange before) (s.withOwn i c r p) =
      (l.foldl (audioEnableChange before) s).withOwn i c r p := by
  induction l generalizing s with
  | nil => rfl
  | cons n l ih => rw [List.foldl_cons, List.foldl_cons, audioEnableChange_withOwn, ih]

theorem storeReg_withOwn (g : Reg) (v : Word) (s : State) :
    storeReg g v (s.withOwn i c r p) = (storeReg g v s).withOwn i c r p := by
  cases g
  case dmacon =>
    exact foldl_audioEnableChange_withOwn i c r p s.dmacon [0, 1, 2, 3] { s with dmacon := setClr 0x07FF s.dmacon v }
  case bplcon0 =>
    have e : (s.withOwn i c r p).sinkInstalled = s.sinkInstalled := rfl
    simp only [storeReg, writeBplcon0, e]
    split <;> rfl
  all_goals rfl

/-- Put the lists back into a next state. -/
def withOwnOutcome (o : Host.Outcome State Fault Refusal) : Host.Outcome State Fault Refusal :=
  andThen o (fun t => .next (t.withOwn i c r p))

theorem writeReg_withOwn (g : Reg) (v : Word) (s : State) :
    writeReg g v (s.withOwn i c r p) = withOwnOutcome i c r p (writeReg g v s) := by
  unfold writeReg
  rw [storeReg_withOwn]
  cases accessClass g
  case writeOnly =>
    dsimp only
    split
    · unfold armBlitter
      have e : (s.withOwn i c r p).blitter = s.blitter := rfl
      rw [e]
      split <;> rfl
    · rfl
  all_goals rfl

theorem writeOffset_withOwn (agent : Agent) (o : Offset) (v : Word) (s : State) :
    writeOffset agent o v (s.withOwn i c r p) = withOwnOutcome i c r p (writeOffset agent o v s) := by
  unfold writeOffset
  have e : (s.withOwn i c r p).copper = s.copper := rfl
  rw [e]
  split
  · rfl
  · split
    · rfl
    · split
      · rfl
      · exact writeReg_withOwn i c r p _ v s

theorem exec_withOwn (ins : Instr) (s : State) :
    exec ins (s.withOwn i c r p) = withOwnOutcome i c r p (exec ins s) := by
  cases ins
  case move ign dest data => exact writeOffset_withOwn i c r p .copper dest data s
  all_goals rfl

theorem bitplaneFetch_withOwn (s : State) : bitplaneFetch (s.withOwn i c r p) = (bitplaneFetch s).withOwn i c r p := by
  have e : (s.withOwn i c r p).planes = s.planes := rfl
  unfold bitplaneFetch
  dsimp only
  rw [e]
  split <;> rfl

theorem blitterStep_withOwn (s : State) : blitterStep (s.withOwn i c r p) = (blitterStep s).withOwn i c r p := by
  rw [blitterStep_eq, blitterStep_eq]
  have e1 : Blitter.readStep (s.withOwn i c r p) = Blitter.readStep s := rfl
  have e2 : (s.withOwn i c r p).mem = s.mem := rfl
  have e3 : (s.withOwn i c r p).irq = s.irq := rfl
  have e4 : (s.withOwn i c r p).cfg = s.cfg := rfl
  rw [e1, e2, e3, e4]
  dsimp only
  split <;> rfl

theorem diskStep_withOwn (s : State) : diskStep (s.withOwn i c r p) = (diskStep s).withOwn i c r p := by
  have e1 : diskTransfer (s.withOwn i c r p) = (diskTransfer s).withOwn i c r p := by
    have e : (s.withOwn i c r p).disk = s.disk := rfl
    unfold diskTransfer
    rw [e]
    split <;> rfl
  have e2 : ((diskTransfer s).withOwn i c r p).disk = (diskTransfer s).disk := rfl
  unfold diskStep
  dsimp only
  rw [e1, e2]
  split <;> rfl

theorem audioStep_withOwn (n : Fin 4) (s : State) :
    audioStep n (s.withOwn i c r p) = (audioStep n s).withOwn i c r p := by
  have e : (s.withOwn i c r p).audio = s.audio := rfl
  unfold audioStep
  dsimp only
  rw [e]
  split <;> rfl

theorem performGrant_withOwn (g : Grant) (s : State) :
    performGrant g (s.withOwn i c r p) = withOwnOutcome i c r p (performGrant g s) := by
  cases g with
  | cpu => rfl
  | idle => rfl
  | channel ch =>
    cases ch with
    | copper => exact exec_withOwn i c r p (copperInstr s) (copperFetch s)
    | blitter => simp only [performGrant, blitterStep_withOwn]; rfl
    | bitplane => simp only [performGrant, bitplaneFetch_withOwn]; rfl
    | sprite n => rfl
    | disk => simp only [performGrant, diskStep_withOwn]; rfl
    | audio n => simp only [performGrant, audioStep_withOwn]; rfl

/-! ## The end of a slot, and the slot -/

theorem accumulate_withOwn (cls : OutClass) (colours : List Colour) (s : State) :
    accumulate cls colours (s.withOwn i c r p) = (accumulate cls colours s).withOwn i c r p := by
  have e : (s.withOwn i c r p).output = s.output := rfl
  have e1 : (if 0 < s.output.len ∧ cls ≠ s.output.cls then flush (s.withOwn i c r p) else s.withOwn i c r p) =
      (if 0 < s.output.len ∧ cls ≠ s.output.cls then flush s else s).withOwn i c r p := by
    split <;> rfl
  unfold accumulate
  dsimp only
  rw [e, e1]
  generalize (if 0 < s.output.len ∧ cls ≠ s.output.cls then flush s else s) = u
  have e2 : (u.withOwn i c r p).output = u.output := rfl
  have e3 : (s.withOwn i c r p).cfg = s.cfg := rfl
  rw [e2, e3]
  split
  · split <;> rfl
  · rfl

theorem outputSlot_withOwn (s : State) : outputSlot (s.withOwn i c r p) = (outputSlot s).withOwn i c r p := by
  have hu : ∀ (t : State) (x : Nat) (l : List Nat) (ham : Colour),
      unitColours (t.withOwn i c r p) x l ham = unitColours t x l ham := by
    intro t x l
    induction l with
    | nil => intro ham; rfl
    | cons u l ih =>
      intro ham
      simp only [unitColours]
      have e : ∀ b spr inH, pixelColour (t.withOwn i c r p) ham b spr inH = pixelColour t ham b spr inH := by
        have e1 : ∀ spr l, priorityColour (t.withOwn i c r p) spr l = priorityColour t spr l := by
          intro spr l
          induction l with
          | nil => cases spr <;> rfl
          | cons pf l ih =>
            simp only [priorityColour, ih]
            cases spr <;> rfl
        intro b spr inH
        unfold pixelColour
        rw [e1]
        rfl
      rw [e, ih]
      rfl
  have hc : ∀ (t : State) (cls : OutClass), slotColours (t.withOwn i c r p) cls = slotColours t cls := by
    intro t cls
    unfold slotColours
    rw [hu]
    rfl
  unfold outputSlot
  have e1 : slotClass (s.withOwn i c r p) (s.withOwn i c r p).raster.line (s.withOwn i c r p).raster.cycle =
      slotClass s s.raster.line s.raster.cycle := rfl
  have e2 : activateSprites (s.withOwn i c r p) = (activateSprites s).withOwn i c r p := rfl
  rw [e1, e2]
  dsimp only
  rw [hc]
  rw [← accumulate_withOwn]
  rfl

theorem slotEnd_withOwn (s : State) : slotEnd (s.withOwn i c r p) = (slotEnd s).withOwn i c r p := by
  unfold slotEnd
  rw [outputSlot_withOwn]
  generalize outputSlot s = u
  have e : bitplaneUnitTick (u.withOwn i c r p) = (bitplaneUnitTick u).withOwn i c r p := by
    have e1 : (u.withOwn i c r p).planes = u.planes := rfl
    have e2 : (u.withOwn i c r p).cfg = u.cfg := rfl
    have e3 : (u.withOwn i c r p).raster = u.raster := rfl
    have e4 : (u.withOwn i c r p).enabled .bitplane = u.enabled .bitplane := rfl
    unfold bitplaneUnitTick
    dsimp only
    rw [e1, e2, e3, e4]
    split <;> rfl
  rw [e]
  rfl

/-- A slot runs the same whatever the model's own lists hold, and leaves them. -/
theorem slot_withOwn (b : Bool) (s : State) : slot b (s.withOwn i c r p) = withOwnOutcome i c r p (slot b s) := by
  unfold slot
  rw [slotGrant_withOwn, slotStart_withOwn, performGrant_withOwn]
  cases h : performGrant (slotGrant b s) (slotStart s) with
  | next t => simp only [withOwnOutcome, andThen, slotEnd_withOwn]
  | fault f => rfl
  | refused f => rfl

/-- The lists a slot leaves are those it found. -/
theorem slot_own {b : Bool} {s t : State} (h : slot b s = .next t) :
    t.inputs = s.inputs ∧ t.calls = s.calls ∧ t.run = s.run ∧ t.responses = s.responses := by
  have e := slot_withOwn s.inputs s.calls s.run s.responses b s
  rw [withOwn_self, h] at e
  simp only [withOwnOutcome, andThen, Host.Outcome.next.injEq] at e
  rw [e]
  exact ⟨rfl, rfl, rfl, rfl⟩

/-- Time passing for the inputs is blind to a slot. -/
theorem tickInputs_withOwn (s : State) :
    tickInputs s = s.withOwn (tickInputs s).inputs s.calls s.run s.responses := tickInputs_frame s

end Sys2Proof.Machine
end

