-- ==== Sys2Proof/Laws/PerInstr.lean ====
section
/-! SUPPORT. The family RoundTrip: the decoder gives back a well-formed instruction from its words. -/

namespace Sys2Proof.Laws.RoundTrip

/-- The words of a well-formed instruction decode to it. -/
def Statement (i : Instr) : Prop := i.wellFormed = true → decodeWords (encode i).1 (encode i).2 = i

/-- The fields of a word made of two fields and a format bit. -/
theorem fields_low (a : BitVec 8) (b : BitVec 7) (c : BitVec 1) :
    (a ++ b ++ c).extractLsb' 8 8 = a ∧ (a ++ b ++ c).extractLsb' 1 7 = b ∧ (a ++ b ++ c).getLsbD 0 = c.getLsbD 0 := by
  refine ⟨?_, ?_, by simp only [BitVec.getLsbD_append]; rfl⟩ <;> apply BitVec.eq_of_getLsbD_eq <;> intro i hi
  · simp only [BitVec.getLsbD_extractLsb', BitVec.getLsbD_append, hi, decide_true, Bool.true_and]
    rw [if_neg (by omega), if_neg (by omega)]
    congr 1
    omega
  · simp only [BitVec.getLsbD_extractLsb', BitVec.getLsbD_append, hi, decide_true, Bool.true_and]
    rw [if_neg (by omega), if_pos (by omega)]
    congr 1
    omega

/-- The fields of a word made of a flag, two fields and a format bit. -/
theorem fields_high (f : Bool) (a b : BitVec 7) (c : BitVec 1) :
    (BitVec.ofBool f ++ a ++ b ++ c).getLsbD 15 = f ∧ (BitVec.ofBool f ++ a ++ b ++ c).extractLsb' 8 7 = a ∧
      (BitVec.ofBool f ++ a ++ b ++ c).extractLsb' 1 7 = b ∧
      (BitVec.ofBool f ++ a ++ b ++ c).getLsbD 0 = c.getLsbD 0 := by
  refine ⟨by simp only [BitVec.getLsbD_append]; cases f <;> rfl, ?_, ?_, by simp only [BitVec.getLsbD_append]; rfl⟩ <;>
    apply BitVec.eq_of_getLsbD_eq <;> intro i hi
  · simp only [BitVec.getLsbD_extractLsb', BitVec.getLsbD_append, hi, decide_true, Bool.true_and]
    rw [if_neg (by omega), if_neg (by omega), if_pos (by omega)]
    congr 1
    omega
  · simp only [BitVec.getLsbD_extractLsb', BitVec.getLsbD_append, hi, decide_true, Bool.true_and]
    rw [if_neg (by omega), if_pos (by omega)]
    congr 1
    omega

theorem move (ign : BitVec 7) (dest : Offset) (data : Word) : Statement (.move ign dest data) := by
  intro h
  have h0 : dest.getLsbD 0 = false := by simpa [Instr.wellFormed] using h
  have e0 : (ign ++ dest.extractLsb' 1 8 ++ 0#1).getLsbD 0 = false := by
    simp only [BitVec.getLsbD_append]; rfl
  have e1 : (ign ++ dest.extractLsb' 1 8 ++ 0#1).extractLsb' 9 7 = ign := by
    apply BitVec.eq_of_getLsbD_eq
    intro i hi
    simp only [BitVec.getLsbD_extractLsb', BitVec.getLsbD_append, hi, decide_true, Bool.true_and]
    rw [if_neg (by omega), if_neg (by omega)]
    congr 1
    omega
  have e2 : ((ign ++ dest.extractLsb' 1 8 ++ 0#1) &&& 0x1FE#16).setWidth 9 = dest := by
    apply BitVec.eq_of_getLsbD_eq
    intro i hi
    have hm : (0x1FE#16).getLsbD i = decide (1 ≤ i ∧ i < 9) := by
      have : ∀ j : Fin 16, (0x1FE#16).getLsbD j = decide (1 ≤ j.val ∧ j.val < 9) := by decide
      exact this ⟨i, by omega⟩
    simp only [BitVec.getLsbD_setWidth, BitVec.getLsbD_and, BitVec.getLsbD_append, BitVec.getLsbD_extractLsb', hi,
      decide_true, Bool.true_and, hm]
    by_cases hz : i = 0
    · subst hz
      rw [h0]
      simp
    · rw [if_neg (by omega), if_pos (by omega)]
      simp only [show 1 ≤ i by omega, show i - 1 < 8 by omega, and_self, decide_true, Bool.true_and, Bool.and_true]
      congr 1
      omega
  simp only [encode, decodeWords, e0, if_true, e1]
  exact congrArg (fun d => Instr.move ign d data) e2

theorem wait (vp : Byte) (hp : BitVec 7) (bfd : Bool) (ve he : BitVec 7) : Statement (.wait vp hp bfd ve he) := by
  intro _
  obtain ⟨a1, a2, a3⟩ := fields_low vp hp 1#1
  obtain ⟨b1, b2, b3, b4⟩ := fields_high bfd ve he 0#1
  simp only [encode, decodeWords, a1, a2, a3, b1, b2, b3, b4]
  simp

theorem skip (vp : Byte) (hp : BitVec 7) (bfd : Bool) (ve he : BitVec 7) : Statement (.skip vp hp bfd ve he) := by
  intro _
  obtain ⟨a1, a2, a3⟩ := fields_low vp hp 1#1
  obtain ⟨b1, b2, b3, b4⟩ := fields_high bfd ve he 1#1
  simp only [encode, decodeWords, a1, a2, a3, b1, b2, b3, b4]
  simp

end Sys2Proof.Laws.RoundTrip
end

