-- ==== Sys2Proof/Laws/PointersKept.lean ====
section
/-! SUPPORT. Every operation keeps every pointer even and inside `CHIP_ADDR_BITS` (R12, R45). -/

namespace Sys2Proof.Machine

/-! ## Unit by unit -/

/-- The Copper's pointers. -/
def Copper.PtrsOk (cfg : Config) (c : Copper) : Prop := PtrOk cfg c.pc ∧ PtrOk cfg c.loc1 ∧ PtrOk cfg c.loc2

/-- The Blitter's pointers. -/
def Blitter.PtrsOk (cfg : Config) (b : Blitter) : Prop :=
  PtrOk cfg b.apt ∧ PtrOk cfg b.bpt ∧ PtrOk cfg b.cpt ∧ PtrOk cfg b.dpt

/-- `PointersOk`, unit by unit. -/
theorem pointersOk_iff (s : State) : PointersOk s ↔
    s.copper.PtrsOk s.cfg ∧ s.blitter.PtrsOk s.cfg ∧ PtrOk s.cfg s.disk.ptr ∧ ForAll (PtrOk s.cfg) s.planes.ptr ∧
      ForAll (fun p : Sprite => PtrOk s.cfg p.ptr) s.sprites ∧
      ForAll (fun a : Audio => PtrOk s.cfg a.loc ∧ PtrOk s.cfg a.ptr) s.audio :=
  ⟨fun h => ⟨⟨h.pc, h.loc1, h.loc2⟩, ⟨h.apt, h.bpt, h.cpt, h.dpt⟩, h.disk, h.planes, h.sprites,
      fun n => ⟨h.audioLoc n, h.audioPtr n⟩⟩,
    fun ⟨⟨h1, h2, h3⟩, ⟨h4, h5, h6, h7⟩, h8, h9, h10, h11⟩ =>
      ⟨h1, h2, h3, h4, h5, h6, h7, h8, h9, h10, fun n => (h11 n).1, fun n => (h11 n).2⟩⟩

/-- `PointersOk` reads the configuration and the pointers alone. -/
theorem pointersOk_of {s t : State} (hc : t.cfg = s.cfg) (h1 : t.copper.PtrsOk s.cfg)
    (h2 : t.blitter.PtrsOk s.cfg) (h3 : PtrOk s.cfg t.disk.ptr) (h4 : ForAll (PtrOk s.cfg) t.planes.ptr)
    (h5 : ForAll (fun p : Sprite => PtrOk s.cfg p.ptr) t.sprites)
    (h6 : ForAll (fun a : Audio => PtrOk s.cfg a.loc ∧ PtrOk s.cfg a.ptr) t.audio) : PointersOk t := by
  rw [pointersOk_iff, hc]
  exact ⟨h1, h2, h3, h4, h5, h6⟩

/-! ## The start and the end of a slot -/

theorem copperApplyPendingJump_ptrs {s : State} (h : s.copper.PtrsOk s.cfg) :
    (copperApplyPendingJump s).copper.PtrsOk s.cfg := by
  unfold copperApplyPendingJump
  split
  · exact h
  · exact ⟨h.2.1, h.2.1, h.2.2⟩
  · exact ⟨h.2.2, h.2.1, h.2.2⟩

theorem lineSetup_ptr (p : Sprite) (line : Nat) : (p.lineSetup line).ptr = p.ptr := rfl

theorem slotStart_pointersOk {s : State} (h : PointersOk s) : PointersOk (slotStart s) := by
  have h0 := copperApplyPendingJump_ptrs ((pointersOk_iff s).1 h).1
  obtain ⟨-, hb, hd, hp, hs, ha⟩ := (pointersOk_iff s).1 h
  refine pointersOk_of (slotStart_cfg s) ?_ ?_ ?_ ?_ ?_ ?_
  · rw [slotStart_copper]
    split
    · exact ⟨h0.2.1, h0.2.1, h0.2.2⟩
    · exact h0
  · rw [slotStart_blitter]; exact hb
  · rw [slotStart_disk, samplePeripherals_eq]; exact hd
  · rw [slotStart_planes]
    split <;> exact hp
  · rw [slotStart_sprites]
    split
    · refine hs.vmap fun x hx => ?_
      rw [lineSetup_ptr]
      split <;> exact hx
    · exact hs
  · rw [slotStart_audio]; exact ha

theorem bitplaneUnitTick_ptrs {s : State} (h : ForAll (PtrOk s.cfg) s.planes.ptr) :
    ForAll (PtrOk s.cfg) (bitplaneUnitTick s).planes.ptr := by
  unfold bitplaneUnitTick
  dsimp only
  split
  · split
    · intro i
      simp only [Planes.addModulos, Fin.getElem_fin, vmapIdx_getElem]
      split
      · exact ptrAdd_ok _ _ _
      · exact h i
    · exact h
  · exact h

theorem activate_ptr (p : Sprite) (x : Nat) : (p.activate x).ptr = p.ptr := by
  unfold Sprite.activate
  split
  · split
    · rfl
    · split <;> rfl
  · rfl

theorem slotEnd_planes (s : State) : (slotEnd s).planes = (bitplaneUnitTick (outputSlot s)).planes := rfl

theorem slotEnd_pointersOk {s : State} (h : PointersOk s) : PointersOk (slotEnd s) := by
  obtain ⟨hc, hb, hd, hp, hs, ha⟩ := (pointersOk_iff s).1 h
  refine pointersOk_of (slotEnd_cfg s) ?_ ?_ ?_ ?_ ?_ ?_
  · rw [slotEnd_copper]; exact hc
  · rw [slotEnd_blitter]; exact hb
  · rw [slotEnd_disk]; exact hd
  · rw [slotEnd_planes]
    have e : (outputSlot s).cfg = s.cfg := by rw [outputSlot_frame]
    rw [← e]
    apply bitplaneUnitTick_ptrs
    rw [e, outputSlot_planes]
    exact hp
  · rw [slotEnd_sprites, outputSlot_sprites]
    refine ForAll.vmap (g := fun p : Sprite => PtrOk s.cfg p.ptr) (hs.vmap fun x hx => ?_) fun x hx => hx
    rw [activate_ptr]
    exact hx
  · rw [slotEnd_audio]; exact ha

/-! ## Register writes -/

theorem audioEnableChange_ptrs {cfg : Config} {s : State} (before : Word) (n : Fin 4)
    (h : ForAll (fun a : Audio => PtrOk cfg a.loc ∧ PtrOk cfg a.ptr) s.audio) :
    ForAll (fun a : Audio => PtrOk cfg a.loc ∧ PtrOk cfg a.ptr) (audioEnableChange before s n).audio := by
  unfold audioEnableChange
  dsimp only
  split
  · exact h.set n ⟨(h n).1, (h n).1⟩
  · split
    · exact h.set n ⟨(h n).1, (h n).2⟩
    · exact h

theorem writeDmacon_ptrs {cfg : Config} {s : State} (v : Word)
    (h : ForAll (fun a : Audio => PtrOk cfg a.loc ∧ PtrOk cfg a.ptr) s.audio) :
    ForAll (fun a : Audio => PtrOk cfg a.loc ∧ PtrOk cfg a.ptr) (writeDmacon v s).audio := by
  unfold writeDmacon
  generalize hs : ({ s with dmacon := setClr 0x07FF s.dmacon v } : State) = s'
  replace h : ForAll (fun a : Audio => PtrOk cfg a.loc ∧ PtrOk cfg a.ptr) s'.audio := by rw [← hs]; exact h
  clear hs
  generalize ([0, 1, 2, 3] : List (Fin 4)) = l
  induction l generalizing s' with
  | nil => exact h
  | cons n l ih => exact ih _ (audioEnableChange_ptrs _ n h)

theorem writeLen_ptr (d : Disk) (v : Word) : (d.writeLen v).ptr = d.ptr := by
  unfold Disk.writeLen
  split
  · rfl
  · split <;> rfl

theorem storeReg_pointersOk {s : State} (r : Reg) (v : Word) (h : PointersOk s) : PointersOk (storeReg r v s) := by
  obtain ⟨hc, hb, hd, hp, hs, ha⟩ := (pointersOk_iff s).1 h
  cases r with
  | dskpth => exact pointersOk_of rfl hc hb (ptrSetHigh_ok _ _ _) hp hs ha
  | dskptl => exact pointersOk_of rfl hc hb (ptrSetLow_ok _ _ _) hp hs ha
  | dsklen => exact pointersOk_of rfl hc hb (by rw [storeReg]; dsimp only; rw [writeLen_ptr]; exact hd) hp hs ha
  | bltcpth => exact pointersOk_of rfl hc ⟨hb.1, hb.2.1, ptrSetHigh_ok _ _ _, hb.2.2.2⟩ hd hp hs ha
  | bltcptl => exact pointersOk_of rfl hc ⟨hb.1, hb.2.1, ptrSetLow_ok _ _ _, hb.2.2.2⟩ hd hp hs ha
  | bltbpth => exact pointersOk_of rfl hc ⟨hb.1, ptrSetHigh_ok _ _ _, hb.2.2⟩ hd hp hs ha
  | bltbptl => exact pointersOk_of rfl hc ⟨hb.1, ptrSetLow_ok _ _ _, hb.2.2⟩ hd hp hs ha
  | bltapth => exact pointersOk_of rfl hc ⟨ptrSetHigh_ok _ _ _, hb.2⟩ hd hp hs ha
  | bltaptl => exact pointersOk_of rfl hc ⟨ptrSetLow_ok _ _ _, hb.2⟩ hd hp hs ha
  | bltdpth => exact pointersOk_of rfl hc ⟨hb.1, hb.2.1, hb.2.2.1, ptrSetHigh_ok _ _ _⟩ hd hp hs ha
  | bltdptl => exact pointersOk_of rfl hc ⟨hb.1, hb.2.1, hb.2.2.1, ptrSetLow_ok _ _ _⟩ hd hp hs ha
  | cop1lch => exact pointersOk_of rfl ⟨hc.1, ptrSetHigh_ok _ _ _, hc.2.2⟩ hb hd hp hs ha
  | cop1lcl => exact pointersOk_of rfl ⟨hc.1, ptrSetLow_ok _ _ _, hc.2.2⟩ hb hd hp hs ha
  | cop2lch => exact pointersOk_of rfl ⟨hc.1, hc.2.1, ptrSetHigh_ok _ _ _⟩ hb hd hp hs ha
  | cop2lcl => exact pointersOk_of rfl ⟨hc.1, hc.2.1, ptrSetLow_ok _ _ _⟩ hb hd hp hs ha
  | dmacon =>
    refine pointersOk_of (storeReg_cfg _ _ _) ?_ ?_ ?_ ?_ ?_ (writeDmacon_ptrs v ha) <;>
      · rw [storeReg, writeDmacon_frame]
        assumption
  | bplcon0 =>
    refine pointersOk_of (storeReg_cfg _ _ _) ?_ ?_ ?_ ?_ ?_ ?_ <;>
      · rw [storeReg, writeBplcon0_frame]
        assumption
  | audlch n => exact pointersOk_of rfl hc hb hd hp hs (ha.set n ⟨ptrSetHigh_ok _ _ _, (ha n).2⟩)
  | audlcl n => exact pointersOk_of rfl hc hb hd hp hs (ha.set n ⟨ptrSetLow_ok _ _ _, (ha n).2⟩)
  | audlen n => exact pointersOk_of rfl hc hb hd hp hs (ha.set n (ha n))
  | audper n => exact pointersOk_of rfl hc hb hd hp hs (ha.set n (ha n))
  | audvol n => exact pointersOk_of rfl hc hb hd hp hs (ha.set n (ha n))
  | auddat n => exact pointersOk_of rfl hc hb hd hp hs (ha.set n (ha n))
  | bplpth n => exact pointersOk_of rfl hc hb hd (hp.set n (ptrSetHigh_ok _ _ _)) hs ha
  | bplptl n => exact pointersOk_of rfl hc hb hd (hp.set n (ptrSetLow_ok _ _ _)) hs ha
  | sprpth n => exact pointersOk_of rfl hc hb hd hp (hs.set n (ptrSetHigh_ok _ _ _)) ha
  | sprptl n => exact pointersOk_of rfl hc hb hd hp (hs.set n (ptrSetLow_ok _ _ _)) ha
  | sprpos n => exact pointersOk_of rfl hc hb hd hp (hs.set n (hs n)) ha
  | sprctl n => exact pointersOk_of rfl hc hb hd hp (hs.set n (hs n)) ha
  | sprdata n => exact pointersOk_of rfl hc hb hd hp (hs.set n (hs n)) ha
  | sprdatb n => exact pointersOk_of rfl hc hb hd hp (hs.set n (hs n)) ha
  | _ => exact pointersOk_of rfl hc hb hd hp hs ha

theorem arm_ptrs {cfg : Config} {b : Blitter} (h : b.PtrsOk cfg) (v : Word) : (b.arm v).PtrsOk cfg := h

theorem writeOffset_pointersOk {agent : Agent} {o : Offset} {v : Word} {s t : State} (h : PointersOk s)
    (hw : writeOffset agent o v s = .next t) : PointersOk t := by
  refine writeOffset_preserves (P := PointersOk) (fun r v _ h => storeReg_pointersOk r v h) ?_ ?_ h hw
  · intro v s h
    obtain ⟨hc, hb, hd, hp, hs, ha⟩ := (pointersOk_iff s).1 h
    exact pointersOk_of rfl hc (arm_ptrs hb v) hd hp hs ha
  · intro m s h
    obtain ⟨hc, hb, hd, hp, hs, ha⟩ := (pointersOk_iff s).1 h
    exact pointersOk_of rfl hc hb hd hp hs ha

/-! ## The channels -/

theorem readStep_ptrs {s : State} (h : s.blitter.PtrsOk s.cfg) : (Blitter.readStep s).PtrsOk s.cfg := by
  unfold Blitter.readStep
  dsimp only
  split
  · exact ⟨ptrAdd_ok _ _ _, h.2⟩
  · exact ⟨h.1, ptrAdd_ok _ _ _, h.2.2⟩
  · exact ⟨h.1, h.2.1, ptrAdd_ok _ _ _, h.2.2.2⟩
  · exact h
  · exact h

theorem wordDone_ptrs {cfg : Config} {b : Blitter} (h : b.PtrsOk cfg) : (b.wordDone cfg).PtrsOk cfg := by
  unfold Blitter.wordDone
  split
  · refine ⟨?_, ?_, ?_, ?_⟩ <;>
      · simp only [Blitter.endOfLine, Blitter.addModulos]
        split
        · exact ptrAdd_ok _ _ _
        · first | exact h.1 | exact h.2.1 | exact h.2.2.1 | exact h.2.2.2
  · exact h

theorem storeStep_ptrs {cfg : Config} {b : Blitter} (h : b.PtrsOk cfg) : (b.storeStep cfg).PtrsOk cfg := by
  refine ⟨h.1, h.2.1, h.2.2.1, ?_⟩
  simp only [Blitter.storeStep]
  split
  · exact ptrAdd_ok _ _ _
  · exact h.2.2.2

theorem blitterStep_pointersOk {s : State} (h : PointersOk s) : PointersOk (blitterStep s) := by
  obtain ⟨hc, hb, hd, hp, hs, ha⟩ := (pointersOk_iff s).1 h
  have hr := readStep_ptrs hb
  rw [blitterStep_eq]
  dsimp only
  split
  · exact pointersOk_of rfl hc (wordDone_ptrs (storeStep_ptrs hr)) hd hp hs ha
  · exact pointersOk_of rfl hc hr hd hp hs ha

theorem bitplaneFetch_pointersOk {s : State} (h : PointersOk s) : PointersOk (bitplaneFetch s) := by
  obtain ⟨hc, hb, hd, hp, hs, ha⟩ := (pointersOk_iff s).1 h
  unfold bitplaneFetch
  dsimp only
  split
  · exact h
  · rename_i i hi
    exact pointersOk_of rfl hc hb hd (hp.set i (ptrAdd_ok _ _ _)) hs ha

theorem spriteFetch_pointersOk {s : State} (n : Fin 8) (h : PointersOk s) : PointersOk (spriteFetch n s) := by
  obtain ⟨hc, hb, hd, hp, hs, ha⟩ := (pointersOk_iff s).1 h
  exact pointersOk_of rfl hc hb hd hp (hs.set n (ptrAdd_ok _ _ _)) ha

theorem diskStep_pointersOk {s : State} (h : PointersOk s) : PointersOk (diskStep s) := by
  obtain ⟨hc, hb, hd, hp, hs, ha⟩ := (pointersOk_iff s).1 h
  unfold diskStep
  rw [diskTransfer_frame]
  dsimp only
  split <;> exact pointersOk_of rfl hc hb (ptrAdd_ok _ _ _) hp hs ha

theorem audioStep_pointersOk {s : State} (n : Fin 4) (h : PointersOk s) : PointersOk (audioStep n s) := by
  obtain ⟨hc, hb, hd, hp, hs, ha⟩ := (pointersOk_iff s).1 h
  have h1 : ForAll (fun a : Audio => PtrOk s.cfg a.loc ∧ PtrOk s.cfg a.ptr)
      (s.audio.set n ((s.audio[n]).takeWord s.cfg (s.memRead s.audio[n].ptr))) :=
    ha.set n ⟨(ha n).1, ptrAdd_ok _ _ _⟩
  unfold audioStep
  dsimp only
  split
  · exact pointersOk_of rfl hc hb hd hp hs (h1.set n ⟨(h1 n).1, (h1 n).1⟩)
  · exact pointersOk_of rfl hc hb hd hp hs h1

theorem copperStep_pointersOk {s t : State} (h : PointersOk s) (hg : copperStep s = .next t) : PointersOk t := by
  refine copperStep_preserves (P := PointersOk) (fun _ _ _ _ _ h hw => writeOffset_pointersOk h hw) ?_ ?_ ?_ ?_ h hg
  · intro s mode ir1 ir2 h
    obtain ⟨hc, hb, hd, hp, hs, ha⟩ := (pointersOk_iff s).1 h
    exact pointersOk_of rfl ⟨ptrAdd_ok _ _ _, hc.2⟩ hb hd hp hs ha
  · intro s value mask bfd mode h
    obtain ⟨hc, hb, hd, hp, hs, ha⟩ := (pointersOk_iff s).1 h
    exact pointersOk_of rfl hc hb hd hp hs ha
  · intro s mode h
    obtain ⟨hc, hb, hd, hp, hs, ha⟩ := (pointersOk_iff s).1 h
    exact pointersOk_of rfl ⟨ptrAdd_ok _ _ _, hc.2⟩ hb hd hp hs ha
  · intro s mode h
    obtain ⟨hc, hb, hd, hp, hs, ha⟩ := (pointersOk_iff s).1 h
    exact pointersOk_of rfl hc hb hd hp hs ha

theorem performGrant_pointersOk {c : Channel} {s t : State} (h : PointersOk s)
    (hg : performGrant (.channel c) s = .next t) : PointersOk t := by
  cases c with
  | copper => exact copperStep_pointersOk h hg
  | blitter =>
    simp only [performGrant, Host.Outcome.next.injEq] at hg
    exact hg ▸ blitterStep_pointersOk h
  | bitplane =>
    simp only [performGrant, Host.Outcome.next.injEq] at hg
    exact hg ▸ bitplaneFetch_pointersOk h
  | sprite n =>
    simp only [performGrant, Host.Outcome.next.injEq] at hg
    exact hg ▸ spriteFetch_pointersOk n h
  | disk =>
    simp only [performGrant, Host.Outcome.next.injEq] at hg
    exact hg ▸ diskStep_pointersOk h
  | audio n =>
    simp only [performGrant, Host.Outcome.next.injEq] at hg
    exact hg ▸ audioStep_pointersOk n h

/-! ## Inputs and reset -/

theorem performInput_pointersOk {s : State} (i : Input) (h : PointersOk s) : PointersOk (performInput i s) := by
  obtain ⟨hc, hb, hd, hp, hs, ha⟩ := (pointersOk_iff s).1 h
  cases i with
  | diskWordIn w =>
    unfold performInput diskWordIn
    dsimp only
    split <;> exact pointersOk_of rfl hc hb hd hp hs ha
  | diskWordOut =>
    unfold performInput diskWordOut
    dsimp only
    split <;> exact pointersOk_of rfl hc hb hd hp hs ha
  | audioRequest n => exact pointersOk_of rfl hc hb hd hp hs (ha.set n (ha n))
  | _ => exact pointersOk_of rfl hc hb hd hp hs ha

/-- After a reset every pointer is even and inside `CHIP_ADDR_BITS`, whatever its draw. -/
theorem resetWith_pointersOk (d : ResetDraws) (s : State) : PointersOk (s.resetWith d) := by
  rw [pointersOk_iff]
  refine ⟨⟨wrapPtr_ok _ _, wrapPtr_ok _ _, wrapPtr_ok _ _⟩,
    ⟨wrapPtr_ok _ _, wrapPtr_ok _ _, wrapPtr_ok _ _, wrapPtr_ok _ _⟩, wrapPtr_ok _ _, ?_, ?_, ?_⟩ <;> intro i
  · simp only [State.resetWith, Planes.reset, Fin.getElem_fin, vmap_getElem]
    exact wrapPtr_ok _ _
  · simp only [State.resetWith, Sprite.reset, Fin.getElem_fin, vmap_getElem]
    exact wrapPtr_ok _ _
  · simp only [State.resetWith, Audio.reset, Fin.getElem_fin, vmap_getElem]
    exact ⟨wrapPtr_ok _ _, wrapPtr_ok _ _⟩

end Sys2Proof.Machine
end

