-- ==== Sys2Proof/Laws/Requests.lean ====
section
/-! SUPPORT. Requests bit by bit (R492), and what a write of DMACON does to the audio channels (R423). -/

namespace Sys2Proof.Machine

/-- A single bit. -/
theorem one_shiftLeft_getLsbD {i : Nat} (k : Nat) (hi : i < 16) : (1#16 <<< k).getLsbD i = decide (i = k) := by
  rw [BitVec.getLsbD_shiftLeft, BitVec.getLsbD_one]
  by_cases h : i < k
  · simp [h]
    omega
  · simp [h, hi]
    omega

/-- `set_request` sets its bit and no other. -/
theorem setRequest_getLsbD (q : Irq) (b : IrqBit) (i : Nat) :
    (q.setRequest b).request.getLsbD i = (q.request.getLsbD i || decide (i = b.pos)) := by
  have : b.pos < 16 := by
    cases b <;> simp [IrqBit.pos]
    omega
  simp only [Irq.setRequest, Irq.withMasks, BitVec.getLsbD_or]
  by_cases h : i < 16
  · rw [one_shiftLeft_getLsbD _ h]
  · rw [BitVec.getLsbD_of_ge _ _ (by omega), BitVec.getLsbD_of_ge _ _ (by omega)]
    simp
    omega

/-! ## One channel -/

theorem audioEnableChange_dmacon (before : Word) (s : State) (n : Fin 4) :
    (audioEnableChange before s n).dmacon = s.dmacon := by
  rw [audioEnableChange_frame]

theorem audioEnableChange_audio (before : Word) (s : State) (n m : Fin 4) :
    (audioEnableChange before s n).audio[m] =
      if m = n then
        (if enabledIn before (.audio n) = false ∧ s.enabled (.audio n) = true then
          { (s.audio[n]).reload with running := true }
         else if enabledIn before (.audio n) = true ∧ s.enabled (.audio n) = false then
          { s.audio[n] with running := false }
         else s.audio[n])
      else s.audio[m] := by
  unfold audioEnableChange
  dsimp only
  cases h1 : enabledIn before (.audio n) <;> cases h2 : s.enabled (.audio n)
  · simp
    intro h
    subst h
    rfl
  · simp only [Bool.not_false, Bool.and_self, if_true, State.raise_audio, State.modAudio_audio, set_getElem]
    by_cases h : m = n
    · subst h
      simp
    · rw [if_neg (fun e => h e.symm), if_neg h]
  · simp only [Bool.not_true, Bool.false_eq_true, if_false, Bool.not_false, Bool.and_self, if_true,
      State.modAudio_audio, set_getElem]
    by_cases h : m = n
    · subst h
      simp
    · rw [if_neg (fun e => h e.symm), if_neg h]
  · simp
    intro h
    subst h
    rfl

theorem audioEnableChange_request (before : Word) (s : State) (n : Fin 4) (i : Nat) :
    (audioEnableChange before s n).irq.request.getLsbD i =
      (s.irq.request.getLsbD i ||
        (decide (i = 7 + n.val) && (!enabledIn before (.audio n) && s.enabled (.audio n)))) := by
  unfold audioEnableChange
  dsimp only
  cases h1 : enabledIn before (.audio n) <;> cases h2 : s.enabled (.audio n) <;>
    simp [setRequest_getLsbD, IrqBit.pos, State.raise_irq, State.modAudio_irq]
  rfl

theorem audioEnableChange_enable (before : Word) (s : State) (n : Fin 4) :
    (audioEnableChange before s n).irq.enable = s.irq.enable := by
  unfold audioEnableChange
  dsimp only
  split
  · rfl
  · split <;> rfl

/-! ## Every channel -/

theorem foldl_audioEnableChange_audio (before : Word) (m : Fin 4) (l : List (Fin 4)) (hl : l.Nodup) (s : State) :
    (l.foldl (audioEnableChange before) s).audio[m] =
      if m ∈ l then
        (if enabledIn before (.audio m) = false ∧ s.enabled (.audio m) = true then
          { (s.audio[m]).reload with running := true }
         else if enabledIn before (.audio m) = true ∧ s.enabled (.audio m) = false then
          { s.audio[m] with running := false }
         else s.audio[m])
      else s.audio[m] := by
  induction l generalizing s with
  | nil => simp
  | cons n l ih =>
    rw [List.foldl_cons, ih (List.nodup_cons.1 hl).2]
    have he : (audioEnableChange before s n).enabled (.audio m) = s.enabled (.audio m) := by
      rw [State.enabled, audioEnableChange_dmacon]
      rfl
    rw [he, audioEnableChange_audio]
    by_cases h : m = n
    · subst h
      simp [(List.nodup_cons.1 hl).1]
    · simp [h]

theorem foldl_audioEnableChange_request (before : Word) (l : List (Fin 4)) (s : State) (i : Nat) :
    (l.foldl (audioEnableChange before) s).irq.request.getLsbD i =
      (s.irq.request.getLsbD i ||
        l.any (fun n => decide (i = 7 + n.val) && (!enabledIn before (.audio n) && s.enabled (.audio n)))) := by
  induction l generalizing s with
  | nil => simp
  | cons n l ih =>
    rw [List.foldl_cons, ih, audioEnableChange_request]
    have he : ∀ m, (audioEnableChange before s n).enabled (.audio m) = s.enabled (.audio m) := by
      intro m
      rw [State.enabled, audioEnableChange_dmacon]
      rfl
    simp only [he, List.any_cons, Bool.or_assoc]

/-- A write of DMACON enables no interrupt. -/
theorem writeDmacon_enable (v : Word) (s : State) : (writeDmacon v s).irq.enable = s.irq.enable := by
  have : ∀ (l : List (Fin 4)) (t : State), (l.foldl (audioEnableChange s.dmacon) t).irq.enable = t.irq.enable := by
    intro l
    induction l with
    | nil => exact fun _ => rfl
    | cons n l ih => exact fun t => (ih _).trans (audioEnableChange_enable _ _ _)
  unfold writeDmacon
  rw [this]

/-- A channel after a write of DMACON: started, stopped or left. -/
theorem writeDmacon_audio (v : Word) (s : State) (n : Fin 4) :
    (writeDmacon v s).audio[n] =
      if s.enabled (.audio n) = false ∧ enabledIn (setClr 0x07FF s.dmacon v) (.audio n) = true then
        { (s.audio[n]).reload with running := true }
      else if s.enabled (.audio n) = true ∧ enabledIn (setClr 0x07FF s.dmacon v) (.audio n) = false then
        { s.audio[n] with running := false }
      else s.audio[n] := by
  have hmem : ∀ n : Fin 4, n ∈ [(0 : Fin 4), 1, 2, 3] := by decide
  have hA := foldl_audioEnableChange_audio s.dmacon n [0, 1, 2, 3] (by decide)
    { s with dmacon := setClr 0x07FF s.dmacon v }
  rw [if_pos (hmem n)] at hA
  exact hA

/-- The requests of the audio channels after a write of DMACON. -/
theorem writeDmacon_request (v : Word) (s : State) (n : Fin 4) :
    (writeDmacon v s).irq.request.getLsbD (7 + n.val) =
      (s.irq.request.getLsbD (7 + n.val) ||
        (!s.enabled (.audio n) && enabledIn (setClr 0x07FF s.dmacon v) (.audio n))) := by
  have four : ∀ f : Fin 4 → Bool,
      [0, 1, 2, 3].any (fun m : Fin 4 => decide (7 + n.val = 7 + m.val) && f m) = f n := by
    intro f
    have : n = 0 ∨ n = 1 ∨ n = 2 ∨ n = 3 := by
      revert n
      decide
    rcases this with rfl | rfl | rfl | rfl <;> simp
  unfold writeDmacon
  rw [foldl_audioEnableChange_request]
  exact congrArg _ (four _)

/-- The other requests after a write of DMACON. -/
theorem writeDmacon_request_other (v : Word) (s : State) {i : Nat} (hi : ¬ (7 ≤ i ∧ i ≤ 10)) :
    (writeDmacon v s).irq.request.getLsbD i = s.irq.request.getLsbD i := by
  unfold writeDmacon
  rw [foldl_audioEnableChange_request]
  have : ∀ m : Fin 4, decide (i = 7 + m.val) = false := by
    intro m
    simp
    omega
  simp [this]

end Sys2Proof.Machine
end

