-- ==== Sys2Proof/Tests/Slice0.lean ====
section
/-! SUPPORT. The model's own tests, against words and values of the spec (95_test_vectors.md), and the witnesses that
the statements' hypotheses can be met. -/

namespace Sys2Proof.Tests

open Sys2Proof Sys2Proof.Machine

/-- The outcome is a next state with the property. -/
def nextIs (o : Host.Outcome State Fault Refusal) (p : State → Bool) : Bool :=
  match o with
  | .next t => p t
  | .fault _ => false
  | .refused _ => false

/-- The outcome is the refusal of line mode. -/
def isLineMode (o : Host.Outcome State Fault Refusal) : Bool :=
  match o with
  | .refused .blitterLineMode => true
  | _ => false

/-- The reset state with the Copper about to fetch the words of `w`. -/
def fetching (w : Nat) : State := State.reset.withFetchWord 32 w

/-- The reset state at a raster position. -/
def atPos (line cycle : Nat) : State := { State.reset with raster := { State.reset.raster with line := line, cycle := cycle } }

/-! ## WellFormed: ill-formed terms are refused (10 R37) -/

theorem test_wellFormed_move_odd : (Instr.move 0 0x181 0).wellFormed = false := by decide
theorem test_wellFormed_move_even : (Instr.move 0x7F 0x1FE 0xFFFF).wellFormed = true := by decide
theorem test_wellFormed_wait_skip :
    (Instr.wait 0xFF 0x7F true 0x7F 0x7F).wellFormed = true ∧ (Instr.skip 0 0 false 0 0).wellFormed = true := by decide
theorem test_exec_move_odd_faults : exec (.move 0 0x181 0) State.reset = .fault .misalignedWordAccess := by rfl

/-! ## Decoding words written out from 30 R150 to R161 -/

theorem test_decode_move_color00 : decodeWords 0b0000000_11000000_0 0x0F00 = .move 0 0x180 0x0F00 := by decide
theorem test_decode_move_ignored_bits : decodeWords 0b1111111_01000000_0 0x1234 = .move 0x7F 0x080 0x1234 := by decide
theorem test_decode_wait : decodeWords 0b00001010_0000000_1 0b0_1111111_1111111_0 = .wait 10 0 false 0x7F 0x7F := by
  decide
theorem test_decode_wait_ve0 : decodeWords 0b00001010_0100000_1 0b1_0000000_1111111_0 = .wait 10 0x20 true 0 0x7F := by
  decide
theorem test_decode_skip : decodeWords 0b01100100_0000000_1 0b1_1111111_1111111_1 = .skip 100 0 true 0x7F 0x7F := by
  decide
theorem test_decode_cend : decodeWords 0xFFFF 0xFFFE = Instr.cend := by decide
theorem test_decode_table_word : decodeTableWord 32 0x01800F00 = some (.move 0 0x180 0x0F00) := by decide
theorem test_decode_truncated : decode [0x01, 0x80, 0x0F] = .error .truncated := by rfl

/-! ## Instructions: one step each (95 section 2.2) -/

/-- 95 2.2: MOVE COLOR00 writes the palette and moves past the instruction. -/
theorem test_move_color00 : nextIs (step (fetching 0x01800F00))
    (fun t => t.palette[0] == 0xF00 && t.copper.pc == 4 && t.copper.mode == .running) = true := by decide

/-- 95 2.2: MOVE to BLTSIZE without CDANG is dropped, with the pc moved on. -/
theorem test_move_protected : nextIs (step (fetching 0x00580041))
    (fun t => !t.blitter.busy && t.blitter.size == 0 && t.copper.pc == 4) = true := by decide

/-- 95 2.2: WAIT 10, 0 at (0, 0) waits. -/
theorem test_wait_waits : nextIs (step (fetching 0x0A01FFFE))
    (fun t => t.copper.mode == .waiting && t.copper.waitValue == 0x0A00 && t.copper.waitMask == 0xFFFE) = true := by
  decide

/-- 95 2.1: WAITBLIT's wait (0x0000, mask 0x8000) is satisfied with an idle Blitter and not with a busy one. -/
theorem test_waitblit : State.reset.satisfied 0 0x8000 false = true ∧
    ({ State.reset with blitter := { State.reset.blitter with busy := true } } : State).satisfied 0 0x8000 false =
      false := by decide

/-- 95 2.2: SKIP 100, 0 before its line skips nothing. -/
theorem test_skip_not_taken : nextIs (step (fetching 0x6401FFFF)) (fun t => t.copper.pc == 4) = true := by decide

/-- 95 2.1, 2.2: SKIP 0, 0 always skips, and leaves the wait fields. -/
theorem test_skip_taken : nextIs (step (fetching 0x0001FFFF))
    (fun t => t.copper.pc == 8 && t.copper.waitMask == 0) = true := by decide

/-! ## Units (95 sections 2.3 to 2.9) -/

/-- 95 2.3: SET/CLR writes of DMACON. -/
theorem test_setClr : setClr 0x07FF 0x0280 0x0080 = 0x0200 ∧ setClr 0x07FF 0 0xFFFF = 0x07FF ∧
    setClr 0x07FF 0x07FF 0x7FFF = 0 := by decide

/-- 95 2.3: DMACONR, VPOSR and VHPOSR. -/
theorem test_status_reads :
    ({ State.reset with
        dmacon := 0x0240, blitter := { State.reset.blitter with busy := true, zero := true } } : State).dmaconr = 0x6240 ∧
      (atPos 0x110 0x22).vposr = 0x8001 ∧ (atPos 0x110 0x22).vhposr = 0x1022 := by decide

/-- 95 2.3: a byte write to COLOR00. -/
theorem test_byte_write : nextIs (performAccess (.write (.register 0x180) .byte 0x12) State.reset)
    (fun t => t.palette[0] == 0x212) = true := by decide

/-- 95 2.4: levels. -/
theorem test_levels : computeLevel 0x0000 0x3FFF = 0 ∧ computeLevel 0x4001 0x0001 = 1 ∧ computeLevel 0x4780 0x0100 = 4 ∧
    computeLevel 0x7FFF 0x2001 = 6 ∧ computeLevel 0x4020 0x2000 = 0 := by decide

/-- 95 2.5: the logic function. -/
theorem test_minterm : minterm 0xCA 0xFF00 0xF0F0 0xCCCC = 0xF0CC ∧ minterm 0x80 0xFF00 0xF0F0 0xCCCC = 0xC000 ∧
    minterm 0x0F 0xFF00 0xF0F0 0xCCCC = 0x00FF := by decide

/-- 95 2.5: the shift, ascending by 15 over two words and descending by 4. -/
theorem test_shift : blitShift false 15 0x1234 0x5678 = 0x2468 ∧ blitShift true 4 0 0x5678 = 0x6780 := by decide

/-- 95 2.7: sprite register fields. -/
theorem test_sprite_fields :
    let p := (State.reset.sprites[0].writePos 0x2C40).writeCtl 0x2C06
    p.vStart = 0x12C ∧ p.vStop = 0x12C ∧ p.hStart = 0x80 ∧ p.attached = false := by decide

/-- 95 2.8 (and 45 R427): the second DSKLEN write, a word from the controller after it in the same gap, and one slot:
the word is stored and the transfer of one word is over. -/
theorem test_disk_word_after_write :
    let s : State := { State.reset with
      disk := { State.reset.disk with armed := true }, dmacon := 0x0210
      inputs := [(1, .diskWordIn 0x1234)], calls := [.perform (.write (.register 0x024) .word 0x8001)] }
    nextIs (Host.Core.run Sys2Proof.core 3 s) (fun t => t.mem == [(0, 0x12), (1, 0x34)] && !t.disk.active) = true := by
  decide

/-- 95 2.9: classes, with DIWSTRT 0x2C81 and DIWSTOP 0x2CC1. -/
theorem test_classes :
    let s : State := { State.reset with planes := { State.reset.planes with diwstrt := 0x2C81, diwstop := 0x2CC1 } }
    slotClass s 3 0x50 = .sync ∧ slotClass s 10 0x50 = .blank ∧ slotClass s 0x2C 0x28 = .colourBurst ∧
      slotClass s 0x2C 0x3F = .border 0 ∧ slotClass s 0x2C 0x40 = .pixels ∧ slotClass s 0x2C 0xDF = .pixels ∧
      slotClass s 0x2C 0xE0 = .border 0 ∧ slotClass s 0x12C 0x80 = .border 0 := by decide

/-! ## Witnesses: states and operands that meet the hypotheses of each statement, clause by clause -/

/-- Reset with register fields replaced. -/
def withBlitter (f : Blitter → Blitter) : State := { State.reset with blitter := f State.reset.blitter }
def withPlanes (f : Planes → Planes) : State := { State.reset with planes := f State.reset.planes }
def withDisk (f : Disk → Disk) : State := { State.reset with disk := f State.reset.disk }

/-- A next state exists when one with a property does. -/
theorem nextIs_exists {o : Host.Outcome State Fault Refusal} {p : State → Bool} (h : nextIs o p = true) :
    ∃ t, o = .next t ∧ p t = true := by
  cases o with
  | next t => exact ⟨t, rfl, h⟩
  | fault r => cases h
  | refused r => cases h

theorem witness_DecodeEncodeAgree : (Instr.move 0x7F 0x1FE 0xFFFF).wellFormed = true ∧
    (Instr.wait 0xFF 0x7F true 0x7F 0x7F).wellFormed = true ∧ (Instr.skip 0 0 false 0 0).wellFormed = true := by decide

theorem witness_RegisterMapDecodes : regOf 0x0DA = some (.auddat 3) ∧ regOf 0x1BE = some (.color 31) ∧
    ∀ o ∈ ([0x05A, 0x05E, 0x068, 0x06E, 0x076, 0x07C, 0x0AC, 0x0DE, 0x0F8, 0x0FE, 0x106, 0x10C, 0x10E, 0x11C, 0x11E,
      0x1C0, 0x1FE] : List Offset), o.getLsbD 0 = false ∧ regOf o = none := by decide

theorem witness_CopperProtection :
    let danger : State := { State.reset with copper := { State.reset.copper with copcon := 0x0002 } }
    ¬ (0x080 ≤ (0x07E : Offset).toNat ∨
      (0x040 ≤ (0x07E : Offset).toNat ∧ State.reset.copper.copcon.getLsbD 1 = true)) ∧
    ¬ (0x080 ≤ (0x03E : Offset).toNat ∨ (0x040 ≤ (0x03E : Offset).toNat ∧ danger.copper.copcon.getLsbD 1 = true)) ∧
    (0x040 ≤ (0x040 : Offset).toNat ∧ danger.copper.copcon.getLsbD 1 = true) ∧ 0x080 ≤ (0x080 : Offset).toNat ∧
    (0x07E : Offset).getLsbD 0 = false := by decide

theorem witness_MoveCompletesWithFrame :
    let line := withBlitter (fun b => { b with con1 := 1 })
    (0x058 : Offset).getLsbD 0 = false ∧
    ¬ ((0x058 : Offset) = 0x058 ∧ line.copper.copcon.getLsbD 1 = true ∧ line.blitter.con1.getLsbD 0 = true) ∧
    ¬ ((0x1BE : Offset) = 0x058 ∧ line.copper.copcon.getLsbD 1 = true ∧ line.blitter.con1.getLsbD 0 = true) := by decide

theorem witness_PseudoInstructionWaits : (atPos 255 226).raster.cycle < (atPos 255 226).cfg.lineLength ∧
    (atPos 255 226).cfg.lineLength ≤ 0xFE := by decide

/-- Channel 0 rises, channel 1 falls, channels 2 (on) and 3 (off) stay. -/
theorem witness_DmaconStartsAudio :
    let s : State := { State.reset with dmacon := 0x0206 }
    nextIs (exec (.move 0 0x096 0x8001) s) (fun t => !s.enabled (.audio 0) && t.enabled (.audio 0)) = true ∧
    nextIs (exec (.move 0 0x096 0x0002) s) (fun t => s.enabled (.audio 1) && !t.enabled (.audio 1) &&
      (s.enabled (.audio 2) == t.enabled (.audio 2)) && (s.enabled (.audio 3) == t.enabled (.audio 3))) = true := by
  decide

theorem witness_PointerHalfBits :
    let narrow := { Config.ref with chipAddrBits := 18 }
    let wide := { Config.ref with chipAddrBits := 21 }
    (PtrOk narrow 0x3FFFE ∧ 18 ≤ narrow.chipAddrBits ∧ narrow.chipAddrBits ≤ 21) ∧
    (PtrOk wide 0x1FFFFE ∧ 18 ≤ wide.chipAddrBits ∧ wide.chipAddrBits ≤ 21) := by
  refine ⟨⟨⟨?_, ?_⟩, ?_, ?_⟩, ⟨?_, ?_⟩, ?_, ?_⟩ <;> decide

theorem witness_BltsizeArmsBlitter :
    ({ State.reset with copper := { State.reset.copper with copcon := 2 } } : State).copper.copcon.getLsbD 1 = true ∧
    (withBlitter (fun b => { b with con1 := 1 })).blitter.con1.getLsbD 0 = true ∧
    (withBlitter (fun b => { b with con1 := 0xFFFE })).blitter.con1.getLsbD 0 = false := by decide

theorem witness_DsklenTwoWrites :
    (0x7FFF : Word).getLsbD 15 = false ∧
    ((0x8001 : Word).getLsbD 15 = true ∧ (withDisk (fun d => { d with armed := true })).disk.armed = true ∧
      (0x8001 : Word).extractLsb' 0 14 ≠ 0) ∧
    ((0xC000 : Word).getLsbD 15 = true ∧ (0xC000 : Word).extractLsb' 0 14 = 0) ∧
    State.reset.disk.armed = false := by decide

theorem witness_CpuRegisterAccess : (0x1FF : Offset).getLsbD 0 = true ∧ (0x1FE : Offset).getLsbD 0 = false := by decide

theorem witness_RegisterReads : ∀ o ∈ ([0x000, 0x00E, 0x01A, 0x020, 0x180, 0x1FE] : List Offset),
    o ∉ ([0x002, 0x004, 0x006, 0x010, 0x01C, 0x01E] : List Offset) := by decide

/-- The Copper is granted a slot and its bytes decode; with a run in progress, with none, with a call waiting, with an
input due and with one still to come. -/
theorem witness_StepRunsDecodedInstruction :
    let s := fetching 0x01800F00
    slotGrant false s = .channel .copper ∧ decode (copperBytes (slotStart s)) = .ok (.move 0 0x180 0x0F00, []) ∧
    (s.inputs = [] ∧ s.run = none ∧ s.calls = []) ∧
    ({ s with run := some (Run.start .runFull 1) } : State).run = some (Run.start .runFull 1) ∧
    ({ s with inputs := [(1, .insertMedia)], calls := [.advance 2] } : State).calls = [.advance 2] ∧
    ({ s with inputs := [(0, .insertMedia)] } : State).inputs = [(0, .insertMedia)] := by
  refine ⟨?_, rfl, ?_, rfl, rfl, rfl⟩ <;> decide

/-- Every other grant is reached: the Blitter's, the bitplanes', a sprite's, the disk's, an audio channel's, the CPU's
and none. -/
theorem witness_StepRunsDecodedInstruction_grants :
    let on (s : State) (dmacon : Word) (cycle : Nat) : State :=
      { s with dmacon := dmacon, raster := { s.raster with cycle := cycle } }
    slotGrant false (on (withBlitter (fun b => { b with busy := true })) 0x0240 1) = .channel .blitter ∧
    slotGrant false (on (withPlanes (fun p => { p with
      fetchingLine := true, linePlanes := 1, ddfstrt := 0x38, ddfstop := 0xD0 })) 0x0300 0x38) = .channel .bitplane ∧
    slotGrant false (on (State.modSprite State.reset 7 (fun p => { p with fetch := .fetchStart })) 0x0220 0x31)
      = .channel (.sprite 7) ∧
    slotGrant false (on (withDisk (fun d => { d with active := true, bufFull := true })) 0x0210 1) = .channel .disk ∧
    slotGrant false (on (State.modAudio State.reset 3 (fun a => { a with running := true, request := true })) 0x0208 1)
      = .channel (.audio 3) ∧
    slotGrant true State.reset = .cpu ∧ slotGrant false State.reset = .idle := by decide

theorem witness_GrantIsFixedPriority : State.reset.dmacon.getLsbD 9 = false ∧
    (∀ n : Fin 4, State.reset.enabled (.audio n) = false) ∧ grant true State.reset = .cpu ∧
    grant false State.reset = .idle ∧ grant true (fetching 0) = .channel .copper := by decide

theorem witness_CopperSlots :
    (∃ t, slot false (fetching 0x01800F00) = .next t ∧ slotGrant false (fetching 0x01800F00) = .channel .copper) ∧
    (∃ t, slot false State.reset = .next t ∧ slotGrant false State.reset ≠ .channel .copper) := by
  obtain ⟨t, h, -⟩ := nextIs_exists (o := slot false (fetching 0x01800F00)) (p := fun _ => true) (by decide)
  obtain ⟨u, k, -⟩ := nextIs_exists (o := slot false State.reset) (p := fun _ => true) (by decide)
  exact ⟨⟨t, h, by decide⟩, u, k, by decide⟩

theorem witness_JumpNextSlot :
    let reload : State := { State.reset with cfg := { Config.ref with copperVblankReload := true } }
    State.reset.cfg.copperVblankReload = false ∧
    (reload.cfg.copperVblankReload = true ∧ reload.raster.cycle = 0 ∧ reload.raster.line = 0) ∧
    ¬ ((atPos 0 1).raster.cycle = 0 ∧ (atPos 0 1).raster.line = 0) := by decide

/-- The stop of SlotsNeverFault is reached. -/
theorem witness_SlotsNeverFault :
    let s := fetching 0x00580041
    isLineMode (slot false { s with
      copper := { s.copper with copcon := 2 }, blitter := { s.blitter with con1 := 1 } }) = true := by decide

/-- The Blitter granted at step A and at step D, the disk at a READ and at a WRITE, and no channel granted. -/
theorem witness_OnlyGrantedChannelStores :
    let blit (st : BlitStep) : State := { withBlitter (fun b => { b with
      busy := true, latch0 := 0x09F0, width := 1, height := 1, linesLeft := 1, step := st }) with dmacon := 0x0240 }
    let disk (d : DiskDir) (full : Bool) : State := { withDisk (fun k => { k with
      active := true, dir := d, left := 1, bufFull := full }) with dmacon := 0x0210 }
    (slotGrant false (blit .a) = .channel .blitter ∧ (slotStart (blit .a)).blitter.step ≠ .d ∧
      nextIs (slot false (blit .a)) (fun _ => true) = true) ∧
    (slotGrant false (blit .d) = .channel .blitter ∧ nextIs (slot false (blit .d)) (fun _ => true) = true) ∧
    (slotGrant false (disk .read true) = .channel .disk ∧ (disk .read true).disk.dir = .read ∧
      nextIs (slot false (disk .read true)) (fun _ => true) = true) ∧
    (slotGrant false (disk .write false) = .channel .disk ∧ (disk .write false).disk.dir = .write ∧
      nextIs (slot false (disk .write false)) (fun _ => true) = true) ∧
    slotGrant false State.reset = .idle ∧ Memory.wf State.reset.mem = true := by decide

/-- At both ends of installed RAM, and with one byte of it installed. -/
theorem witness_BigEndianWords : State.reset.cfg.valid = true ∧ Memory.wf State.reset.mem = true ∧
    Memory.wf [(0, 1), (0x7FFFF, 0xFF)] = true ∧ State.reset.cfg.chipRamBytes ≠ 1 ∧
    ({ Config.ref with chipRamBytes := 1 } : Config).valid = true := by decide

theorem witness_AccountingLaw : RasterOk (atPos 311 226) ∧ ∃ t, slots 1 (atPos 311 226) = .next t := by
  refine ⟨⟨by decide, by decide, rfl, by decide⟩, ?_⟩
  obtain ⟨t, h, -⟩ := nextIs_exists (o := slots 1 (atPos 311 226)) (p := fun _ => true) (by decide)
  exact ⟨t, h⟩

theorem witness_AdvanceReturnsItsSlots :
    let s : State := { State.reset with calls := [.advance 2] }
    s.inputs = [] ∧ s.run = none ∧ s.calls = [.advance 2] ∧
    nextIs (Host.Core.run Sys2Proof.core 3 s) (fun t => t.run == none) = true := by decide

theorem witness_RunForKeepsOddTick :
    let s (d : Nat) : State := { State.reset with calls := [.runFor d] }
    (s 1).inputs = [] ∧ (s 1).run = none ∧ ((s 1).raster.residualTicks + 1) / 2 = 0 ∧
    ((s 5).raster.residualTicks + 5) / 2 ≠ 0 := by decide

theorem witness_CpuSlotEndsRun :
    let r := Run.start .stopOnCpuSlot 0
    let free : State := { State.reset with run := some r }
    let taken : State := { fetching 0x01800F00 with run := some r }
    r.mode = .stopOnCpuSlot ∧ free.inputs = [] ∧ slotGrant true free = .cpu ∧
    nextIs (step free) (fun t => t.run == none) = true ∧ slotGrant true taken ≠ .cpu ∧
    nextIs (step taken) (fun t => t.run != none) = true := by decide

theorem witness_InterruptLevel :
    (0x3FFF : Word).getLsbD 14 = false ∧
    ((0x6000 : Word).getLsbD 14 = true ∧ (0x6000 : Word).getLsbD 13 = true ∧ (0x2000 : Word).getLsbD 13 = true) ∧
    ((0x4001 : Word).getLsbD 14 = true ∧ (0x4001 : Word).getLsbD 0 = true) ∧
    State.reset.irq.level = computeLevel State.reset.irq.enable State.reset.irq.request ∧
    nextIs (step State.reset) (fun _ => true) = true := by decide

/-- A Copper MOVE of 0x0020 to INTREQ clears VERTB. -/
theorem witness_OnlyIntreqWritesClearRequests :
    let s : State := { fetching 0x009C0020 with
      raster := { State.reset.raster with cycle := 2 }, irq := { State.reset.irq with request := 0x0020 } }
    nextIs (slot false s) (fun t => s.irq.request.getLsbD 5 && !t.irq.request.getLsbD 5) = true := by decide

theorem witness_BlitterDataPath : (15 < 16 ∧ ¬ 15 + 15 < 16) ∧ (0 < 16 ∧ 15 + 0 < 16) ∧ 15 ≤ 15 ∧ ¬ 15 ≤ 14 := by decide

theorem witness_BlitterCopiesOneWord :
    let s := withBlitter (fun b => { b with con0 := 0x09F0, con1 := 0, afwm := 0xFFFF, alwm := 0xFFFF })
    Memory.wf s.mem = true ∧ s.blitter.con0 = 0x09F0 ∧ s.blitter.con1 = 0 ∧ s.blitter.afwm = 0xFFFF ∧
    s.blitter.alwm = 0xFFFF := by decide

/-- The end of a blit, a word inside a line, and a source step, of canonical memory. -/
theorem witness_BlitterStepFrame :
    let blit (st : BlitStep) (w : Nat) : State := withBlitter (fun b => { b with
      busy := true, latch0 := 0x09F0, width := w, height := 1, linesLeft := 1, step := st })
    Memory.wf State.reset.mem = true ∧
    (blitterStep (blit .d 1)).blitter.busy = false ∧ (blitterStep (blit .d 2)).blitter.wordX = 1 ∧
    (blitterStep (blit .a 1)).blitter.step = .d := by decide

/-- BLTSIZE 0 (64 x 1024 words) and BLTSIZE 0x0041 (one word), with no channel and with four. -/
theorem witness_BlitTakesExactSlots :
    nextIs (writeOffset .cpu 0x058 0x0000 State.reset) (fun t => t.blitter.width == 64 && t.blitter.height == 1024) = true ∧
    nextIs (writeOffset .cpu 0x058 0x0041 (withBlitter (fun b => { b with con0 := 0x0F00 })))
      (fun t => t.blitter.width == 1 && t.blitter.height == 1) = true := by decide

theorem witness_BitplaneFetchResult :
    (withPlanes (fun p => { p with linePlanes := 6 })).planes.nextPlane = some 3 ∧
    (withPlanes (fun p => { p with linePlanes := 2, unitFetched := #v[false, true, false, false, false, false] })).planes.nextPlane
      = some 0 := by decide

/-- The last slot of a low resolution unit, and the one before it. -/
theorem witness_BitplaneUnitTick :
    let s (cyc : Nat) : State := { withPlanes (fun p => { p with
      fetchingLine := true, linePlanes := 1, ddfstrt := 0x38, ddfstop := 0xD0 }) with
      dmacon := 0x0300, raster := { State.reset.raster with cycle := cyc } }
    (bitplaneUnitTick (s 0x3F)).planes.hasNext = true ∧ (bitplaneUnitTick (s 0x3E)).planes.hasNext = false ∧
    (bitplaneUnitTick (s 0xD7)).planes.hasNext = true ∧ (bitplaneUnitTick (s 0xDF)).planes.hasNext = false := by decide

theorem witness_BitplaneShifter : (15 < 16 ∧ ¬ 15 < 15) ∧ (0 < 16 ∧ 0 < 15) ∧ ¬ 15 + 2 < 16 ∧ 0 + 4 < 16 := by decide

theorem witness_LineStartEvents : (atPos 25 0).raster.cycle = 0 ∧
    (atPos 25 0).raster.line = (atPos 25 0).cfg.spriteDmaStartLine ∧
    (atPos 26 0).raster.line ≠ (atPos 26 0).cfg.spriteDmaStartLine ∧ (atPos 25 1).raster.cycle ≠ 0 := by decide

theorem witness_SpriteFetchResult : ∀ f : SpriteFetch,
    (State.modSprite State.reset 7 (fun p => { p with fetch := f })).sprites[(7 : Fin 8)].fetch = f := by
  intro f
  cases f <;> decide

/-- Outside the window and inside it, and the sprite pixel of a pair (bits 0 and 3 of its nibble). -/
theorem witness_OutputSlotShifts : slotClass State.reset 0 0 ≠ .pixels ∧
    slotClass (withPlanes (fun p => { p with diwstrt := 0x2C81, diwstop := 0x2CC1 })) 0x2C 0x40 = .pixels ∧
    (0 < 4 ∧ 3 < 4) := by decide

theorem witness_DiskStepResult : (withDisk (fun d => { d with left := 1 })).disk.left = 1 ∧
    (withDisk (fun d => { d with left := 0x3FFF })).disk.left ≠ 1 ∧ State.reset.disk.dir = .read := by decide

theorem witness_AudioStepResult :
    (State.modAudio State.reset 3 (fun a => { a with left := 1 })).audio[(3 : Fin 4)].left = 1 ∧
    (State.modAudio State.reset 3 (fun a => { a with left := 65536 })).audio[(3 : Fin 4)].left ≠ 1 := by decide

theorem witness_PlayfieldPriority : (withPlanes (fun p => { p with con0 := 0x0400 })).planes.con0.getLsbD 10 = true ∧
    State.reset.planes.con0.getLsbD 10 = false ∧
    (pairPixel 3 true 0xF = some ⟨3, 31⟩ ∧ pairPixel 3 false 0x4 = some ⟨3, 29⟩ ∧ pairPixel 0 false 0 = none) := by
  decide

/-- HAM, EHB, and neither (five planes; EHB not supported). -/
theorem witness_HamAndEhbPixels :
    let ham := withPlanes (fun p => { p with con0 := 0x6800, linePlanes := 6 })
    let ehb := withPlanes (fun p => { p with con0 := 0x6000, linePlanes := 6 })
    let five := withPlanes (fun p => { p with con0 := 0x5800, linePlanes := 5 })
    (ham.planes.con0.getLsbD 11 = true ∧ ham.planes.con0.getLsbD 10 = false ∧ ham.planes.linePlanes = 6) ∧
    (ehb.cfg.ehbSupported = true ∧ ehb.planes.con0.getLsbD 11 = false ∧ ehb.planes.con0.getLsbD 10 = false ∧
      ehb.planes.linePlanes = 6) ∧
    five.planes.linePlanes ≠ 6 := by decide

theorem witness_FourUnitsPerSlot :
    let s : State := { atPos 0x2C 0x40 with
      cfg := { Config.ref with pixelBufferUnits := 4 }, sinkInstalled := true
      planes := { State.reset.planes with diwstrt := 0x2C81, diwstop := 0x2CC1 } }
    OutputOk s ∧ s.sinkInstalled = true ∧ ∃ t, slot false s = .next t := by
  refine ⟨⟨rfl, by decide⟩, rfl, ?_⟩
  obtain ⟨t, h, -⟩ := nextIs_exists (p := fun _ => true)
    (o := slot false { atPos 0x2C 0x40 with
      cfg := { Config.ref with pixelBufferUnits := 4 }, sinkInstalled := true
      planes := { State.reset.planes with diwstrt := 0x2C81, diwstop := 0x2CC1 } }) (by decide)
  exact ⟨t, h⟩

/-- The last two accepted: 95 2.9's wrapping HBLANK, with the burst outside it, and one byte of RAM (00 R10). -/
theorem witness_ConstructChecksParameters : Config.ref.valid = true ∧ Config.refNtsc.valid = true ∧
    ({ Config.ref with lineLength := 0x7F } : Config).valid = false ∧
    ({ Config.ref with pixelBufferUnits := 3 } : Config).valid = false ∧
    ({ Config.ref with chipRamBytes := 3 } : Config).valid = false ∧
    ({ Config.ref with chipAddrBits := 21, chipRamBytes := 2097152 } : Config).valid = true ∧
    ({ Config.ref with hblankStart := 0xE0, hblankEnd := 0x10 } : Config).valid = true ∧
    ({ Config.ref with chipRamBytes := 1 } : Config).valid
      = true := ⟨by rfl, by rfl, by rfl, by rfl, by rfl, by rfl, by rfl, by rfl⟩

theorem witness_FirstSlotAfterReset :
    nextIs (State.construct Config.ref ResetDraws.zero) (fun s => !s.cfg.copperVblankReload) = true ∧
    nextIs (State.construct { Config.ref with copperVblankReload := true } ResetDraws.zero)
      (fun s => s.cfg.copperVblankReload) = true := ⟨by rfl, by rfl⟩

theorem witness_ConstructedStatesMeetInv :
    State.construct Config.ref ResetDraws.zero = .next State.reset := by rfl

/-- The last position of a frame, a fetch slot of the Copper: a step the invariants are kept by. -/
theorem witness_RasterStaysInFrame : (atPos 311 226).cfg.valid = true ∧ RasterOk (atPos 311 226) ∧
    nextIs (step (atPos 311 226)) (fun t => t.raster.line == 0 && t.raster.frameCount == 1) = true :=
  ⟨by decide, ⟨by decide, by decide, rfl, by decide⟩, by decide⟩

theorem witness_MemoryStaysInstalled :
    let s : State := { State.reset with mem := [(0x7FFFF, 1)], calls := [.perform (.write (.chipRam 0x7FFFE) .word 0x1200)] }
    s.cfg.valid = true ∧ MemoryOk s ∧ nextIs (step s) (fun t => t.mem == [(0x7FFFE, 0x12)]) = true :=
  ⟨by decide, ⟨by decide, by decide⟩, by decide⟩

theorem witness_PointersStayAligned : PointersOk (fetching 0x00800007) ∧
    nextIs (step (fetching 0x00800007)) (fun t => t.copper.loc1 == 0x70000) = true := by
  refine ⟨⟨?_, ?_, ?_, ?_, ?_, ?_, ?_, ?_, ?_, ?_, ?_, ?_⟩, ?_⟩ <;> first | decide | (refine ⟨?_, ?_⟩ <;> decide) |
    (intro n; refine ⟨?_, ?_⟩ <;> revert n <;> decide)

theorem witness_UnitsStayInBounds : RegistersOk State.reset ∧ BlitterOk State.reset ∧ PlanesOk State.reset ∧
    SpritesOk State.reset ∧ ChannelsOk State.reset ∧ OutputOk State.reset ∧
    nextIs (step State.reset) (fun _ => true) = true := by
  refine ⟨⟨?_, ?_, ?_, ?_⟩, ⟨?_, ?_, ?_, ?_, ?_⟩, ⟨?_, ?_⟩, ?_, ⟨?_, ?_⟩, ⟨?_, ?_⟩, ?_⟩ <;> first | decide |
    (unfold SpritesOk; decide)

end Sys2Proof.Tests
end

section
/-! SUPPORT. The parameter check of construction (00_scope.md R10, R14) and the obligation about it. -/

namespace Sys2Proof

/-- The model's test for a power of two. -/
theorem eq_two_pow_log2_iff (n : Nat) : n = 2 ^ Nat.log2 n ↔ ∃ k, n = 2 ^ k := by
  constructor
  · exact fun h => ⟨_, h⟩
  · rintro ⟨k, rfl⟩
    rw [Nat.log2_two_pow]

namespace Config

/-- The constraint of `SPRITE_FETCH_CYCLE`, sprite by sprite. -/
theorem spriteFetchCycle_all_iff (c : Config) (b : Nat) :
    c.spriteFetchCycle.toList.all (· < b) = true ↔ ∀ n : Fin 8, c.spriteFetchCycle[n] < b := by
  simp only [List.all_eq_true, decide_eq_true_eq, Vector.mem_toList_iff]
  constructor
  · exact fun h n => h _ (Vector.getElem_mem n.isLt)
  · intro h x hx
    obtain ⟨i, hi, rfl⟩ := Vector.getElem_of_mem hx
    exact h ⟨i, hi⟩

/-- The check reports no problem exactly when every constraint holds. -/
theorem problem_eq_none_iff (c : Config) : c.problem = none ↔ c.valid = true := by
  simp [problem, valid]

/-- The constraint column of R10. -/
theorem valid_iff (c : Config) : c.valid = true ↔
    0x80 ≤ c.lineLength ∧ c.lineLength ≤ 0x100 ∧ 0x100 < c.fieldHeight ∧ c.fieldHeight ≤ 0x200 ∧
    0 < c.vblankEndLine ∧ c.vblankEndLine < c.fieldHeight ∧ c.vsyncStartLine < c.vsyncEndLine ∧
    c.vsyncEndLine < c.vblankEndLine ∧ c.hsyncStart < c.hsyncEnd ∧ c.hsyncEnd ≤ c.lineLength ∧
    c.hblankStart < c.lineLength ∧ c.hblankEnd < c.lineLength ∧ c.burstStart < c.lineLength ∧
    c.burstEnd < c.lineLength ∧ 18 ≤ c.chipAddrBits ∧ c.chipAddrBits ≤ 21 ∧
    c.chipRamBytes ≤ 2 ^ c.chipAddrBits ∧ (∃ k, c.chipRamBytes = 2 ^ k) ∧
    (∀ n : Fin 8, c.spriteFetchCycle[n] < c.lineLength - 1) ∧ c.spriteDmaStartLine < c.fieldHeight ∧
    4 ≤ c.pixelBufferUnits := by
  simp only [valid, constraints, List.all_cons, List.all_nil, Bool.and_eq_true, Bool.and_true, decide_eq_true_eq,
    beq_iff_eq, eq_two_pow_log2_iff, spriteFetchCycle_all_iff, and_assoc]

end Config

namespace Machine.State

/-- R14: parameters inside their constraints give the reset state. -/
theorem construct_of_valid {cfg : Config} (h : cfg.valid = true) (d : ResetDraws) :
    construct cfg d = .next ((blank cfg).resetWith d) := by
  simp only [construct, (Config.problem_eq_none_iff cfg).mpr h]

/-- R14: any other parameters are refused with the status of a failed constraint. -/
theorem construct_of_valid_eq_false {cfg : Config} (h : cfg.valid = false) (d : ResetDraws) :
    ∃ status, construct cfg d = .refused (.badConfiguration status) := by
  cases hp : cfg.problem with
  | none => simp [(Config.problem_eq_none_iff cfg).mp hp] at h
  | some status => exact ⟨status, by simp only [construct, hp]⟩

end Machine.State

/-- Settles O54: the three parts are what construction does with an accepted and with a refused configuration, and the
constraint column of R10. -/
theorem constructChecksParameters : Obligations.ConstructChecksParameters := fun cfg d =>
  ⟨fun h => Machine.State.construct_of_valid h d, fun h => Machine.State.construct_of_valid_eq_false h d,
    Config.valid_iff cfg⟩

end Sys2Proof
end

section
/-! SUPPORT. What every step keeps: the raster inside its frame, every pointer in form, every unit inside its bounds.
Each follows from `step_preserves` and what the parts of a step keep. -/

namespace Sys2Proof.Machine

/-- A CPU access leaves the configuration, the raster and the output assembler alone. -/
theorem performAccess_frame {a : Access} {s t : State} (h : performAccess a s = .next t) :
    t.cfg = s.cfg ∧ t.raster = s.raster ∧ t.output = s.output := by
  rcases performAccess_cases h with ⟨_, _, rfl⟩ | ⟨o, v, hw⟩ | ⟨_, _, rfl⟩ | ⟨_, _, rfl⟩
  · exact ⟨rfl, rfl, rfl⟩
  · obtain ⟨hc, -, hr, ho, -, -⟩ := writeOffset_frame hw
    exact ⟨hc, hr, ho⟩
  · exact ⟨rfl, rfl, rfl⟩
  · exact ⟨rfl, rfl, rfl⟩

/-! ## The raster (R32 to R34) -/

/-- A reset goes to position (0, 0), which a valid configuration's frame holds. -/
theorem resetWith_rasterOk (d : ResetDraws) {s : State} (hv : s.cfg.valid = true) : RasterOk (s.resetWith d) := by
  obtain ⟨hl, -, hf, -⟩ := (Config.valid_iff s.cfg).1 hv
  refine ⟨?_, ?_, rfl, Nat.zero_lt_two⟩
  · show 0 < s.cfg.fieldHeight
    omega
  · show 0 < s.cfg.lineLength
    omega

/-- Every step keeps the configuration, and the raster inside a valid one's frame. -/
theorem step_keeps_raster {cfg : Config} (hv : cfg.valid = true) {s t : State} (h : s.cfg = cfg ∧ RasterOk s)
    (hs : step s = .next t) : t.cfg = cfg ∧ RasterOk t := by
  refine step_preserves (P := fun s => s.cfg = cfg ∧ RasterOk s) (fun _ _ _ _ _ h => ⟨h.1, rasterOk_of h.2 rfl rfl⟩)
    (fun i s h => ?input) (fun s h => ?start) (fun c s t h _ hg => ?grant) (fun s h => ?stop) (fun s n hn h => ?tick)
    (fun a s t h ha => ?access) (fun d s h => ?reset) h hs
  case input =>
    obtain ⟨hc, -, hr, -⟩ := performInput_frame i s
    exact ⟨hc.trans h.1, rasterOk_of h.2 hc hr⟩
  case start => exact ⟨(slotStart_cfg s).trans h.1, rasterOk_of h.2 (slotStart_cfg s) (slotStart_raster s)⟩
  case grant =>
    obtain ⟨hc, hr, -⟩ := performGrant_frame hg
    exact ⟨hc.trans h.1, rasterOk_of h.2 hc hr⟩
  case stop => exact ⟨(slotEnd_cfg s).trans h.1, slotEnd_rasterOk h.2⟩
  case tick => exact ⟨h.1, ⟨h.2.line, h.2.cycle, h.2.lof, hn⟩⟩
  case access =>
    obtain ⟨hc, hr, -⟩ := performAccess_frame ha
    exact ⟨hc.trans h.1, rasterOk_of h.2 hc hr⟩
  case reset => exact ⟨h.1, resetWith_rasterOk d (h.1 ▸ hv)⟩

/-! ## Pointers (R31, R45) -/

/-- `PointersOk` does not read chip RAM, the leftover tick or the model's own lists. -/
theorem PointersOk.blind {s : State} (h : PointersOk s) (mem : Memory) (raster : Raster) (responses : List Response)
    (inputs : List (Nat × Input)) (calls : List Call) (run : Option Run) (drawCount : Nat) :
    PointersOk { s with
      mem := mem, raster := raster, responses := responses, inputs := inputs, calls := calls, run := run
      drawCount := drawCount } :=
  ⟨h.pc, h.loc1, h.loc2, h.apt, h.bpt, h.cpt, h.dpt, h.disk, h.planes, h.sprites, h.audioLoc, h.audioPtr⟩

theorem step_keeps_pointersOk {s t : State} (h : PointersOk s) (hs : step s = .next t) : PointersOk t :=
  step_preserves (P := PointersOk) (fun _ _ _ _ _ h => h.blind _ _ _ _ _ _ _)
    (fun i _ h => performInput_pointersOk i h) (fun _ h => slotStart_pointersOk h)
    (fun _ _ _ h _ hg => performGrant_pointersOk h hg) (fun _ h => slotEnd_pointersOk h)
    (fun _ _ _ h => h.blind _ _ _ _ _ _ _)
    (fun _ _ _ h ha => performAccess_preserves (P := PointersOk) (fun _ _ _ _ h hw => writeOffset_pointersOk h hw)
      (fun _ _ _ _ h => h.blind _ _ _ _ _ _ _) h ha)
    (fun d s _ => resetWith_pointersOk d s) h hs

/-! ## Reserved bits (R40 to R43) -/

theorem step_keeps_registersOk {s t : State} (h : RegistersOk s) (hs : step s = .next t) : RegistersOk t :=
  step_preserves (P := RegistersOk) (fun _ _ _ _ _ h => registersOk_of h rfl rfl ⟨h.enable, h.request⟩)
    (fun i _ h => performInput_registersOk i h) (fun _ h => slotStart_registersOk h)
    (fun _ _ _ h _ hg => performGrant_registersOk h hg)
    (fun s h => registersOk_of h (slotEnd_dmacon s) (slotEnd_adkcon s)
      (by rw [slotEnd_irq]; exact ⟨h.enable, h.request⟩))
    (fun _ _ _ h => registersOk_of h rfl rfl ⟨h.enable, h.request⟩)
    (fun _ _ _ h ha => performAccess_preserves (P := RegistersOk) (fun _ _ _ _ h hw => writeOffset_registersOk h hw)
      (fun _ _ _ _ h => registersOk_of h rfl rfl ⟨h.enable, h.request⟩) h ha)
    (fun _ _ _ => ⟨BitVec.zero_and, BitVec.getLsbD_zero, BitVec.getLsbD_zero, BitVec.getLsbD_zero⟩) h hs

/-! ## The Blitter (R281, R284, R289) -/

theorem step_keeps_blitterOk {s t : State} (h : s.blitter.Ok) (hs : step s = .next t) : t.blitter.Ok :=
  step_preserves (P := fun s => s.blitter.Ok) (fun _ _ _ _ _ h => h)
    (fun i s h => by
      obtain ⟨-, -, -, -, -, -, -, hb, -⟩ := performInput_frame i s
      exact hb ▸ h)
    (fun s h => by rw [slotStart_blitter]; exact h)
    (fun _ _ _ h _ hg => performGrant_blitterOk h hg) (fun s h => by rw [slotEnd_blitter]; exact h)
    (fun _ _ _ h => h)
    (fun _ _ _ h ha => performAccess_preserves (P := fun s => s.blitter.Ok)
      (fun _ _ _ _ h hw => writeOffset_blitterOk h hw) (fun _ _ _ _ h => h) h ha)
    (fun _ _ _ hb => nomatch hb) h hs

/-! ## Bitplanes (R331) -/

theorem writeOffset_planesOk {agent : Agent} {o : Offset} {v : Word} {s t : State} (h : s.planes.Ok)
    (hw : writeOffset agent o v s = .next t) : t.planes.Ok :=
  writeOffset_preserves (P := fun s => s.planes.Ok) (fun r v _ h => storeReg_planesOk r v h) (fun _ _ h => h)
    (fun _ _ h => h) h hw

theorem step_keeps_planesOk {s t : State} (h : s.planes.Ok) (hs : step s = .next t) : t.planes.Ok :=
  step_preserves (P := fun s => s.planes.Ok) (fun _ _ _ _ _ h => h)
    (fun i s h => by
      obtain ⟨-, -, -, -, -, hp, -⟩ := performInput_frame i s
      exact hp ▸ h)
    (fun _ h => slotStart_planesOk h) (fun _ _ _ h _ hg => performGrant_planesOk h hg)
    (fun _ h => slotEnd_planesOk h) (fun _ _ _ h => h)
    (fun _ _ _ h ha => performAccess_preserves (P := fun s => s.planes.Ok)
      (fun _ _ _ _ h hw => writeOffset_planesOk h hw) (fun _ _ _ _ h => h) h ha)
    (fun _ _ _ => ⟨Nat.zero_le 6, fun _ => Nat.zero_le 4⟩) h hs

/-! ## Sprites (R374) -/

theorem writeOffset_spritesOk {agent : Agent} {o : Offset} {v : Word} {s t : State} (h : SpritesBound s.sprites)
    (hw : writeOffset agent o v s = .next t) : SpritesBound t.sprites :=
  writeOffset_preserves (P := fun s => SpritesBound s.sprites) (fun r v _ h => storeReg_spritesOk r v h)
    (fun _ _ h => h) (fun _ _ h => h) h hw

/-- After a reset no sprite has fetched in this line. -/
theorem resetWith_spritesOk (d : ResetDraws) (s : State) : SpritesBound (s.resetWith d).sprites :=
  ForAll.vmap (g := fun _ => True) (fun _ => trivial) (fun _ _ => Nat.zero_le 2)

theorem step_keeps_spritesOk {s t : State} (h : SpritesBound s.sprites) (hs : step s = .next t) :
    SpritesBound t.sprites :=
  step_preserves (P := fun s => SpritesBound s.sprites) (fun _ _ _ _ _ h => h)
    (fun i s h => by
      obtain ⟨-, -, -, -, -, -, hp, -⟩ := performInput_frame i s
      exact hp ▸ h)
    (fun _ h => slotStart_spritesOk h) (fun _ _ _ h hw hg => performGrant_spritesOk h hw hg)
    (fun _ h => slotEnd_spritesOk h) (fun _ _ _ h => h)
    (fun _ _ _ h ha => performAccess_preserves (P := fun s => SpritesBound s.sprites)
      (fun _ _ _ _ h hw => writeOffset_spritesOk h hw) (fun _ _ _ _ h => h) h ha)
    (fun d s _ => resetWith_spritesOk d s) h hs

/-! ## Disk and audio (R411, R415, R422) -/

theorem slotStart_channelsOk {s : State} (h : s.disk.Ok ∧ ForAll Audio.Ok s.audio) :
    (slotStart s).disk.Ok ∧ ForAll Audio.Ok (slotStart s).audio := by
  rw [slotStart_disk, samplePeripherals_eq, slotStart_audio]
  exact h

theorem writeOffset_channelsOk {agent : Agent} {o : Offset} {v : Word} {s t : State}
    (h : s.disk.Ok ∧ ForAll Audio.Ok s.audio) (hw : writeOffset agent o v s = .next t) :
    t.disk.Ok ∧ ForAll Audio.Ok t.audio :=
  writeOffset_preserves (P := fun s => s.disk.Ok ∧ ForAll Audio.Ok s.audio) (fun r v _ h => storeReg_channelsOk r v h)
    (fun _ _ h => h) (fun _ _ h => h) h hw

/-- After a reset no disk transfer is under way and no audio channel runs. -/
theorem resetWith_channelsOk (d : ResetDraws) (s : State) :
    (s.resetWith d).disk.Ok ∧ ForAll Audio.Ok (s.resetWith d).audio :=
  ⟨(fun h => nomatch h), ForAll.vmap (g := fun _ => True) (fun _ => trivial) fun _ _ h => nomatch h⟩

theorem step_keeps_channelsOk {s t : State} (h : s.disk.Ok ∧ ForAll Audio.Ok s.audio) (hs : step s = .next t) :
    t.disk.Ok ∧ ForAll Audio.Ok t.audio :=
  step_preserves (P := fun s => s.disk.Ok ∧ ForAll Audio.Ok s.audio) (fun _ _ _ _ _ h => h)
    (fun i _ h => performInput_channelsOk i h) (fun _ h => slotStart_channelsOk h)
    (fun _ _ _ h _ hg => performGrant_channelsOk h hg)
    (fun s h => by rw [slotEnd_disk, slotEnd_audio]; exact h) (fun _ _ _ h => h)
    (fun _ _ _ h ha => performAccess_preserves (P := fun s => s.disk.Ok ∧ ForAll Audio.Ok s.audio)
      (fun _ _ _ _ h hw => writeOffset_channelsOk h hw) (fun _ _ _ _ h => h) h ha)
    (fun d s _ => resetWith_channelsOk d s) h hs

/-! ## The output assembler (R460) -/

/-- The capacity stands with the bound, since the bound reads it from the configuration. -/
theorem step_keeps_outputOk {cap : Nat} (h4 : 4 ≤ cap) {s t : State}
    (h : s.cfg.pixelBufferUnits = cap ∧ s.output.Ok cap) (hs : step s = .next t) :
    t.cfg.pixelBufferUnits = cap ∧ t.output.Ok cap := by
  refine step_preserves (P := fun s => s.cfg.pixelBufferUnits = cap ∧ s.output.Ok cap) (fun _ _ _ _ _ h => h)
    (fun i s h => ?input) (fun s h => ?start) (fun c s t h _ hg => ?grant) (fun s h => ?stop) (fun _ _ _ h => h)
    (fun a s t h ha => ?access) (fun _ _ h => ⟨h.1, rfl, h4⟩) h hs
  case input =>
    obtain ⟨hc, -, -, ho, -⟩ := performInput_frame i s
    rw [hc, ho]
    exact h
  case start =>
    rw [slotStart_cfg, slotStart_output]
    exact h
  case grant =>
    obtain ⟨hc, -, ho, -⟩ := performGrant_frame hg
    rw [hc, ho]
    exact h
  case stop =>
    obtain ⟨rfl, ho⟩ := h
    rw [slotEnd_cfg]
    exact ⟨rfl, slotEnd_outputOk h4 ho⟩
  case access =>
    obtain ⟨hc, -, ho⟩ := performAccess_frame ha
    rw [hc, ho]
    exact h

end Sys2Proof.Machine

open Sys2Proof Sys2Proof.Machine

/-- Settles O57: every part of a step keeps the position inside the frame; a reset goes back to (0, 0). -/
theorem rasterStaysInFrame : Obligations.RasterStaysInFrame := fun _ _ hv h hs =>
  (step_keeps_raster hv ⟨rfl, h⟩ hs).symm

/-- Settles O59: every pointer a step computes is wrapped to an even one of CHIP_ADDR_BITS bits. -/
theorem pointersStayAligned : Obligations.PointersStayAligned := fun _ _ h hs => step_keeps_pointersOk h hs

/-- Settles O60: unit by unit, each bound read through the unit's own predicate. -/
theorem unitsStayInBounds : Obligations.UnitsStayInBounds := fun s t hs =>
  ⟨fun h => step_keeps_registersOk h hs,
    fun h => (blitterOk_iff t).2 (step_keeps_blitterOk ((blitterOk_iff s).1 h) hs),
    fun h => (planesOk_iff t).2 (step_keeps_planesOk ((planesOk_iff s).1 h) hs),
    fun h => step_keeps_spritesOk h hs,
    fun h => (channelsOk_iff t).2 (step_keeps_channelsOk ((channelsOk_iff s).1 h) hs),
    fun h4 h => by
      obtain ⟨hc, ho⟩ := step_keeps_outputOk h4 ⟨rfl, (outputOk_iff s).1 h⟩ hs
      exact (outputOk_iff t).2 (hc ▸ ho)⟩

end

section
/-! SUPPORT. Pointer halves bit by bit, the register map's gaps, and what a write or a read of each register does. -/

namespace Sys2Proof.Machine

/-! ## Pointer halves (R45) -/

/-- A pointer in form is its own wrap: bit 0 and the bits at and above `CHIP_ADDR_BITS` are 0. -/
theorem PtrOk.getLsbD_eq {cfg : Config} {p : Ptr} (h : PtrOk cfg p) (i : Nat) :
    p.getLsbD i = (decide (1 ≤ i) && decide (i < cfg.chipAddrBits) && p.getLsbD i) := by
  obtain ⟨hlt, heven⟩ := h
  by_cases h0 : i = 0
  · subst h0
    simp [BitVec.getLsbD, Nat.testBit_zero, heven]
  · by_cases hi : i < cfg.chipAddrBits
    · simp [hi, Nat.one_le_iff_ne_zero.2 h0]
    · have : p.getLsbD i = false :=
        Nat.testBit_lt_two_pow (hlt.trans_le (Nat.pow_le_pow_right (by omega) (by omega)))
      simp [this]

/-- The bits after a write of a pointer's high register. -/
theorem ptrSetHigh_getLsbD {cfg : Config} {p : Ptr} (v : Word) (i : Nat) (h : PtrOk cfg p)
    (h18 : 18 ≤ cfg.chipAddrBits) (h21 : cfg.chipAddrBits ≤ 21) :
    (ptrSetHigh cfg p v).getLsbD i =
      if i < 16 then p.getLsbD i else decide (i < cfg.chipAddrBits) && v.getLsbD (i - 16) := by
  rw [ptrSetHigh, wrapPtr_getLsbD _ _ _ (by omega), BitVec.getLsbD_append]
  by_cases hi : i < 16
  · rw [if_pos hi, if_pos hi, BitVec.getLsbD_extractLsb', h.getLsbD_eq i]
    simp [hi]
  · rw [if_neg hi, if_neg hi, BitVec.getLsbD_extractLsb']
    by_cases hc : i < cfg.chipAddrBits
    · simp [hc, show 1 ≤ i by omega, show i - 16 < 5 by omega]
    · simp [hc]

/-- The bits after a write of a pointer's low register. -/
theorem ptrSetLow_getLsbD {cfg : Config} {p : Ptr} (v : Word) (i : Nat) (h : PtrOk cfg p)
    (h18 : 18 ≤ cfg.chipAddrBits) (h21 : cfg.chipAddrBits ≤ 21) :
    (ptrSetLow cfg p v).getLsbD i = if i < 16 then decide (1 ≤ i) && v.getLsbD i else p.getLsbD i := by
  rw [ptrSetLow, wrapPtr_getLsbD _ _ _ (by omega), BitVec.getLsbD_append]
  by_cases hi : i < 16
  · simp [hi, show i < cfg.chipAddrBits by omega]
  · rw [if_neg hi, if_neg hi, BitVec.getLsbD_extractLsb', h.getLsbD_eq i]
    by_cases hc : i < cfg.chipAddrBits
    · simp [hc, show i - 16 < 5 by omega, show 16 + (i - 16) = i by omega]
    · simp [hc]

/-! ## Unmapped offsets (R38, R39, R199) -/

/-- The `-` rows of the map. -/
abbrev UnmappedRow (w : Nat) : Prop :=
  (0x05A ≤ w ∧ w ≤ 0x05E) ∨ (0x068 ≤ w ∧ w ≤ 0x06E) ∨ (0x076 ≤ w ∧ w ≤ 0x07C) ∨
    (0x0A0 ≤ w ∧ w ≤ 0x0DF ∧ 0xC ≤ w % 0x10) ∨ (0x0F8 ≤ w ∧ w ≤ 0x0FE) ∨
    w = 0x106 ∨ w = 0x10C ∨ w = 0x10E ∨ w = 0x11C ∨ w = 0x11E ∨ 0x1C0 ≤ w

/-- No register sits at an odd offset. -/
theorem regOf_odd {o : Offset} (h : o.getLsbD 0 = true) : regOf o = none := by
  cases hr : regOf o with
  | none => rfl
  | some r =>
    have heven := (regOf_regOffset r).1
    rw [regOffset_of_regOf hr, h] at heven
    contradiction

theorem getLsbD_zero_eq (o : Offset) : o.getLsbD 0 = decide (o.toNat % 2 = 1) := by
  rw [BitVec.getLsbD, Nat.testBit_zero]

/-- The unmapped offsets are the odd ones and those of the `-` rows. -/
theorem regOf_eq_none_iff (o : Offset) : regOf o = none ↔ o.toNat % 2 = 1 ∨ UnmappedRow o.toNat := by
  have row : ∀ a b : Fin 16, (regOf (BitVec.ofNat 9 (2 * (16 * a.val + b.val)))).isNone =
      decide (UnmappedRow (2 * (16 * a.val + b.val))) := by
    decide
  by_cases hodd : o.toNat % 2 = 1
  · simp [hodd, regOf_odd, getLsbD_zero_eq]
  · have hk := row ⟨o.toNat / 32, by omega⟩ ⟨o.toNat / 2 % 16, by omega⟩
    have ho : 2 * (16 * (o.toNat / 32) + o.toNat / 2 % 16) = o.toNat := by omega
    simp only [ho, BitVec.ofNat_toNat, BitVec.setWidth_eq] at hk
    rw [or_iff_right hodd, ← Option.isNone_iff_eq_none, hk, decide_eq_true_iff]

/-- A MOVE to an unmapped even offset changes nothing, whether the Copper may write there or not. -/
theorem exec_move_unmapped {o : Offset} (h0 : o.getLsbD 0 = false) (h : regOf o = none) (ign : BitVec 7) (v : Word)
    (s : State) : exec (.move ign o v) s = .next s := by
  show writeOffset .copper o v s = .next s
  rw [writeOffset_copper h0, writeOffset_cpu h0, h]
  exact ite_self _

/-- The registers a read answers from storage (R198). -/
def storedReads : List Reg := [.dmaconr, .vposr, .vhposr, .adkconr, .intenar, .intreqr]

/-- A read of anything else, unmapped or not, is a draw (R199, R200). -/
theorem readOffset_draw {o : Offset} (h : ∀ r ∈ storedReads, regOf o ≠ some r) (s : State) :
    readOffset o s = s.draw := by
  unfold readOffset
  split
  case h_7 => rfl
  all_goals exact absurd ‹regOf o = some _› (h _ (by decide))

/-! ## Writes by register (R196, R243) -/

/-- A write of a class W register other than BLTSIZE is its storage. -/
theorem writeReg_store {r : Reg} (hc : accessClass r = .writeOnly) (hb : r ≠ .bltsize) (v : Word) (s : State) :
    writeReg r v s = .next (storeReg r v s) := by
  simp only [writeReg, hc, if_neg hb]

/-- From 0x080 up a MOVE is the write the CPU would make. -/
theorem exec_move_open {o : Offset} (h0 : o.getLsbD 0 = false) (ho : 0x080 ≤ o.toNat) (ign : BitVec 7) (v : Word)
    (s : State) : exec (.move ign o v) s = writeOffset .cpu o v s :=
  (writeOffset_copper h0 v s).trans (if_pos ((copperMayWrite_iff _ _).2 (.inl ho)))

/-- A CPU write of a class W register other than BLTSIZE stores its value. -/
theorem writeOffset_cpu_store (r : Reg) (hc : accessClass r = .writeOnly) (hb : r ≠ .bltsize) (v : Word) (s : State) :
    writeOffset .cpu (regOffset r) v s = .next (storeReg r v s) :=
  (writeOffset_reg r v s).trans (writeReg_store hc hb v s)

/-- A MOVE to a class W register from 0x080 up stores its value. -/
theorem exec_move_store (r : Reg) (hc : accessClass r = .writeOnly) (hr : 0x080 ≤ (regOffset r).toNat)
    (ign : BitVec 7) (v : Word) (s : State) :
    exec (.move ign (regOffset r) v) s = .next (storeReg r v s) := by
  have hb : r ≠ .bltsize := by
    rintro rfl
    exact absurd hr (by decide)
  exact (execMove_open r hr v s).trans (writeReg_store hc hb v s)

/-- The offset of an indexed register whose row starts at 0x080 or above. -/
theorem ofNat_add_ge {base k : Nat} (h : 0x080 ≤ base ∧ base + k < 512) :
    0x080 ≤ (BitVec.ofNat 9 (base + k)).toNat := by
  rw [BitVec.toNat_ofNat, Nat.mod_eq_of_lt h.2]
  omega

/-- An even number is an even offset. -/
theorem ofNat_getLsbD_zero {w : Nat} (h : w % 2 = 0) : (BitVec.ofNat 9 w).getLsbD 0 = false := by
  rw [getLsbD_zero_eq, BitVec.toNat_ofNat, decide_eq_false_iff_not]
  omega

/-- The low bits of a word as a mask: AUDnVOL's seven (R424), a byte's eight (R125). -/
theorem setWidth_extractLsb'_zero (w : Word) (k : Nat) :
    (w.extractLsb' 0 k).setWidth 16 = w &&& BitVec.ofNat 16 (2 ^ k - 1) := by
  apply BitVec.eq_of_getLsbD_eq
  intro i hi
  rw [BitVec.getLsbD_and, BitVec.getLsbD_ofNat, Nat.testBit_two_pow_sub_one]
  simp [hi, Bool.and_comm]

/-! ## Writes below 0x040 (R38, R200) -/

/-- The read-only, DMA-only, ignored and strobe registers below 0x040. -/
def inertRegs : List Reg :=
  [.bltddat, .dmaconr, .vposr, .vhposr, .dskdatr, .clxdat, .adkconr, .intenar, .intreqr, .dskdat, .vposw, .vhposw,
    .strequ, .strvbl, .strhor, .strlong]

theorem writeReg_inert {r : Reg} (h : r ∈ inertRegs) (v : Word) (s : State) : writeReg r v s = .next s := by
  revert r
  simp only [inertRegs, List.forall_mem_cons]
  exact ⟨rfl, rfl, rfl, rfl, rfl, rfl, rfl, rfl, rfl, rfl, rfl, rfl, rfl, rfl, rfl, rfl, nofun⟩

/-- A write of a class X register is forwarded (R200). -/
theorem writeReg_external {r : Reg} (h : accessClass r = .externalUnit) (v : Word) (s : State) :
    writeReg r v s = .next (s.send (.forward r v)) := by
  simp only [writeReg, h]

/-! ## Byte accesses (R125) -/

theorem setWidth_low_byte (w : Word) : (w.extractLsb' 0 8).setWidth 16 = w &&& 0xFF := setWidth_extractLsb'_zero w 8

/-- The high byte of a word, as a byte read returns it. -/
theorem setWidth_high_byte (w : Word) : (w.extractLsb' 8 8).setWidth 16 = w >>> 8 := by
  apply BitVec.eq_of_getLsbD_eq
  intro i hi
  by_cases h8 : i < 8
  · simp [hi, h8]
  · simp [h8, BitVec.getLsbD_of_ge w (8 + i) (by omega)]

/-! ## Status registers (R40, R66, R67) -/

/-- The cases are the fields of the register, from bit 0 up. -/
theorem dmaconr_getLsbD (s : State) {i : Nat} (hi : i < 16) : s.dmaconr.getLsbD i =
    if i = 14 then s.blitter.busy else if i = 13 then s.blitter.zero
    else decide (i ≤ 10) && s.dmacon.getLsbD i := by
  simp only [State.dmaconr, BitVec.getLsbD_append, BitVec.getLsbD_extractLsb', BitVec.getLsbD_ofBool,
    BitVec.getLsbD_zero, Nat.zero_add]
  split_ifs <;> grind

theorem vposr_getLsbD (s : State) {i : Nat} (hi : i < 16) : s.vposr.getLsbD i =
    if i = 15 then s.raster.lof else decide (i = 0) && s.raster.line.testBit 8 := by
  simp only [State.vposr, BitVec.getLsbD_append, BitVec.getLsbD_extractLsb', BitVec.getLsbD_ofBool,
    BitVec.getLsbD_ofNat]
  split_ifs <;> grind

theorem vhposr_toNat (s : State) : s.vhposr.toNat = s.raster.line % 256 * 256 + s.raster.cycle % 256 := by
  rw [State.vhposr, BitVec.toNat_append, Nat.shiftLeft_eq, Nat.mul_comm,
    ← Nat.two_pow_add_eq_or_of_lt (BitVec.isLt _)]
  simp [Nat.mul_comm]

end Sys2Proof.Machine

open Sys2Proof Sys2Proof.Machine

/-- Settles O4: the map's two directions, its gaps, and accesses to them. -/
theorem registerMapDecodes : Obligations.RegisterMapDecodes :=
  ⟨regOf_regOffset, fun _ _ h => regOffset_of_regOf h, regOf_eq_none_iff, fun o ign v s h0 h =>
    ⟨exec_move_unmapped h0 h ign v s, by rw [writeOffset_cpu h0, h], readOffset_draw (by simp [h]) s⟩⟩

/-- Settles O13: the two halves, bit by bit. -/
theorem pointerHalfBits : Obligations.PointerHalfBits := fun _ _ v i h h18 h21 =>
  ⟨ptrSetHigh_getLsbD v i h h18 h21, ptrSetLow_getLsbD v i h h18 h21⟩

/-- Settles O18: each MOVE is the storage of its register, and the CPU's write is the same write. -/
theorem moveSpriteRegisters : Obligations.MoveSpriteRegisters := fun ign n v s =>
  ⟨exec_move_store (.sprpos n) rfl (ofNat_add_ge (by omega)) ign v s,
    exec_move_store (.sprctl n) rfl (ofNat_add_ge (by omega)) ign v s,
    exec_move_store (.sprdata n) rfl (ofNat_add_ge (by omega)) ign v s,
    exec_move_store (.sprdatb n) rfl (ofNat_add_ge (by omega)) ign v s,
    fun k => (exec_move_open (ofNat_getLsbD_zero (by omega)) (Nat.add_assoc .. ▸ ofNat_add_ge (by omega)) ign v s).symm⟩

/-- Settles O20: the registers below 0x040 by class, then the four forms of access. -/
theorem cpuRegisterAccess : Obligations.CpuRegisterAccess := by
  refine ⟨fun v s => ⟨?inert, ?external, ?stored⟩, fun o v s => ⟨rfl, ?byteRead, ?odd, ?even⟩⟩
  case inert =>
    exact (List.forall_mem_map (f := regOffset) (l := inertRegs)).2 fun r hr =>
      (writeOffset_reg r v s).trans (writeReg_inert hr v s)
  case external =>
    have forwarded : ∀ r, accessClass r = .externalUnit →
        writeOffset .cpu (regOffset r) v s = .next (s.send (.forward r v)) := fun r h =>
      (writeOffset_reg r v s).trans (writeReg_external h v s)
    simp only [List.forall_mem_cons]
    exact ⟨forwarded .joy0dat rfl, forwarded .joy1dat rfl, forwarded .pot0dat rfl, forwarded .pot1dat rfl,
      forwarded .potgor rfl, forwarded .serdatr rfl, forwarded .dskbytr rfl, forwarded .serdat rfl,
      forwarded .serper rfl, forwarded .potgo rfl, forwarded .joytest rfl, nofun⟩
  case stored =>
    exact ⟨writeOffset_cpu_store .dskpth rfl nofun v s, writeOffset_cpu_store .dskptl rfl nofun v s,
      writeOffset_cpu_store .refptr rfl nofun v s, writeOffset_cpu_store .copcon rfl nofun v s⟩
  case byteRead =>
    simp only [performAccess, performRead, setWidth_low_byte, setWidth_high_byte, apply_ite (BitVec.setWidth 16)]
  case odd =>
    intro h
    simp only [performAccess, performWrite, performRead, writeOffset, h, if_true, and_self]
  case even =>
    intro h
    simp only [performAccess, performWrite, performRead, h, Bool.false_eq_true, if_false, and_self]

/-- Settles O21: the six registers the block answers for, and a draw for every other offset. -/
theorem registerReads : Obligations.RegisterReads := by
  refine fun s => ⟨rfl, rfl, rfl, rfl, rfl, rfl, fun i => dmaconr_getLsbD s, fun i => vposr_getLsbD s,
    vhposr_toNat s, fun o ho => readOffset_draw (fun r hr he => ho ?_) s⟩
  rw [← regOffset_of_regOf he]
  exact List.mem_map_of_mem (f := regOffset) hr

/-- Settles O14: each MOVE is the storage of its register. -/
theorem movePointers : Obligations.MovePointers := fun ign v s =>
  have stores (r : Reg) (hc : accessClass r = .writeOnly) (hr : 0x080 ≤ (regOffset r).toNat) :
      exec (.move ign (regOffset r) v) s = .next (storeReg r v s) := exec_move_store r hc hr ign v s
  ⟨stores .cop1lch rfl (by decide), stores .cop1lcl rfl (by decide), stores .cop2lch rfl (by decide),
    stores .cop2lcl rfl (by decide),
    fun n => ⟨stores (.audlch n) rfl (ofNat_add_ge (by omega)), stores (.audlcl n) rfl (ofNat_add_ge (by omega))⟩,
    fun n => ⟨stores (.bplpth n) rfl (ofNat_add_ge (by omega)), stores (.bplptl n) rfl (ofNat_add_ge (by omega))⟩,
    fun n => ⟨stores (.sprpth n) rfl (ofNat_add_ge (by omega)), stores (.sprptl n) rfl (ofNat_add_ge (by omega))⟩⟩

/-- Settles O15: each write is the storage of its register. -/
theorem blitterRegisterWrites : Obligations.BlitterRegisterWrites := fun v s =>
  have stores (r : Reg) (hc : accessClass r = .writeOnly) (hb : r ≠ .bltsize) :
      writeOffset .cpu (regOffset r) v s = .next (storeReg r v s) := writeOffset_cpu_store r hc hb v s
  ⟨stores .bltcon0 rfl nofun, stores .bltcon1 rfl nofun, stores .bltafwm rfl nofun, stores .bltalwm rfl nofun,
    stores .bltcpth rfl nofun, stores .bltcptl rfl nofun, stores .bltbpth rfl nofun, stores .bltbptl rfl nofun,
    stores .bltapth rfl nofun, stores .bltaptl rfl nofun, stores .bltdpth rfl nofun, stores .bltdptl rfl nofun,
    stores .bltcmod rfl nofun, stores .bltbmod rfl nofun, stores .bltamod rfl nofun, stores .bltdmod rfl nofun,
    stores .bltcdat rfl nofun, stores .bltbdat rfl nofun, stores .bltadat rfl nofun, stores .dsksync rfl nofun⟩

/-- Settles O17: each MOVE is the storage of its register; BPLCON0's COLOR depends on the sink, and AUDnVOL is passed on
as its seven bits. -/
theorem moveDisplayAndAudio : Obligations.MoveDisplayAndAudio := fun ign v s =>
  have stores (r : Reg) (hc : accessClass r = .writeOnly) (hr : 0x080 ≤ (regOffset r).toNat) :
      exec (.move ign (regOffset r) v) s = .next (storeReg r v s) := exec_move_store r hc hr ign v s
  ⟨stores .copins rfl (by decide), stores .diwstrt rfl (by decide), stores .diwstop rfl (by decide),
    stores .ddfstrt rfl (by decide), stores .ddfstop rfl (by decide), stores .clxcon rfl (by decide),
    (stores .bplcon0 rfl (by decide)).trans (congrArg _ (writeBplcon0_frame v s)),
    stores .bplcon1 rfl (by decide), stores .bplcon2 rfl (by decide), stores .bpl1mod rfl (by decide),
    stores .bpl2mod rfl (by decide), fun n => stores (.bpldat n) rfl (ofNat_add_ge (by omega)),
    fun n => stores (.color n) rfl (ofNat_add_ge (by omega)),
    fun n => ⟨stores (.audlen n) rfl (ofNat_add_ge (by omega)), stores (.audper n) rfl (ofNat_add_ge (by omega)),
      setWidth_extractLsb'_zero v 7 ▸ stores (.audvol n) rfl (ofNat_add_ge (by omega)),
      stores (.auddat n) rfl (ofNat_add_ge (by omega))⟩⟩

end

section
/-! SUPPORT. Chip RAM: where a channel's address lands, the bytes a stored word leaves, and that every step keeps the
memory canonical and installed. -/

namespace Sys2Proof.Machine

/-! ## A stored word, byte by byte (R123) -/

/-- The high byte lies at the word's address. -/
theorem Memory.read_writeWord_high {m : Memory} (h : wf m = true) (a : Nat) (v : Word) :
    read (writeWord m a v) a = v.extractLsb' 8 8 := by
  rw [writeWord, read_write_other (lo := none) (write_wf h _ _) _ (by omega), read_write_same (lo := none) h]

/-- The low byte lies behind it. -/
theorem Memory.read_writeWord_low {m : Memory} (h : wf m = true) (a : Nat) (v : Word) :
    read (writeWord m a v) (a + 1) = v.extractLsb' 0 8 := by
  rw [writeWord, read_write_same (lo := none) (write_wf h _ _)]

/-! ## Where an address lands (R122) -/

/-- A reduced address is installed. -/
theorem reduceAddr_lt (cfg : Config) (a : Nat) (h0 : 0 < cfg.chipRamBytes) : reduceAddr cfg a < cfg.chipRamBytes :=
  (Nat.div_mul_le_self _ 2).trans_lt (reduceByte_installed cfg a h0)

/-- So is the byte behind it, but where one byte is installed. -/
theorem reduceAddr_succ_lt {cfg : Config} (a : Nat) (hv : cfg.valid = true) (h1 : cfg.chipRamBytes ≠ 1) :
    reduceAddr cfg a + 1 < cfg.chipRamBytes := by
  obtain ⟨h0, h2⟩ := valid_ram hv
  have hi := reduceAddr_installed cfg a h0 h2
  omega

/-! ## Every step (R120, R122) -/

/-- A valid configuration is part of the property: a store stays inside the bytes it installs. -/
theorem step_keeps_memoryOk {s t : State} (h : s.cfg.valid = true ∧ MemoryOk s) (hs : step s = .next t) :
    t.cfg.valid = true ∧ MemoryOk t := by
  have unchanged {s t : State} (h : s.cfg.valid = true ∧ MemoryOk s) (hc : t.cfg = s.cfg) (hm : t.mem = s.mem) :
      t.cfg.valid = true ∧ MemoryOk t := ⟨hc ▸ h.1, memoryOk_of h.2 hc hm⟩
  refine step_preserves (P := fun s => s.cfg.valid = true ∧ MemoryOk s) (fun _ _ _ _ _ h => unchanged h rfl rfl)
    (fun i s h => ?input) (fun s h => unchanged h (slotStart_cfg s) (slotStart_mem s)) (fun c s t h _ hg => ?grant)
    (fun s h => unchanged h (slotEnd_cfg s) (slotEnd_mem s)) (fun _ _ _ h => unchanged h rfl rfl)
    (fun a s t h ha => ?access) (fun _ _ h => unchanged h rfl rfl) h hs
  case input =>
    obtain ⟨hc, hm, -⟩ := performInput_frame i s
    exact unchanged h hc hm
  case grant =>
    obtain ⟨hc, -⟩ := performGrant_frame hg
    exact ⟨hc ▸ h.1, performGrant_memoryOk h.2 h.1 hg⟩
  case access =>
    obtain ⟨hc, -⟩ := performAccess_frame ha
    exact ⟨hc ▸ h.1, performAccess_memoryOk h.2 h.1 ha⟩

end Sys2Proof.Machine

open Sys2Proof Sys2Proof.Machine

/-- Settles O58: only a granted Blitter or disk channel and a CPU access store, each at a reduced address. -/
theorem memoryStaysInstalled : Obligations.MemoryStaysInstalled := fun _ _ hv h hs =>
  (step_keeps_memoryOk ⟨hv, h⟩ hs).2

/-- Settles O28: the address first, then the stored word byte by byte and as a word. -/
theorem bigEndianWords : Obligations.BigEndianWords := fun s _ v hv hm =>
  ⟨rfl, reduceAddr_lt s.cfg _ (valid_ram hv).1, reduceAddr_succ_lt _ hv, Memory.read_writeWord_high hm _ v,
    Memory.read_writeWord_low hm _ v, fun _ => Memory.read_writeWord_other hm v, Memory.readWord_writeWord hm _ v, rfl⟩

end

section
/-! SUPPORT. The encoding of the Copper's instructions both ways, and what its waits compare (30_encoding.md). -/

namespace Sys2Proof

/-! ## The fields of a word, joined again (R151, R152) -/

theorem extractLsb'_one (w : Word) (i : Nat) : w.extractLsb' i 1 = BitVec.ofBool (w.getLsbD i) := by
  rw [BitVec.getLsbD_eq_extractLsb']
  generalize w.extractLsb' i 1 = b
  revert b
  decide

/-- A MOVE's destination is bits 8 to 1 of its first word (R151). -/
theorem dest_extractLsb' (w : Word) : ((w &&& 0x1FE).setWidth 9).extractLsb' 1 8 = w.extractLsb' 1 8 := by
  rw [BitVec.extractLsb'_setWidth_of_le (by decide), BitVec.extractLsb'_and]
  exact BitVec.and_allOnes

/-- The first word of a MOVE. -/
theorem move_fields_append {w : Word} (h : w.getLsbD 0 = false) :
    w.extractLsb' 9 7 ++ w.extractLsb' 1 8 ++ 0#1 = w := by
  have h0 : w.extractLsb' 0 1 = 0#1 := by rw [extractLsb'_one, h]; rfl
  rw [← h0, BitVec.extractLsb'_append_extractLsb'_eq_extractLsb' (show 9 = 1 + 8 from rfl),
    BitVec.extractLsb'_append_extractLsb']

/-- The first word of a WAIT or a SKIP. -/
theorem position_fields_append {w : Word} (h : w.getLsbD 0 = true) :
    w.extractLsb' 8 8 ++ w.extractLsb' 1 7 ++ 1#1 = w := by
  have h0 : w.extractLsb' 0 1 = 1#1 := by rw [extractLsb'_one, h]; rfl
  rw [← h0, BitVec.extractLsb'_append_extractLsb'_eq_extractLsb' (show 8 = 1 + 7 from rfl),
    BitVec.extractLsb'_append_extractLsb']

/-- The second word of a WAIT or a SKIP, whichever of them its last bit selects. -/
theorem enable_fields_append {w : Word} {b : Bool} (h : w.getLsbD 0 = b) :
    BitVec.ofBool (w.getLsbD 15) ++ w.extractLsb' 8 7 ++ w.extractLsb' 1 7 ++ BitVec.ofBool b = w := by
  rw [← h, ← extractLsb'_one, ← extractLsb'_one,
    BitVec.extractLsb'_append_extractLsb'_eq_extractLsb' (show 15 = 8 + 7 from rfl),
    BitVec.extractLsb'_append_extractLsb'_eq_extractLsb' (show 8 = 1 + 7 from rfl),
    BitVec.extractLsb'_append_extractLsb']

/-! ## The three cases of the decoder (R156) -/

theorem decodeWords_move {ir1 : Word} (h1 : ir1.getLsbD 0 = false) (ir2 : Word) :
    decodeWords ir1 ir2 = .move (ir1.extractLsb' 9 7) ((ir1 &&& 0x1FE).setWidth 9) ir2 := if_pos h1

theorem decodeWords_wait {ir1 ir2 : Word} (h1 : ir1.getLsbD 0 = true) (h2 : ir2.getLsbD 0 = false) :
    decodeWords ir1 ir2 = .wait (ir1.extractLsb' 8 8) (ir1.extractLsb' 1 7) (ir2.getLsbD 15) (ir2.extractLsb' 8 7)
      (ir2.extractLsb' 1 7) := by
  rw [decodeWords, if_neg (by simp [h1]), if_pos h2]

theorem decodeWords_skip {ir1 ir2 : Word} (h1 : ir1.getLsbD 0 = true) (h2 : ir2.getLsbD 0 = true) :
    decodeWords ir1 ir2 = .skip (ir1.extractLsb' 8 8) (ir1.extractLsb' 1 7) (ir2.getLsbD 15) (ir2.extractLsb' 8 7)
      (ir2.extractLsb' 1 7) := by
  rw [decodeWords, if_neg (by simp [h1]), if_neg (by simp [h2])]

/-! ## Decode and encode -/

/-- The words of a well-formed instruction decode to it. -/
theorem decodeWords_encode {i : Instr} (h : i.wellFormed = true) : decodeWords (encode i).1 (encode i).2 = i := by
  cases i with
  | move ign dest data => exact Laws.RoundTrip.move ign dest data h
  | wait vp hp bfd ve he => exact Laws.RoundTrip.wait vp hp bfd ve he h
  | skip vp hp bfd ve he => exact Laws.RoundTrip.skip vp hp bfd ve he h

/-- Bytes in memory order are read as the words they came from, and the bytes after them are left. -/
theorem decode_wordsToBytes_append (w : Word × Word) (rest : List Byte) :
    decode (wordsToBytes w ++ rest) = .ok (decodeWords w.1 w.2, rest) := by
  simp only [wordsToBytes, List.cons_append, List.nil_append, decode, Machine.bytes_append]

/-- The decoder keeps every bit, the ignored ones too. -/
theorem encode_decodeWords (ir1 ir2 : Word) : encode (decodeWords ir1 ir2) = (ir1, ir2) := by
  cases h1 : ir1.getLsbD 0 with
  | false => rw [decodeWords_move h1, encode, dest_extractLsb', move_fields_append h1]
  | true =>
    cases h2 : ir2.getLsbD 0 with
    | false =>
      rw [decodeWords_wait h1 h2, encode, position_fields_append h1]
      exact congrArg (Prod.mk ir1) (enable_fields_append h2)
    | true =>
      rw [decodeWords_skip h1 h2, encode, position_fields_append h1]
      exact congrArg (Prod.mk ir1) (enable_fields_append h2)

/-! ## The opcode map (R156) -/

/-- The mask of WAIT and SKIP leaves the two selecting bits. -/
theorem pair_and_mask (ir1 ir2 : Word) : (ir1 ++ ir2 : BitVec 32) &&& 0x00010001 =
    (BitVec.ofBool (ir1.getLsbD 0)).setWidth 16 ++ (BitVec.ofBool (ir2.getLsbD 0)).setWidth 16 := by
  rw [← BitVec.and_one_eq_setWidth_ofBool_getLsbD, ← BitVec.and_one_eq_setWidth_ofBool_getLsbD, ← BitVec.and_append]
  rfl

/-- The mask of MOVE leaves the first of them. -/
theorem pair_and_move_mask (ir1 ir2 : Word) : (ir1 ++ ir2 : BitVec 32) &&& 0x00010000 =
    (BitVec.ofBool (ir1.getLsbD 0)).setWidth 16 ++ 0#16 := by
  rw [← BitVec.and_one_eq_setWidth_ofBool_getLsbD, ← BitVec.and_zero (x := ir2), ← BitVec.and_append]
  rfl

/-- The name of a pair of words, by its two selecting bits. -/
theorem decodeWords_mnemonic (ir1 ir2 : Word) : (decodeWords ir1 ir2).mnemonic =
    if ir1.getLsbD 0 = false then "MOVE" else if ir2.getLsbD 0 = false then "WAIT" else "SKIP" := by
  cases h1 : ir1.getLsbD 0 with
  | false => rw [decodeWords_move h1]; rfl
  | true =>
    cases h2 : ir2.getLsbD 0 with
    | false => rw [decodeWords_wait h1 h2]; rfl
    | true => rw [decodeWords_skip h1 h2]; rfl

namespace Machine

/-! ## Waits (R155) -/

/-- Under full enables a wait compares line and cycle in raster order. -/
theorem satisfied_full_iff (vp : Byte) (hp : BitVec 7) (bfd : Bool) (s : State) :
    s.satisfied (waitValueOf vp hp) (waitMaskOf 0x7F 0x7F) bfd = true ↔
      (vp.toNat < s.raster.line % 256 ∨ (vp.toNat = s.raster.line % 256 ∧ hp.toNat ≤ s.raster.cycle % 256 / 2)) ∧
      (bfd = true ∨ s.blitter.busy = false) := by
  have hbeam : s.raster.beam &&& waitMaskOf 0x7F 0x7F = s.raster.beam := position_and_full _ _
  rw [satisfied_iff, waitValueOf, position_and_full, hbeam, position_toNat, beam_toNat]
  refine and_congr_left fun _ => ?_
  have := hp.isLt
  omega

/-- A zero position holds everywhere, so what is left of the wait is its Blitter part. -/
theorem satisfied_zero (mask : Word) (bfd : Bool) (s : State) : s.satisfied 0 mask bfd = (bfd || !s.blitter.busy) := by
  rw [State.satisfied, BitVec.ofNat_eq_ofNat, BitVec.zero_and, BitVec.toNat_zero, decide_eq_true (Nat.zero_le _),
    Bool.true_and]

/-- The wait of CEND, line 255 and cycle 0xFE under full enables, needs a cycle of 0xFE or more. -/
theorem satisfied_cend {s : State} (h : s.raster.cycle < 0xFE) :
    s.satisfied (waitValueOf 255 127) (waitMaskOf 0x7F 0x7F) true = false := by
  rw [← Bool.not_eq_true, satisfied_full_iff]
  have : (255 : Byte).toNat = 255 ∧ (127 : BitVec 7).toNat = 127 := by decide
  omega

/-- What a WAIT leaves in the Copper's wait fields (R245). -/
theorem exec_wait_fields (vp : Byte) (hp : BitVec 7) (bfd : Bool) (ve he : BitVec 7) (s : State) :
    ∃ t, exec (.wait vp hp bfd ve he) s = .next t ∧
      t.copper.mode =
        (if s.satisfied (waitValueOf vp hp) (waitMaskOf ve he) bfd then CopperMode.running else .waiting) ∧
      t.copper.waitValue = waitValueOf vp hp ∧ t.copper.waitMask = waitMaskOf ve he ∧ t.copper.waitBfd = bfd :=
  ⟨_, rfl, rfl, rfl, rfl, rfl⟩

end Machine

end Sys2Proof

open Sys2Proof Sys2Proof.Machine

/-- Settles O1: the bytes give back the words and the words the instruction; the other way round every bit of the pair
stands in a field of the decoded instruction or selects it. -/
theorem decodeEncodeAgree : Obligations.DecodeEncodeAgree :=
  ⟨fun i rest h => (decode_wordsToBytes_append (encode i) rest).trans (by rw [decodeWords_encode h]),
    fun ir1 ir2 => ⟨decodeWords_wellFormed ir1 ir2, encode_decodeWords ir1 ir2⟩⟩

/-- Settles O2: masks and names both read the two selecting bits alone, so their four values are all there is. -/
theorem opcodeMapTotal : Obligations.OpcodeMapTotal := by
  intro ir1 ir2
  simp only [pair_and_mask, pair_and_move_mask, decodeWords_mnemonic]
  cases ir1.getLsbD 0 <;> cases ir2.getLsbD 0 <;> decide

/-- Settles O9: under full enables the masked words are the position and the beam themselves. -/
theorem waitComparesRasterOrder : Obligations.WaitComparesRasterOrder := satisfied_full_iff

/-- Settles O10: CEND's wait needs a cycle its lines do not have, CNOP's MOVE is the storage of COPINS, and WAITBLIT
compares nothing but the Blitter. -/
theorem pseudoInstructionWaits : Obligations.PseudoInstructionWaits := by
  refine ⟨fun s hc hl => ?cend, exec_move_store .copins rfl (by decide) 0 0, fun s => ?waitblit⟩
  case cend =>
    have hs : s.satisfied 0xFFFE 0xFFFE true = false := satisfied_cend (hc.trans_le hl)
    obtain ⟨t, ht, hm, hv⟩ := exec_wait_fields 255 127 true 0x7F 0x7F s
    exact ⟨⟨t, ht, hm.trans (if_neg (Bool.eq_false_iff.1 hs)), hv⟩, hs⟩
  case waitblit =>
    obtain ⟨t, ht, hm, hv, -, hb⟩ := exec_wait_fields 0 0 false 0 0 s
    have hzero : waitValueOf 0 0 = 0 := by decide
    refine ⟨t, ht, ?_, fun u => ?_⟩
    · rw [hm, hzero, satisfied_zero]
      cases s.blitter.busy <;> rfl
    · rw [hv, hb, hzero, satisfied_zero, Bool.false_or]

/-- Settles O3: eight closed pairs of words, evaluated. -/
theorem decodesSpecWords : Obligations.DecodesSpecWords := by
  unfold Obligations.DecodesSpecWords
  decide

end

section
/-! SUPPORT. The SET/CLR registers (40_scheduler.md R197). -/

open Sys2Proof Sys2Proof.Machine

/-- Settles O11: each MOVE is the storage of its register, and from 0x080 up it is the CPU's write. -/
theorem setClrWrites : Obligations.SetClrWrites := fun ign v s =>
  ⟨⟨_, exec_move_store .dmacon rfl (by decide) ign v s, congrArg State.dmacon (writeDmacon_frame v s)⟩,
    ⟨_, exec_move_store .intena rfl (by decide) ign v s, rfl, rfl⟩,
    ⟨_, exec_move_store .intreq rfl (by decide) ign v s, rfl, rfl⟩,
    ⟨_, exec_move_store .adkcon rfl (by decide) ign v s, rfl, rfl⟩, by
      simp only [List.forall_mem_cons]
      have same {o : Offset} (h0 : o.getLsbD 0 = false) (ho : 0x080 ≤ o.toNat) :
          writeOffset .cpu o v s = exec (.move ign o v) s := (exec_move_open h0 ho ign v s).symm
      exact ⟨same rfl (by decide), same rfl (by decide), same rfl (by decide), same rfl (by decide), nofun⟩⟩

end

section
/-! SUPPORT. The arbiter: what each channel wants, and whom the list grants the slot (40_scheduler.md R187, R188). -/

namespace Sys2Proof.Machine

/-! ## Enables (R40) -/

/-- A channel is enabled by DMAEN and its own bit. -/
theorem enabled_iff (s : State) (c : Channel) :
    s.enabled c = true ↔ s.dmacon.getLsbD 9 = true ∧ s.dmacon.getLsbD c.bit = true := by
  rw [State.enabled, enabledIn, Bool.and_eq_true]

/-- With DMAEN clear no channel is enabled. -/
theorem enabled_eq_false_of_dmaen {s : State} (h : s.dmacon.getLsbD 9 = false) (c : Channel) : s.enabled c = false := by
  rw [State.enabled, enabledIn, h, Bool.false_and]

/-- Only an enabled channel wants a slot: every request starts from the channel's enable. -/
theorem enabled_of_wants {s : State} {c : Channel} (h : wants s c = true) : s.enabled c = true := by
  cases c <;>
    simp only [wants, wantsCopper, wantsBlitter, wantsBitplane, wantsSprite, wantsDisk, wantsAudio,
      Bool.and_eq_true, and_assoc] at h <;>
    exact h.1

/-! ## Wants, channel by channel (R187) -/

/-- The low byte of a fetch limit, cut to a multiple of 4 (R57). -/
theorem and_fetch_mask_toNat (v : Word) : (v &&& 0xFC).toNat = v.toNat % 256 / 4 * 4 := by
  have hhigh : (v.toNat &&& 252) / 2 ^ 2 = v.toNat / 2 ^ 2 % 2 ^ 6 := by
    rw [Nat.and_div_two_pow]
    exact Nat.and_two_pow_sub_one_eq_mod _ 6
  have hlow : (v.toNat &&& 252) % 2 ^ 2 = 0 := by
    rw [Nat.and_mod_two_pow]
    exact Nat.and_zero _
  show v.toNat &&& 252 = _
  omega

/-- The Copper (R247). -/
theorem wantsCopper_iff (s : State) : wantsCopper s = true ↔
    s.dmacon.getLsbD 9 = true ∧ s.dmacon.getLsbD 7 = true ∧ s.raster.cycle % 2 = 0 ∧
      (s.copper.mode = .running ∨ (s.copper.mode = .waiting ∧
        s.satisfied s.copper.waitValue s.copper.waitMask s.copper.waitBfd = true)) := by
  simp only [wantsCopper, Bool.and_eq_true, Bool.or_eq_true, beq_iff_eq, enabled_iff, Channel.bit, and_assoc]

/-- The Blitter (R282). -/
theorem wantsBlitter_iff (s : State) : wantsBlitter s = true ↔
    s.dmacon.getLsbD 9 = true ∧ s.dmacon.getLsbD 6 = true ∧ s.blitter.busy = true := by
  simp only [wantsBlitter, Bool.and_eq_true, enabled_iff, Channel.bit, and_assoc]

/-- A plane of the order is left to fetch (R333). -/
theorem nextPlane_isSome_iff (p : Planes) : p.nextPlane.isSome = true ↔
    ∃ i ∈ p.order, i.val < p.linePlanes ∧ p.unitFetched[i] = false := by
  simp only [Planes.nextPlane, List.find?_isSome, Bool.and_eq_true, decide_eq_true_eq, Bool.not_eq_true']

/-- The bitplanes (R332, R333). -/
theorem wantsBitplane_iff (s : State) : wantsBitplane s = true ↔
    s.dmacon.getLsbD 9 = true ∧ s.dmacon.getLsbD 8 = true ∧ s.planes.fetchingLine = true ∧
      s.planes.ddfStart ≤ s.raster.cycle ∧
      s.raster.cycle < min (s.planes.ddfStart + s.planes.nUnits * s.planes.unitSlots) s.cfg.lineLength ∧
      ∃ i ∈ s.planes.order, i.val < s.planes.linePlanes ∧ s.planes.unitFetched[i] = false := by
  simp only [wantsBitplane, Planes.inFetchWindow, Bool.and_eq_true, decide_eq_true_eq, nextPlane_isSome_iff,
    enabled_iff, Channel.bit, and_assoc]

/-- The fetching states of a sprite (R374). -/
theorem fetching_iff (p : Sprite) : p.fetching = true ↔
    p.fetch ∈ ([.fetchStart, .fetchStopAndControl, .fetchData1, .fetchData0] : List SpriteFetch) := by
  unfold Sprite.fetching
  cases p.fetch <;> decide

/-- A sprite (R374). -/
theorem wantsSprite_iff (n : Fin 8) (s : State) : wantsSprite n s = true ↔
    s.dmacon.getLsbD 9 = true ∧ s.dmacon.getLsbD 5 = true ∧ s.cfg.spriteFetchCycle[n] ≤ s.raster.cycle ∧
      s.sprites[n].fetch ∈ ([.fetchStart, .fetchStopAndControl, .fetchData1, .fetchData0] : List SpriteFetch) ∧
      s.sprites[n].fetched < 2 := by
  simp only [wantsSprite, Bool.and_eq_true, decide_eq_true_eq, fetching_iff, enabled_iff, Channel.bit, and_assoc]

/-- The disk has a word to move (R413). -/
theorem ready_iff (d : Disk) : d.ready = true ↔
    d.active = true ∧ ((d.dir = .read ∧ d.bufFull = true) ∨ (d.dir = .write ∧ d.bufFull = false)) := by
  unfold Disk.ready
  cases d.dir <;> simp

/-- The disk (R413). -/
theorem wantsDisk_iff (s : State) : wantsDisk s = true ↔
    s.dmacon.getLsbD 9 = true ∧ s.dmacon.getLsbD 4 = true ∧ s.disk.active = true ∧
      ((s.disk.dir = .read ∧ s.disk.bufFull = true) ∨ (s.disk.dir = .write ∧ s.disk.bufFull = false)) := by
  simp only [wantsDisk, Bool.and_eq_true, ready_iff, enabled_iff, Channel.bit, and_assoc]

/-- An audio channel (R421). -/
theorem wantsAudio_iff (n : Fin 4) (s : State) : wantsAudio n s = true ↔
    s.dmacon.getLsbD 9 = true ∧ s.dmacon.getLsbD n.val = true ∧ s.audio[n].running = true ∧
      s.audio[n].request = true := by
  simp only [wantsAudio, Bool.and_eq_true, enabled_iff, Channel.bit, and_assoc]

/-! ## The grant (R188) -/

/-- The channel the CPU makes wait. -/
theorem passedOver_iff (s : State) (cpuWants : Bool) (c : Channel) : passedOver s cpuWants c = true ↔
    c = .blitter ∧ s.dmacon.getLsbD 10 = false ∧ cpuWants = true := by
  simp only [passedOver, State.bltpri, Bool.and_eq_true, Bool.not_eq_true', beq_iff_eq, and_assoc]

/-- Every channel has its place in the list. -/
theorem mem_priorityList (c : Channel) : c ∈ priorityList := by
  cases c with
  | sprite n => revert n; decide
  | audio n => revert n; decide
  | copper | blitter | bitplane | disk => decide

/-- A channel that can be granted: it wants the slot and is not passed over. -/
def candidate (s : State) (cpuWants : Bool) (c : Channel) : Bool := wants s c && !passedOver s cpuWants c

theorem candidate_iff (s : State) (cpuWants : Bool) (c : Channel) : candidate s cpuWants c = true ↔
    wants s c = true ∧ ¬ (c = .blitter ∧ s.dmacon.getLsbD 10 = false ∧ cpuWants = true) := by
  rw [candidate, Bool.and_eq_true, Bool.not_eq_true', ← Bool.not_eq_true, passedOver_iff]

theorem candidate_eq_false_iff (s : State) (cpuWants : Bool) (c : Channel) : candidate s cpuWants c = false ↔
    (wants s c = true → c = .blitter ∧ s.dmacon.getLsbD 10 = false ∧ cpuWants = true) := by
  rw [← Bool.not_eq_true, candidate_iff, not_and, not_not]

/-- The first candidate of the list gets the slot; with none the CPU, if it asks. -/
theorem grant_eq (cpuWants : Bool) (s : State) : grant cpuWants s =
    (priorityList.find? (candidate s cpuWants)).elim (if cpuWants then .cpu else .idle) .channel := by
  unfold grant candidate
  split <;> simp only [*, Option.elim]

theorem grant_eq_channel_iff (cpuWants : Bool) (s : State) (c : Channel) : grant cpuWants s = .channel c ↔
    priorityList.find? (candidate s cpuWants) = some c := by
  rw [grant_eq]
  cases priorityList.find? (candidate s cpuWants) <;> cases cpuWants <;> simp

theorem priorityList_find?_eq_none_iff (cpuWants : Bool) (s : State) :
    priorityList.find? (candidate s cpuWants) = none ↔ ∀ c, candidate s cpuWants c = false := by
  simp only [List.find?_eq_none, mem_priorityList, forall_const, Bool.not_eq_true]

theorem grant_eq_cpu_iff (cpuWants : Bool) (s : State) : grant cpuWants s = .cpu ↔
    cpuWants = true ∧ ∀ c, candidate s cpuWants c = false := by
  rw [grant_eq, ← priorityList_find?_eq_none_iff]
  cases priorityList.find? (candidate s cpuWants) <;> cases cpuWants <;> simp

theorem grant_eq_idle_iff (cpuWants : Bool) (s : State) : grant cpuWants s = .idle ↔
    cpuWants = false ∧ ∀ c, candidate s cpuWants c = false := by
  rw [grant_eq, ← priorityList_find?_eq_none_iff]
  cases priorityList.find? (candidate s cpuWants) <;> cases cpuWants <;> simp

end Sys2Proof.Machine

open Sys2Proof Sys2Proof.Machine

/-- Settles O23: the grant is the first candidate of the list, and the channels' wants are read off one by one. -/
theorem grantIsFixedPriority : Obligations.GrantIsFixedPriority := by
  refine fun cpuWants s => ⟨fun c => ?channel, ?cpu, ?idle, fun c hc => ?disabled,
    fun h c => enabled_eq_false_of_dmaen h c, wantsCopper_iff s, wantsBlitter_iff s, ?bitplane,
    fun n => wantsSprite_iff n s, wantsDisk_iff s, fun n => wantsAudio_iff n s⟩
  case channel =>
    rw [grant_eq_channel_iff, List.find?_eq_some_iff_append, candidate_iff]
    simp only [Bool.not_eq_true', candidate_eq_false_iff]
    constructor
    · rintro ⟨⟨hw, hp⟩, before, after, hl, hb⟩
      exact ⟨before, after, hl, hw, hp, hb⟩
    · rintro ⟨before, after, hl, hw, hp, hb⟩
      exact ⟨⟨hw, hp⟩, before, after, hl, hb⟩
  case cpu =>
    rw [grant_eq_cpu_iff]
    refine and_congr_right fun hc => forall_congr' fun d => ?_
    rw [candidate_eq_false_iff, hc, eq_self, and_true]
  case idle =>
    rw [grant_eq_idle_iff]
    refine and_congr_right fun hc => forall_congr' fun d => ?_
    rw [candidate_eq_false_iff, hc, ← Bool.not_eq_true]
    simp
  case disabled =>
    exact Bool.eq_false_iff.2 fun h => Bool.eq_false_iff.1 hc (enabled_of_wants h)
  case bitplane =>
    have h := wantsBitplane_iff s
    simp only [Planes.ddfStart, Planes.nUnits, Planes.ddfStop, Planes.unitSlots, and_fetch_mask_toNat] at h
    exact h

end

section
/-! SUPPORT. What a slot can end in (40_scheduler.md R206), and which slots store to chip RAM (R194). -/

namespace Sys2Proof.Machine

/-! ## Completion (R298, R206) -/

/-- A Copper's write at an even offset stops in one case alone: a permitted write of BLTSIZE with line mode set. -/
theorem writeOffset_copper_completes {o : Offset} (h0 : o.getLsbD 0 = false) (v : Word) (s : State) :
    (∃ t, writeOffset .copper o v s = .next t) ∨
      (writeOffset .copper o v s = .refused .blitterLineMode ∧ o = 0x058 ∧ s.copper.copcon.getLsbD 1 = true ∧
        s.blitter.con1.getLsbD 0 = true) := by
  rw [writeOffset_copper h0]
  by_cases hm : copperMayWrite s.copper.copcon o = true
  · rw [if_pos hm, writeOffset_cpu h0]
    cases hr : regOf o with
    | none => exact .inl ⟨s, rfl⟩
    | some r =>
      rcases writeReg_cases r v s with ht | ⟨hw, rfl, hline⟩
      · exact .inl ht
      · obtain rfl : 0x058 = o := regOffset_of_regOf hr
        have hdang := ((copperMayWrite_iff _ _).1 hm).resolve_left (by decide)
        exact .inr ⟨hw, rfl, hdang.2, hline⟩
  · rw [if_neg hm]
    exact .inl ⟨s, rfl⟩

/-- An instruction the decoder can give stops in that case alone, as a MOVE. -/
theorem exec_completes {i : Instr} (hi : i.wellFormed = true) (s : State) :
    (∃ t, exec i s = .next t) ∨
      (exec i s = .refused .blitterLineMode ∧ (∃ ign v, i = .move ign 0x058 v) ∧
        s.copper.copcon.getLsbD 1 = true ∧ s.blitter.con1.getLsbD 0 = true) := by
  cases i with
  | move ign dest v =>
    have h0 : dest.getLsbD 0 = false := by simpa [Instr.wellFormed] using hi
    rcases writeOffset_copper_completes h0 v s with ht | ⟨hr, rfl, hdang, hline⟩
    · exact .inl ht
    · exact .inr ⟨hr, ⟨ign, v, rfl⟩, hdang, hline⟩
  | wait | skip => exact .inl ⟨_, rfl⟩

/-- A Copper slot stops where its instruction does. -/
theorem copperStep_completes (s : State) :
    (∃ t, copperStep s = .next t) ∨
      (copperStep s = .refused .blitterLineMode ∧ (∃ ign v, copperInstr s = .move ign 0x058 v) ∧
        s.copper.copcon.getLsbD 1 = true ∧ s.blitter.con1.getLsbD 0 = true) :=
  exec_completes (decodeWords_wellFormed _ _) (copperFetch s)

/-- The operation of any other grant completes. -/
theorem performGrant_completes {g : Grant} (h : g ≠ .channel .copper) (s : State) :
    ∃ t, performGrant g s = .next t := by
  cases g with
  | channel c =>
    cases c with
    | copper => exact absurd rfl h
    | blitter | bitplane | sprite | disk | audio => exact ⟨_, rfl⟩
  | cpu | idle => exact ⟨_, rfl⟩

/-- A slot completes with its granted operation. -/
theorem slot_of_performGrant {cpuWants : Bool} {s t : State}
    (h : performGrant (slotGrant cpuWants s) (slotStart s) = .next t) : slot cpuWants s = .next (slotEnd t) := by
  rw [slot, h, andThen_next]

/-- A slot is refused with its granted operation. -/
theorem slot_of_performGrant_refused {cpuWants : Bool} {s : State} {r : Refusal}
    (h : performGrant (slotGrant cpuWants s) (slotStart s) = .refused r) : slot cpuWants s = .refused r := by
  rw [slot, h]
  rfl

/-! ## Stores (R194, R283, R415) -/

/-- Only the Blitter's and the disk's operation store to chip RAM. -/
theorem performGrant_mem {g : Grant} {s t : State} (hb : g ≠ .channel .blitter) (hd : g ≠ .channel .disk)
    (h : performGrant g s = .next t) : t.mem = s.mem := by
  cases g with
  | channel c =>
    cases c with
    | copper =>
      obtain ⟨-, hm, -⟩ := exec_frame (s := copperFetch s) h
      exact hm
    | blitter => exact absurd rfl hb
    | disk => exact absurd rfl hd
    | bitplane =>
      cases h
      rw [bitplaneFetch_frame]
    | sprite n =>
      cases h
      rfl
    | audio n =>
      cases h
      rw [audioStep_frame]
  | cpu | idle =>
    cases h
    rfl

/-- A Blitter slot that is no D step stores nothing. -/
theorem blitterStep_mem_of_ne_d {s : State} (h : s.blitter.step ≠ .d) : (blitterStep s).mem = s.mem := by
  rw [blitterStep_mem, if_neg fun ⟨_, hd⟩ => h hd]

/-- A Blitter slot leaves every byte but those of the word at the reduced D pointer. -/
theorem blitterStep_byteAt {s : State} (hm : Memory.wf s.mem = true) {a : Nat}
    (h0 : a ≠ reduceAddr s.cfg s.blitter.dpt.toNat) (h1 : a ≠ reduceAddr s.cfg s.blitter.dpt.toNat + 1) :
    (blitterStep s).byteAt a = s.byteAt a := by
  rw [State.byteAt, blitterStep_mem]
  split
  · exact Memory.read_writeWord_other hm _ h0 h1
  · rfl

/-- A disk slot stores the buffered word when the disk is read, and nothing when it is written. -/
theorem diskStep_mem_eq (s : State) : (diskStep s).mem = if s.disk.dir = .read then
    Memory.writeWord s.mem (reduceAddr s.cfg s.disk.ptr.toNat) s.disk.buf else s.mem :=
  (diskStep_mem s).trans (diskTransfer_mem s)

/-- A disk slot leaves every byte but those of the word at the reduced disk pointer. -/
theorem diskStep_byteAt {s : State} (hm : Memory.wf s.mem = true) {a : Nat}
    (h0 : a ≠ reduceAddr s.cfg s.disk.ptr.toNat) (h1 : a ≠ reduceAddr s.cfg s.disk.ptr.toNat + 1) :
    (diskStep s).byteAt a = s.byteAt a := by
  rw [State.byteAt, diskStep_mem_eq]
  split
  · exact Memory.read_writeWord_other hm _ h0 h1
  · rfl

/-! The start of a slot may note a sync of the disk, and leaves what a transfer reads of the channel. -/

section

variable (s : State)

@[simp] theorem slotStart_disk_ptr : (slotStart s).disk.ptr = s.disk.ptr := by
  rw [slotStart_disk, samplePeripherals_eq]
@[simp] theorem slotStart_disk_dir : (slotStart s).disk.dir = s.disk.dir := by
  rw [slotStart_disk, samplePeripherals_eq]
@[simp] theorem slotStart_disk_buf : (slotStart s).disk.buf = s.disk.buf := by
  rw [slotStart_disk, samplePeripherals_eq]

end

end Sys2Proof.Machine

open Sys2Proof Sys2Proof.Machine

/-- Settles O26: a Copper slot ends as its instruction does, every other completes. -/
theorem slotsNeverFault : Obligations.SlotsNeverFault := by
  intro cpuWants s
  by_cases hg : slotGrant cpuWants s = .channel .copper
  · rcases copperStep_completes (slotStart s) with ⟨t, ht⟩ | ⟨hr, hmove, hdang, hline⟩
    · exact .inl ⟨_, slot_of_performGrant (by rwa [hg])⟩
    · exact .inr ⟨slot_of_performGrant_refused (by rwa [hg]), hg, hmove, hdang, hline⟩
  · obtain ⟨t, ht⟩ := performGrant_completes hg (slotStart s)
    exact .inl ⟨_, slot_of_performGrant ht⟩

/-- Settles O27: the start and the end of a slot store nothing, so memory is what the granted operation leaves. -/
theorem onlyGrantedChannelStores : Obligations.OnlyGrantedChannelStores := by
  intro cpuWants s t hwf hs
  obtain ⟨u, hu, rfl⟩ := slot_cases hs
  have hwf' : Memory.wf (slotStart s).mem = true := (slotStart_mem s).symm ▸ hwf
  simp only [State.byteAt, slotEnd_mem]
  refine ⟨fun hb hd => ?others, fun hb => ?blitter, fun hd => ?disk⟩
  case others => exact (performGrant_mem hb hd hu).trans (slotStart_mem s)
  case blitter =>
    rw [hb] at hu
    cases hu
    refine ⟨fun hstep => (blitterStep_mem_of_ne_d hstep).trans (slotStart_mem s), fun a h0 h1 => ?_⟩
    simpa only [State.byteAt, slotStart_mem] using
      blitterStep_byteAt hwf' (a := a) (by simpa using h0) (by simpa using h1)
  case disk =>
    rw [hd] at hu
    cases hu
    refine ⟨fun hdir => ?write, fun hdir => ?read, fun a h0 h1 => ?other⟩
    case write => simp [diskStep_mem_eq, hdir]
    case read => simp [diskStep_mem_eq, hdir, Memory.readWord_writeWord hwf]
    case other =>
      simpa only [State.byteAt, slotStart_mem] using
        diskStep_byteAt hwf' (a := a) (by simpa using h0) (by simpa using h1)

end

section
/-! SUPPORT. Runs of slots: the position after `n` of them (40_scheduler.md R192, R193), and the run operations with
their results (R181 to R186). -/

namespace Sys2Proof.Machine

/-! ## Position (R192, R193) -/

/-- A slot keeps the configuration and moves the raster one position on. -/
theorem slot_position {cpuWants : Bool} {s t : State} (h : slot cpuWants s = .next t) :
    t.cfg = s.cfg ∧ t.raster = advancePosition s.cfg s.raster := by
  obtain ⟨u, hu, rfl⟩ := slot_cases h
  obtain ⟨hc, hr, -⟩ := performGrant_frame hu
  rw [slotEnd_cfg, slotEnd_raster, hc, hr, slotStart_cfg, slotStart_raster]
  exact ⟨rfl, rfl⟩

/-- `n` slots from inside the frame move it `n` positions on and stay inside. -/
theorem slots_position {n : Nat} {s t : State} (hline : s.raster.line < s.cfg.fieldHeight)
    (hcycle : s.raster.cycle < s.cfg.lineLength) (h : slots n s = .next t) :
    slotIndex s.cfg t.raster = slotIndex s.cfg s.raster + n ∧
      t.raster.line < s.cfg.fieldHeight ∧ t.raster.cycle < s.cfg.lineLength := by
  induction n generalizing s with
  | zero =>
    cases h
    exact ⟨rfl, hline, hcycle⟩
  | succ n ih =>
    obtain ⟨u, hu, ht⟩ := andThen_eq_next h
    obtain ⟨hc, hr⟩ := slot_position hu
    obtain ⟨hline', hcycle', -, -, hindex⟩ := advancePosition_ok hline hcycle
    rw [← hr] at hline' hcycle' hindex
    rw [← hc] at hline' hcycle' hindex ⊢
    obtain ⟨hsum, hin⟩ := ih hline' hcycle' ht
    exact ⟨by rw [hsum, hindex]; omega, hin⟩

/-! ## Steps with no input due (assumption 5) -/

theorem tickInputs_nil {s : State} (h : s.inputs = []) : tickInputs s = s := by
  rw [tickInputs, h]

section

variable (s : State)

@[simp] theorem tickInputs_raster : (tickInputs s).raster = s.raster := by rw [tickInputs_frame]
@[simp] theorem tickInputs_irq : (tickInputs s).irq = s.irq := by rw [tickInputs_frame]
@[simp] theorem tickInputs_responses : (tickInputs s).responses = s.responses := by rw [tickInputs_frame]

/-- Time passing for the inputs does not change whom the slot goes to. -/
@[simp] theorem slotGrant_tickInputs (cpuWants : Bool) : slotGrant cpuWants (tickInputs s) = slotGrant cpuWants s := by
  rw [tickInputs_withOwn, slotGrant_withOwn]

end

/-- With no input due a step drives the machine on. -/
theorem step_driven {s : State} (h : ∀ i rest, s.inputs ≠ (0, i) :: rest) : step s = drivenStep s := by
  unfold step
  split
  · exact absurd ‹_› (h _ _)
  · rfl

/-- While a run is in progress the machine is driven on by one of its slots. -/
theorem drivenStep_run {s : State} {r : Run} (h : s.run = some r) : drivenStep s = runSlot r (tickInputs s) := by
  rw [drivenStep, h]

/-- With no run in progress it is driven on by the caller's next operation. -/
theorem drivenStep_call {s : State} {c : Call} {rest : List Call} (hr : s.run = none) (hc : s.calls = c :: rest) :
    drivenStep s = performCall c { tickInputs s with calls := rest } := by
  rw [drivenStep, hr, hc]

/-- A step with one pending call and nothing else pending performs that call. -/
theorem step_call {s : State} {c : Call} (hi : s.inputs = []) (hr : s.run = none) (hc : s.calls = [c]) :
    step s = performCall c { s with calls := [] } := by
  rw [step_driven (by simp [hi]), drivenStep_call hr hc, tickInputs_nil hi]

/-- A step of a run with no input to come. -/
theorem step_run {s : State} {r : Run} (hi : s.inputs = []) (hr : s.run = some r) : step s = runSlot r s := by
  rw [step_driven (by simp [hi]), drivenStep_run hr, tickInputs_nil hi]

/-- A host's run of `k + 1` steps that completes is a step and a run of `k`. -/
theorem run_succ_eq_next {M : Host.Core} {k : Nat} {s t : M.State} (h : M.run (k + 1) s = .next t) :
    ∃ u, M.step s = .next u ∧ M.run k u = .next t := by
  unfold Host.Core.run at h
  split at h
  · exact ⟨_, ‹_›, h⟩
  · cases h
  · cases h

/-- The same of this machine, whose step is `step`. -/
theorem core_run_succ {k : Nat} {s t : State} (h : Host.Core.run core (k + 1) s = .next t) :
    ∃ u, step s = .next u ∧ Host.Core.run core k u = .next t := run_succ_eq_next (M := core) h

/-! ## The start of a run (R181, R183) -/

theorem startAdvance_zero (s : State) :
    startAdvance 0 s = s.respond (.run ((Run.start .runFull 0).result s.irq.level)) := rfl

theorem startAdvance_pos {n : Nat} (h : n ≠ 0) (s : State) :
    startAdvance n s = { s with run := some (Run.start .runFull n) } := if_neg h

/-! ## A slot of a run (R185) -/

/-- The last slot of a run ends it and answers with its result; any other is added to it. -/
theorem finishSlot_of_ends {r : Run} {s : State} (h : r.ends s = true) (t : State) :
    r.finishSlot s t = { t with run := none }.respond (.run ((r.account s t).result t.irq.level)) := if_pos h

theorem finishSlot_of_not_ends {r : Run} {s : State} (h : ¬ r.ends s = true) (t : State) :
    r.finishSlot s t = { t with run := some (r.account s t) } := if_neg h

/-! The run's record after one more slot. -/

theorem account_left (r : Run) (s t : State) : (r.account s t).left = r.left - 1 := rfl

theorem account_elapsedSlots (r : Run) (s t : State) : (r.account s t).elapsedSlots = r.elapsedSlots + 1 := rfl

theorem account_levelChanged (r : Run) (s t : State) :
    (r.account s t).levelChanged = true ↔ r.levelChanged = true ∨ t.irq.level ≠ s.irq.level := by
  simp only [Run.account, Bool.or_eq_true, bne_iff_ne]

theorem account_linesStarted (r : Run) (s t : State) :
    (r.account s t).linesStarted = r.linesStarted + if s.raster.cycle = 0 then 1 else 0 := by
  simp only [Run.account]
  split <;> rfl

theorem account_framesStarted (r : Run) (s t : State) :
    (r.account s t).framesStarted =
      r.framesStarted + if s.raster.cycle = 0 ∧ s.raster.line = 0 then 1 else 0 := by
  simp only [Run.account]
  split <;> rfl

/-- What a run takes note of is blind to the inputs to come. -/
@[simp] theorem account_tickInputs (r : Run) (s t : State) : r.account (tickInputs s) t = r.account s t := by
  simp only [Run.account, tickInputs_raster, tickInputs_irq]

/-! ## A whole run of `advance` (R181) -/

/-- A slot of a run is the slot without it. -/
theorem slot_of_slot_run {cpuWants : Bool} {s t : State} {r : Option Run}
    (h : slot cpuWants { s with run := r } = .next t) :
    ∃ u, slot cpuWants s = .next u ∧ t = { u with run := r } := by
  have e : slot cpuWants { s with run := r } = withOwnOutcome s.inputs s.calls r s.responses (slot cpuWants s) :=
    slot_withOwn s.inputs s.calls r s.responses cpuWants s
  obtain ⟨u, hu, ht⟩ := andThen_eq_next (e.symm.trans h)
  obtain ⟨hi, hc, -, hp⟩ := slot_own hu
  cases ht
  exact ⟨u, hu, by rw [← hi, ← hc, ← hp]; rfl⟩

/-- Slots leave the model's own lists. -/
theorem slots_own {n : Nat} {s t : State} (h : slots n s = .next t) :
    t.inputs = s.inputs ∧ t.calls = s.calls ∧ t.run = s.run ∧ t.responses = s.responses := by
  induction n generalizing s with
  | zero =>
    cases h
    exact ⟨rfl, rfl, rfl, rfl⟩
  | succ n ih =>
    obtain ⟨u, hu, ht⟩ := andThen_eq_next h
    obtain ⟨hi, hc, hr, hp⟩ := slot_own hu
    obtain ⟨hi', hc', hr', hp'⟩ := ih ht
    exact ⟨hi'.trans hi, hc'.trans hc, hr'.trans hr, hp'.trans hp⟩

/-- A step of a full run with no input to come is one slot without the CPU; the run ends with its last slot. -/
theorem step_full {s t : State} {r : Run} (hi : s.inputs = []) (hm : r.mode = .runFull)
    (h : step { s with run := some r } = .next t) :
    ∃ u, slot false s = .next u ∧
      (r.left ≤ 1 → t = { u with
        run := none, responses := .run ((r.account s u).result u.irq.level) :: s.responses }) ∧
      (1 < r.left → t = { u with run := some (r.account s u) }) := by
  have hcpu : r.cpuWants = false := by rw [Run.cpuWants, hm]; rfl
  have hends : r.ends { s with run := some r } = decide (r.left ≤ 1) := by rw [Run.ends, hm]
  rw [step_run (s := { s with run := some r }) hi rfl, runSlot, hcpu] at h
  obtain ⟨v, hv, hf⟩ := andThen_eq_next h
  obtain ⟨u, hu, rfl⟩ := slot_of_slot_run hv
  cases hf
  obtain ⟨-, -, -, hp⟩ := slot_own hu
  refine ⟨u, hu, fun hl => ?_, fun hl => ?_⟩
  · rw [finishSlot_of_ends (by simpa [hends] using hl), ← hp]
    rfl
  · rw [finishSlot_of_not_ends (by simpa [hends] using hl)]
    rfl

theorem slots_succ {s u : State} (h : slot false s = .next u) (n : Nat) : slots (n + 1) s = slots n u := by
  rw [slots, h, andThen_next]

/-- A full run with `k + 1` slots left takes `k + 1` steps, which are those slots, and answers with the last. -/
theorem core_run_full {k : Nat} {s t : State} {r : Run} (hi : s.inputs = []) (hm : r.mode = .runFull)
    (hl : r.left = k + 1) (h : Host.Core.run core (k + 1) { s with run := some r } = .next t) :
    ∃ u res, slots (k + 1) s = .next u ∧ t = { u with run := none, responses := .run res :: s.responses } ∧
      res.elapsedSlots = r.elapsedSlots + (k + 1) ∧ res.elapsedTicks = 2 * (r.elapsedSlots + (k + 1)) ∧
      res.level = t.irq.level := by
  induction k generalizing s r with
  | zero =>
    obtain ⟨v, hv, ht⟩ := core_run_succ h
    obtain ⟨u, hu, hlast, -⟩ := step_full hi hm hv
    cases ht
    rw [hlast (by omega)]
    exact ⟨u, _, slots_succ hu 0, rfl, rfl, rfl, rfl⟩
  | succ k ih =>
    obtain ⟨v, hv, ht⟩ := core_run_succ h
    obtain ⟨u, hu, -, hmore⟩ := step_full hi hm hv
    obtain ⟨hi', -, -, hp⟩ := slot_own hu
    rw [hmore (by omega)] at ht
    have hone : (r.account s u).elapsedSlots + (k + 1) = r.elapsedSlots + (k + 1 + 1) := by
      rw [account_elapsedSlots]
      omega
    obtain ⟨w, res, hw, htw, hslots, hticks, hlevel⟩ :=
      ih (r := r.account s u) (hi'.trans hi) hm (by rw [account_left, hl]; rfl) ht
    rw [hone] at hslots hticks
    exact ⟨w, res, (slots_succ hu _).trans hw, by rw [htw, hp], hslots, hticks, hlevel⟩

end Sys2Proof.Machine

open Sys2Proof Sys2Proof.Machine

/-- Settles O29: by induction on the slots, each of which moves the position on by one. -/
theorem accountingLaw : Obligations.AccountingLaw := fun _ _ _ hok h => slots_position hok.line hok.cycle h

/-- Settles O31: the call is performed in one step, and starts a run where whole slots are left to run. -/
theorem runForKeepsOddTick : Obligations.RunForKeepsOddTick := by
  intro d s hi hr hc
  refine ⟨_, step_call hi hr hc, ?_⟩
  dsimp only [startRunFor]
  by_cases hz : (s.raster.residualTicks + d) / 2 = 0
  · rw [hz, startAdvance_zero]
    exact ⟨rfl, rfl, fun _ => ⟨hr, rfl⟩, fun h => absurd rfl h⟩
  · rw [startAdvance_pos hz]
    exact ⟨rfl, rfl, fun h => absurd h hz, fun _ => ⟨rfl, rfl⟩⟩

/-- Settles O30: with no slots the answer comes at once; otherwise the call's step starts a run of `n` slots. -/
theorem advanceReturnsItsSlots : Obligations.AdvanceReturnsItsSlots := by
  intro n s t hi hr hc h
  obtain ⟨v, hv, ht⟩ := core_run_succ h
  rw [step_call hi hr hc] at hv
  cases hv
  cases n with
  | zero =>
    cases ht
    exact ⟨_, _, rfl, rfl, hr, rfl, hi, rfl, rfl, rfl⟩
  | succ k =>
    rw [startAdvance_pos k.succ_ne_zero] at ht
    obtain ⟨u, res, hu, htu, hslots, hticks, hlevel⟩ :=
      core_run_full (s := { s with calls := [] }) (r := .start .runFull (k + 1)) hi rfl rfl ht
    obtain ⟨hi', hc', hr', -⟩ := slots_own hu
    replace hr' : u.run = none := hr'.trans hr
    rw [show (Run.start .runFull (k + 1)).elapsedSlots + (k + 1) = k + 1 from Nat.zero_add _] at hslots hticks
    exact ⟨u, res, hu, by rw [htu, ← hr'], hr', hc', hi'.trans hi, hslots, hticks, hlevel⟩

/-- Settles O32: the step is a slot in which the CPU asks, and the run ends with it exactly when the CPU gets it. -/
theorem cpuSlotEndsRun : Obligations.CpuSlotEndsRun := by
  intro s t r hdue hr hm h
  rw [step_driven hdue, drivenStep_run hr, runSlot, Run.cpuWants, hm] at h
  obtain ⟨u, hu, hf⟩ := andThen_eq_next h
  cases hf
  have hends : r.ends (tickInputs s) = true ↔ slotGrant true s = .cpu := by
    rw [Run.ends, hm, slotGrant_tickInputs, beq_iff_eq]
  have hresponses : u.responses = s.responses := by
    obtain ⟨-, -, -, hp⟩ := slot_own hu
    rw [hp, tickInputs_responses]
  refine ⟨⟨u, hu, finishSlot_frame r _ u⟩, fun hg => ?ends, fun hg => ?goesOn⟩
  case ends =>
    rw [finishSlot_of_ends (hends.2 hg), account_tickInputs]
    exact ⟨rfl, _, congrArg _ hresponses, rfl, rfl, rfl, account_levelChanged r s u, account_linesStarted r s u,
      account_framesStarted r s u⟩
  case goesOn =>
    rw [finishSlot_of_not_ends fun he => hg (hends.1 he), account_tickInputs]
    exact ⟨hresponses, _, rfl, hm, rfl, account_levelChanged r s u, account_linesStarted r s u,
      account_framesStarted r s u⟩

end

section
/-! SUPPORT. The Copper: its protection, its slots, its waits and its redirections (41_copper.md R243 to R252), and what
a slot and a step run (40_scheduler.md R190). -/

namespace Sys2Proof.Machine

/-! ## Pending jumps (R250) -/

/-- With no jump pending there is nothing to apply. -/
theorem copperApplyPendingJump_none {s : State} (h : s.copper.pendingJump = .none) : copperApplyPendingJump s = s := by
  rw [copperApplyPendingJump, h]

theorem copperApplyPendingJump_one {s : State} (h : s.copper.pendingJump = .one) :
    copperApplyPendingJump s = copperJump s s.copper.loc1 := by
  rw [copperApplyPendingJump, h]

theorem copperApplyPendingJump_two {s : State} (h : s.copper.pendingJump = .two) :
    copperApplyPendingJump s = copperJump s s.copper.loc2 := by
  rw [copperApplyPendingJump, h]

/-- A jump moves the Copper and starts it; the locations, the latched words and the wait stay. -/
theorem copperApplyPendingJump_copper (s : State) : (copperApplyPendingJump s).copper = { s.copper with
    pc := (copperApplyPendingJump s).copper.pc
    mode := (copperApplyPendingJump s).copper.mode
    pendingJump := (copperApplyPendingJump s).copper.pendingJump } := by
  unfold copperApplyPendingJump
  split <;> rfl

/-! ## The Copper's slots (R247) -/

/-- The Copper heads the priority list, so it is granted every slot it wants. -/
theorem grant_copper_iff (cpuWants : Bool) (s : State) :
    grant cpuWants s = .channel .copper ↔ wantsCopper s = true := by
  refine ⟨fun h => (grant_channel h).1, fun h => ?_⟩
  rw [grant_eq_channel_iff, priorityList, List.find?_cons_of_pos]
  exact (candidate_iff _ _ _).2 ⟨h, nofun⟩

/-- A granted Copper runs, or waits with its wait over. -/
theorem mode_of_slotGrant_copper {cpuWants : Bool} {s : State} (h : slotGrant cpuWants s = .channel .copper) :
    (slotStart s).copper.mode = .running ∨ (slotStart s).copper.mode = .waiting := by
  obtain ⟨-, -, -, hmode⟩ := (wantsCopper_iff _).1 ((grant_copper_iff _ _).1 h)
  exact hmode.imp_right And.left

/-- Only the Copper's own operation changes the Copper. -/
theorem performGrant_copper {g : Grant} {s t : State} (hg : g ≠ .channel .copper) (h : performGrant g s = .next t) :
    t.copper = s.copper := by
  cases g with
  | channel c =>
    cases c with
    | copper => exact absurd rfl hg
    | blitter =>
      cases h
      rw [blitterStep_frame]
    | bitplane =>
      cases h
      rw [bitplaneFetch_frame]
    | sprite n =>
      cases h
      rfl
    | disk =>
      cases h
      rw [diskStep_frame]
    | audio n =>
      cases h
      rw [audioStep_frame]
  | cpu | idle =>
    cases h
    rfl

/-! ## What a slot and a step run (R190, R192) -/

/-- The next position, field by field. -/
theorem advancePosition_eq (cfg : Config) (r : Raster) : advancePosition cfg r = { r with
    cycle := if r.cycle + 1 = cfg.lineLength then 0 else r.cycle + 1
    line := if r.cycle + 1 = cfg.lineLength ∧ r.line + 1 = cfg.fieldHeight then 0
      else if r.cycle + 1 = cfg.lineLength then r.line + 1 else r.line
    frameCount := if r.cycle + 1 = cfg.lineLength ∧ r.line + 1 = cfg.fieldHeight then r.frameCount + 1
      else r.frameCount } := by
  unfold advancePosition
  by_cases hl : r.cycle + 1 = cfg.lineLength
  · by_cases hf : r.line + 1 = cfg.fieldHeight <;> simp only [hl, hf, and_self, and_false, if_true, if_false]
  · simp only [hl, false_and, if_false]

/-- The rest of a slot moves on the position the slot began with. -/
theorem slotEnd_eq (s : State) : slotEnd s =
    { bitplaneUnitTick (outputSlot s) with raster := advancePosition s.cfg s.raster } := by
  unfold slotEnd
  dsimp only
  rw [bitplaneUnitTick_frame, outputSlot_frame]

/-- An input that is due is the step. -/
theorem step_input {s : State} {i : Input} {rest : List (Nat × Input)} (h : s.inputs = (0, i) :: rest) :
    step s = .next (performInput i { s with inputs := rest }) := by
  simp only [step, h]

/-- With nothing to do the machine is driven on by a slot without the CPU. -/
theorem drivenStep_idle {s : State} (hr : s.run = none) (hc : s.calls = []) :
    drivenStep s = slot false (tickInputs s) := by
  rw [drivenStep, hr, hc]

theorem tickInputs_succ {s : State} {k : Nat} {i : Input} {rest : List (Nat × Input)}
    (h : s.inputs = (k + 1, i) :: rest) : tickInputs s = { s with inputs := (k, i) :: rest } := by
  rw [tickInputs, h]

end Sys2Proof.Machine

open Sys2Proof Sys2Proof.Machine

/-- Settles O5: the condition is `copperMayWrite`, on which a Copper's write is the CPU's or nothing. -/
theorem copperProtection : Obligations.CopperProtection := fun _ dest v s h0 =>
  have hexec := writeOffset_copper h0 v s
  have hmay := copperMayWrite_iff s.copper.copcon dest
  ⟨fun h => hexec.trans (if_neg (mt hmay.1 h)), fun h => hexec.trans (if_pos (hmay.2 h))⟩

/-- Settles O7: the condition is `satisfied` of the operands' words. -/
theorem waitResult : Obligations.WaitResult := by
  intro vp hp bfd ve he s
  simp only [exec, execWait, satisfied_iff]
  rfl

/-- Settles O8: the condition is `satisfied` of the operands' words. -/
theorem skipResult : Obligations.SkipResult := by
  intro vp hp bfd ve he s
  simp only [exec, execSkip, satisfied_iff]
  rfl

/-- Settles O24: the arbiter grants the Copper whatever it wants, and no other operation nor the rest of a slot
changes it. -/
theorem copperSlots : Obligations.CopperSlots := by
  intro cpuWants s t hs
  refine ⟨(grant_copper_iff _ _).trans (wantsCopper_iff _), fun hg => ?_⟩
  obtain ⟨u, hu, rfl⟩ := slot_cases hs
  exact (slotEnd_copper u).trans (performGrant_copper hg hu)

/-- Settles O25: a strobe is the storage of its register; what the start of a slot leaves of the Copper follows the
pending jump case by case, and a frame reload overwrites all a jump changes. -/
theorem jumpNextSlot : Obligations.JumpNextSlot := by
  refine ⟨fun ign v s => ⟨execMove_open .copjmp1 (by decide) v s, execMove_open .copjmp2 (by decide) v s,
    writeOffset_reg .copjmp1 v s, writeOffset_reg .copjmp2 v s⟩, fun s hno => ?jump, fun s hr hc hl => ?reload⟩
  case jump =>
    have hnot : ¬ (s.cfg.copperVblankReload = true ∧ s.raster.cycle = 0 ∧ s.raster.line = 0) := by
      rintro ⟨hr, hpos⟩
      exact hno.elim (Bool.eq_false_iff.1 · hr) (· hpos)
    rw [slotStart_copper, if_neg hnot]
    cases hj : s.copper.pendingJump with
    | none => rw [copperApplyPendingJump_none hj]
    | one => rw [copperApplyPendingJump_one hj]; rfl
    | two => rw [copperApplyPendingJump_two hj]; rfl
  case reload =>
    rw [slotStart_copper, if_pos ⟨hr, hc, hl⟩, copperApplyPendingJump_copper]

/-- Settles O22: the bytes at the pc decode to the instruction the Copper's step runs, and the fetch resumes it; every
other clause is the model's dispatch on the grant and on the lists. -/
theorem stepRunsDecodedInstruction : Obligations.StepRunsDecodedInstruction := by
  refine ⟨fun cpuWants s i rest hg hd => ?copper, fun cpuWants s => ?others, fun s => ?rest,
    fun s hdue => ⟨fun r hr => ?run, fun hr hc => ?idle, fun hr c rest hc => ?call⟩,
    fun s i rest => ⟨step_input, fun k => tickInputs_succ⟩⟩
  case copper =>
    rw [decode_copperBytes] at hd
    cases hd
    refine ⟨decodeWords_wellFormed _ _, rfl, ?_⟩
    rw [← slotStart_cfg s, slot, hg, performGrant, copperStep, copperFetch_eq (mode_of_slotGrant_copper hg)]
  case others =>
    have runs {g : Grant} {t : State} (ht : performGrant g (slotStart s) = .next t) (hg : slotGrant cpuWants s = g) :
        slot cpuWants s = .next (slotEnd t) := slot_of_performGrant (hg.symm ▸ ht)
    exact ⟨runs rfl, runs rfl, fun n => runs rfl, runs rfl, fun n => runs rfl, (·.elim (runs rfl) (runs rfl))⟩
  case rest => exact (slotEnd_eq s).trans (by rw [advancePosition_eq])
  case run => exact (step_driven hdue).trans (drivenStep_run hr)
  case idle => exact (step_driven hdue).trans (drivenStep_idle hr hc)
  case call => exact (step_driven hdue).trans (drivenStep_call hr hc)

end

section
/-! SUPPORT. What a MOVE can change (41_copper.md R243, R244): the registers in groups, each with its offsets and the
parts of the state a write of it may touch. -/

namespace Sys2Proof.Machine

/-! ## Groups of registers (R38) -/

/-- The registers by what a write of them touches: those below 0x040, where the Copper never writes, then one group for
each unit; a register whose write also reaches another unit is a group of its own. -/
inductive RegGroup where
  | low | blitter | dsksync | copper | planes | bplcon0 | dmacon | clxcon | intena | intreq | adkcon | audio | sprites
  | palette

/-- The group of a register. -/
def groupOf : Reg → RegGroup
  | .bltcon0 | .bltcon1 | .bltafwm | .bltalwm | .bltcpth | .bltcptl | .bltbpth | .bltbptl | .bltapth | .bltaptl
  | .bltdpth | .bltdptl | .bltsize | .bltcmod | .bltbmod | .bltamod | .bltdmod | .bltcdat | .bltbdat | .bltadat =>
    .blitter
  | .dsksync => .dsksync
  | .cop1lch | .cop1lcl | .cop2lch | .cop2lcl | .copjmp1 | .copjmp2 | .copins => .copper
  | .diwstrt | .diwstop | .ddfstrt | .ddfstop | .bplcon1 | .bplcon2 | .bpl1mod | .bpl2mod | .bplpth _ | .bplptl _
  | .bpldat _ => .planes
  | .bplcon0 => .bplcon0
  | .dmacon => .dmacon
  | .clxcon => .clxcon
  | .intena => .intena
  | .intreq => .intreq
  | .adkcon => .adkcon
  | .audlch _ | .audlcl _ | .audlen _ | .audper _ | .audvol _ | .auddat _ => .audio
  | .sprpth _ | .sprptl _ | .sprpos _ | .sprctl _ | .sprdata _ | .sprdatb _ => .sprites
  | .color _ => .palette
  | _ => .low

namespace RegGroup

/-- The offsets among which a group's registers sit. -/
abbrev Spans (o : Offset) : RegGroup → Prop
  | .low => o.toNat < 0x040
  | .blitter => 0x040 ≤ o.toNat ∧ o.toNat ≤ 0x074
  | .dsksync => o = 0x07E
  | .copper => 0x080 ≤ o.toNat ∧ o.toNat ≤ 0x08C
  | .planes => (0x08E ≤ o.toNat ∧ o.toNat ≤ 0x094) ∨ (0x0E0 ≤ o.toNat ∧ o.toNat ≤ 0x11A)
  | .bplcon0 => o = 0x100
  | .dmacon => o = 0x096
  | .clxcon => o = 0x098
  | .intena => o = 0x09A
  | .intreq => o = 0x09C
  | .adkcon => o = 0x09E
  | .audio => 0x0A0 ≤ o.toNat ∧ o.toNat ≤ 0x0DA
  | .sprites => 0x120 ≤ o.toNat ∧ o.toNat ≤ 0x17E
  | .palette => 0x180 ≤ o.toNat ∧ o.toNat ≤ 0x1BE

/-- The parts of the state a write in a group may change from `s` to `t`; of the Copper, never its own sequencing. -/
def Frame (s t : State) : RegGroup → Prop
  | .low => t = { s with
      disk := t.disk, refptr := t.refptr, copper := { s.copper with copcon := t.copper.copcon } }
  | .blitter => t = { s with blitter := t.blitter }
  | .dsksync => t = { s with disk := t.disk, outbox := t.outbox }
  | .copper => t = { s with copper := { s.copper with
      loc1 := t.copper.loc1, loc2 := t.copper.loc2, pendingJump := t.copper.pendingJump, copins := t.copper.copins } }
  | .planes => t = { s with planes := t.planes }
  | .bplcon0 => t = { s with planes := t.planes, outbox := t.outbox }
  | .dmacon => t = { s with dmacon := t.dmacon, audio := t.audio, irq := t.irq }
  | .clxcon => t = { s with clxcon := t.clxcon }
  | .intena => t = { s with irq := t.irq }
  | .intreq => t = { s with irq := t.irq }
  | .adkcon => t = { s with adkcon := t.adkcon, outbox := t.outbox }
  | .audio => t = { s with audio := t.audio, outbox := t.outbox }
  | .sprites => t = { s with sprites := t.sprites }
  | .palette => t = { s with palette := t.palette }

end RegGroup

/-- Every register sits among its group's offsets. -/
theorem groupOf_spans (r : Reg) : (groupOf r).Spans (regOffset r) := by
  cases r
  all_goals
    simp only [groupOf, RegGroup.Spans]
    first | decide | (rename_i n; revert n; decide)

/-- The storage of a register changes what its group may change, and nothing else. -/
theorem storeReg_group_frame (r : Reg) (v : Word) (s : State) : (groupOf r).Frame s (storeReg r v s) := by
  cases r with
  | dmacon =>
    simp only [groupOf, RegGroup.Frame, storeReg]
    rw [writeDmacon_frame]
  | bplcon0 =>
    simp only [groupOf, RegGroup.Frame, storeReg]
    rw [writeBplcon0_frame]
  | _ => rfl

/-- Every register whose writes are forwarded to its unit sits below 0x040. -/
theorem groupOf_externalUnit {r : Reg} (h : accessClass r = .externalUnit) : groupOf r = .low := by
  cases r with
  | joy0dat | joy1dat | pot0dat | pot1dat | potgor | serdatr | dskbytr | serdat | serper | potgo | joytest => rfl
  | _ => cases h

/-! ## A MOVE (R243) -/

/-- A MOVE that completes leaves the state as it is, or writes a register from 0x040 up and changes what that
register's group may change. -/
theorem exec_move_cases {ign : BitVec 7} {dest : Offset} {v : Word} {s t : State} (h0 : dest.getLsbD 0 = false)
    (h : exec (.move ign dest v) s = .next t) : t = s ∨ ∃ g : RegGroup, g ≠ .low ∧ g.Spans dest ∧ g.Frame s t := by
  by_cases hmay : copperMayWrite s.copper.copcon dest = true
  · have hlow : ¬ RegGroup.low.Spans dest := by
      have := (copperMayWrite_iff _ _).1 hmay
      simp only [RegGroup.Spans]
      omega
    have spans {r : Reg} (hr : regOf dest = some r) : (groupOf r).Spans dest := regOffset_of_regOf hr ▸ groupOf_spans r
    rcases writeOffset_cases h with rfl | ⟨r, hr, -, rfl⟩ | ⟨hr, -, rfl⟩ | ⟨r, hr, hx, rfl⟩
    · exact .inl rfl
    · exact .inr ⟨groupOf r, fun hl => hlow (hl ▸ spans hr), spans hr, storeReg_group_frame r v s⟩
    · exact .inr ⟨.blitter, nofun, spans hr, rfl⟩
    · exact absurd (spans hr) (groupOf_externalUnit hx ▸ hlow)
  · have hdropped : exec (.move ign dest v) s = .next s := (writeOffset_copper h0 v s).trans (if_neg hmay)
    cases h.symm.trans hdropped
    exact .inl rfl

end Sys2Proof.Machine

open Sys2Proof Sys2Proof.Machine

/-- Settles O6: the one MOVE that stops is excluded, and a completed one changes the parts of its register's group.
Group by group, each clause speaks of another part or is excluded by the group's offsets. -/
theorem moveCompletesWithFrame : Obligations.MoveCompletesWithFrame := by
  intro ign dest v s h0 hline
  obtain ⟨t, ht⟩ := (writeOffset_copper_completes h0 v s).resolve_right fun ⟨_, hbad⟩ => hline hbad
  refine ⟨t, ht, ?_⟩
  rcases exec_move_cases (ign := ign) h0 ht with rfl | ⟨g, hlow, hspans, hframe⟩
  · simp
  · cases g
    case low => exact absurd rfl hlow
    all_goals
      rw [RegGroup.Frame] at hframe
      rw [hframe]
      simp [hspans, State.byteAt]

end

section
/-! SUPPORT. The Blitter's arming and its data path, bit by bit (42_blitter.md R281, R285 to R288). -/

namespace Sys2Proof.Machine

/-! ## Arming (R281, R298) -/

theorem sizeWidth_eq (v : Word) : sizeWidth v = if v.toNat % 64 = 0 then 64 else v.toNat % 64 := by
  have h : (v.extractLsb' 0 6).toNat = v.toNat % 64 := by simp
  simp only [sizeWidth, ← BitVec.toNat_inj, h]
  rfl

theorem sizeHeight_eq (v : Word) : sizeHeight v = if v.toNat / 64 = 0 then 1024 else v.toNat / 64 := by
  have h : (v.extractLsb' 6 10).toNat = v.toNat / 64 := by
    rw [BitVec.extractLsb'_toNat, Nat.shiftRight_eq_div_pow]
    omega
  simp only [sizeHeight, ← BitVec.toNat_inj, h]
  rfl

theorem writeOffset_bltsize (v : Word) (s : State) : writeOffset .cpu 0x058 v s = armBlitter v s :=
  writeOffset_reg .bltsize v s

theorem armBlitter_line {s : State} (h : lineMode s.blitter.con1 = true) (v : Word) :
    armBlitter v s = .refused .blitterLineMode := if_pos h

theorem armBlitter_area {s : State} (h : lineMode s.blitter.con1 = false) (v : Word) :
    armBlitter v s = .next { s with blitter := s.blitter.arm v } := if_neg (by rw [h]; decide)

/-! ## The shift (R285) -/

theorem blitShift_ascending_getLsbD {n i : Nat} (old cur : Word) (hi : i < 16) :
    (blitShift false n old cur).getLsbD i =
      if i + n < 16 then cur.getLsbD (i + n) else old.getLsbD (i + n - 16) := by
  rw [blitShift, if_neg (by decide), BitVec.getLsbD_extractLsb', BitVec.getLsbD_ushiftRight, BitVec.getLsbD_append,
    decide_eq_true hi, Bool.true_and, Nat.zero_add, Nat.add_comm n i]

theorem blitShift_descending_getLsbD {n i : Nat} (old cur : Word) (hn : n < 16) (hi : i < 16) :
    (blitShift true n old cur).getLsbD i =
      if n ≤ i then cur.getLsbD (i - n) else old.getLsbD (16 + i - n) := by
  have hin : 16 + i < 16 + 16 ∧ ¬ 16 + i < n := by omega
  rw [blitShift, if_pos rfl, BitVec.getLsbD_extractLsb', BitVec.getLsbD_shiftLeft, BitVec.getLsbD_append,
    decide_eq_true hi, decide_eq_true hin.1, decide_eq_false hin.2]
  by_cases h : n ≤ i
  · rw [if_pos h, if_neg (by omega), show 16 + i - n - 16 = i - n by omega]
    rfl
  · rw [if_neg h, if_pos (by omega)]
    rfl

/-- Without a shift the current word passes. -/
theorem blitShift_zero (old cur : Word) : blitShift false 0 old cur = cur :=
  BitVec.eq_of_getLsbD_eq fun i hi => by rw [blitShift_ascending_getLsbD old cur hi]; exact if_pos hi

/-! ## The logic function (R287) -/

/-- Bit `j` of a word into which bit `n` may be set. -/
theorem getLsbD_setBit (p : Bool) (d : Word) (n : Nat) {j : Nat} (hj : j < 16) :
    (if p then d ||| (1#16 <<< n) else d).getLsbD j = (d.getLsbD j || (decide (j = n) && p)) := by
  cases p
  · rw [if_neg (by decide), Bool.and_false, Bool.or_false]
  · rw [if_pos rfl, BitVec.getLsbD_or, one_shiftLeft_getLsbD n hj, Bool.and_true]

/-- The bits of a word set one by one from a list of positions. -/
theorem getLsbD_foldl_setBit (p : Nat → Bool) (n : Nat) {j : Nat} (hj : j < 16) :
    ((List.range n).foldl (fun d i => if p i then d ||| (1#16 <<< i) else d) (0 : Word)).getLsbD j =
      (decide (j < n) && p j) := by
  induction n with
  | zero => simp
  | succ n ih =>
    rw [List.range_succ, List.foldl_append, List.foldl_cons, List.foldl_nil, getLsbD_setBit _ _ _ hj, ih]
    by_cases h : j = n
    · simp [h]
    · simp [h, show j < n + 1 ↔ j < n by omega]

theorem minterm_getLsbD (lf : BitVec 8) (a b c : Word) {i : Nat} (hi : i < 16) :
    (minterm lf a b c).getLsbD i =
      lf.getLsbD (4 * (a.getLsbD i).toNat + 2 * (b.getLsbD i).toNat + (c.getLsbD i).toNat) := by
  rw [minterm, getLsbD_foldl_setBit (fun i => mintermBit lf (a.getLsbD i) (b.getLsbD i) (c.getLsbD i)) 16 hi,
    decide_eq_true hi, Bool.true_and, mintermBit]

/-- A truth table that agrees with a word's bits at every bit gives that word. -/
theorem minterm_eq_of_table {lf : BitVec 8} {f : Bool → Bool → Bool → Bool} {a b c d : Word}
    (htable : ∀ x y z : Bool, lf.getLsbD (4 * x.toNat + 2 * y.toNat + z.toNat) = f x y z)
    (hd : ∀ i < 16, f (a.getLsbD i) (b.getLsbD i) (c.getLsbD i) = d.getLsbD i) : minterm lf a b c = d :=
  BitVec.eq_of_getLsbD_eq fun i hi => by rw [minterm_getLsbD lf a b c hi, htable, hd i hi]

/-- LF = 0xF0 copies A. -/
theorem minterm_copyA (a b c : Word) : minterm 0xF0 a b c = a :=
  minterm_eq_of_table (f := fun x _ _ => x) (by decide) fun _ _ => rfl

/-! ## The fill (R288) -/

/-- The parity of the bits of `d` below `n`. -/
def parityBelow (d : Word) (n : Nat) : Bool := ((List.range n).map d.getLsbD).foldl (· ^^ ·) false

theorem parityBelow_succ (d : Word) (n : Nat) : parityBelow d (n + 1) = (parityBelow d n ^^ d.getLsbD n) := by
  simp [parityBelow, List.range_succ]

/-- The bit the fill puts at `i`. -/
def filledBit (exclusive carry : Bool) (d : Word) (i : Nat) : Bool :=
  if exclusive then carry ^^ parityBelow d (i + 1) else (carry ^^ parityBelow d i) || d.getLsbD i

theorem fillBits_append (exclusive : Bool) (d : Word) (l m : List Nat) (carry : Bool) (out : Word) :
    fillBits exclusive d (l ++ m) carry out =
      fillBits exclusive d m (fillBits exclusive d l carry out).1 (fillBits exclusive d l carry out).2 := by
  induction l generalizing carry out with
  | nil => rfl
  | cons i l ih => exact ih _ _

/-- The carry out of the bits below `n`. -/
theorem fillBits_range_carry (exclusive carry : Bool) (d : Word) (n : Nat) :
    (fillBits exclusive d (List.range n) carry 0).1 = (carry ^^ parityBelow d n) := by
  induction n with
  | zero => exact (Bool.xor_false _).symm
  | succ n ih =>
    rw [List.range_succ, fillBits_append, ih, parityBelow_succ, ← Bool.xor_assoc]
    rfl

theorem fillBits_range_getLsbD (exclusive carry : Bool) (d : Word) (n : Nat) {j : Nat} (hj : j < 16) :
    (fillBits exclusive d (List.range n) carry 0).2.getLsbD j = (decide (j < n) && filledBit exclusive carry d j) := by
  induction n with
  | zero => simp [fillBits]
  | succ n ih =>
    rw [List.range_succ, fillBits_append, fillBits_range_carry]
    simp only [fillBits]
    rw [getLsbD_setBit _ _ _ hj, ih]
    by_cases h : j = n
    · subst h
      simp [filledBit, parityBelow_succ]
    · simp [h, show j < n + 1 ↔ j < n by omega]

theorem fillWord_carry (exclusive carry : Bool) (d : Word) :
    (fillWord exclusive carry d).1 = (carry ^^ parityBelow d 16) := fillBits_range_carry exclusive carry d 16

theorem fillWord_getLsbD (exclusive carry : Bool) (d : Word) {i : Nat} (hi : i < 16) :
    (fillWord exclusive carry d).2.getLsbD i = filledBit exclusive carry d i := by
  rw [fillWord, fillBits_range_getLsbD exclusive carry d 16 hi, decide_eq_true hi, Bool.true_and]

end Sys2Proof.Machine

open Sys2Proof Sys2Proof.Machine

/-- Settles O16: offset 0x058 is BLTSIZE, from 0x040 up the Copper may write it with CDANG, and the armed Blitter's
width, height and first step are those of the written values. -/
theorem bltsizeArmsBlitter : Obligations.BltsizeArmsBlitter := by
  intro ign v s
  refine ⟨fun hdanger => ?_, fun hline => ?_, fun harea => ?_⟩
  · have hmay : copperMayWrite s.copper.copcon 0x058 = true := (copperMayWrite_iff _ _).2 (.inr ⟨by decide, hdanger⟩)
    exact (writeOffset_copper rfl v s).trans (if_pos hmay)
  · exact (writeOffset_bltsize v s).trans (armBlitter_line hline v)
  · rw [writeOffset_bltsize, armBlitter_area harea, Blitter.arm, sizeWidth_eq, sizeHeight_eq, blitFirstStep_eq]
    rfl

/-- Settles O36: the shift, the logic function with its named tables, and the fill, each by its bits. -/
theorem blitterDataPath : Obligations.BlitterDataPath := by
  refine ⟨fun n old cur i hn hi => ⟨blitShift_ascending_getLsbD old cur hi,
      blitShift_descending_getLsbD old cur hn hi⟩,
    fun lf a b c => ⟨fun i hi => minterm_getLsbD lf a b c hi, minterm_copyA a b c, ?_, ?_, ?_, ?_, ?_⟩,
    fun carry d => ⟨fun i hi => fillWord_getLsbD true carry d hi, fun i hi => fillWord_getLsbD false carry d hi,
      fun exclusive => fillWord_carry exclusive carry d⟩⟩
  · exact minterm_eq_of_table (f := fun _ y _ => y) (by decide) fun _ _ => rfl
  · exact minterm_eq_of_table (f := fun _ _ z => z) (by decide) fun _ _ => rfl
  · exact minterm_eq_of_table (f := fun _ _ _ => false) (by decide) fun _ _ => BitVec.getLsbD_zero.symm
  · exact minterm_eq_of_table (f := fun _ _ _ => true) (by decide) (by decide)
  · refine minterm_eq_of_table (f := fun x y z => (x && y) || (!x && z)) (by decide) fun i hi => ?_
    simp [hi]

end

section
/-! SUPPORT. One Blitter slot field by field, the 1 x 1 copy, and how many slots a blit takes (42_blitter.md R283 to
R289, R291, R299). -/

namespace Sys2Proof.Machine

/-! ## One slot, field by field (R283 to R289) -/

/-- The Blitter after the bus read of its step, with each pointer's move. -/
theorem readStep_eq (s : State) :
    Blitter.readStep s = { s.blitter with
      adat := if s.blitter.step = .a then s.memRead s.blitter.apt else s.blitter.adat
      bdat := if s.blitter.step = .b then s.memRead s.blitter.bpt else s.blitter.bdat
      cdat := if s.blitter.step = .c then s.memRead s.blitter.cpt else s.blitter.cdat
      apt := if s.blitter.step == .a then ptrAdd s.cfg s.blitter.apt s.blitter.inc else s.blitter.apt
      bpt := if s.blitter.step == .b then ptrAdd s.cfg s.blitter.bpt s.blitter.inc else s.blitter.bpt
      cpt := if s.blitter.step == .c then ptrAdd s.cfg s.blitter.cpt s.blitter.inc else s.blitter.cpt } := by
  unfold Blitter.readStep
  cases h : s.blitter.step <;> simp only [h, beq_iff_eq, reduceCtorEq, if_true, if_false]
  case d | idleCycle => rw [← h]

/-- The Blitter after the end of a word. -/
theorem wordDone_eq (cfg : Config) (b : Blitter) :
    b.wordDone cfg = { b with
      apt := if b.lineEnds && useA b.latch0 then ptrAdd cfg b.apt (b.modOf b.amod) else b.apt
      bpt := if b.lineEnds && useB b.latch0 then ptrAdd cfg b.bpt (b.modOf b.bmod) else b.bpt
      cpt := if b.lineEnds && useC b.latch0 then ptrAdd cfg b.cpt (b.modOf b.cmod) else b.cpt
      dpt := if b.lineEnds && useD b.latch0 then ptrAdd cfg b.dpt (b.modOf b.dmod) else b.dpt
      fillCarry := if b.lineEnds then fci b.latch1 else b.fillCarry
      wordX := if b.lineEnds then 0 else b.wordX + 1
      linesLeft := if b.lineEnds then b.linesLeft - 1 else b.linesLeft
      busy := b.busy && !b.blitEnds
      step := blitFirstStep b.latch0 } := by
  cases h : b.lineEnds
  · simp [Blitter.wordDone, Blitter.blitEnds, h]
  · simp [Blitter.wordDone, Blitter.blitEnds, h, Blitter.endOfLine, Blitter.addModulos, Blitter.modOf, bne]

theorem shiftOf_eq (con : Word) : shiftOf con = con.toNat / 4096 := by
  rw [shiftOf, BitVec.extractLsb'_toNat, Nat.shiftRight_eq_div_pow]
  omega

/-- The new fill carry and the word written, each by whether the blit fills. -/
theorem outputWord_eq (b : Blitter) : b.outputWord =
    (if b.latch1.getLsbD 4 || b.latch1.getLsbD 3 then (fillWord (b.latch1.getLsbD 4) b.fillCarry b.logicWord).1
      else b.fillCarry,
      if b.latch1.getLsbD 4 || b.latch1.getLsbD 3 then (fillWord (b.latch1.getLsbD 4) b.fillCarry b.logicWord).2
      else b.logicWord) := by
  unfold Blitter.outputWord efe ife
  split <;> rfl

/-- The logic function's word, with the fields of the control words as numbers. -/
theorem logicWord_eq (b : Blitter) : b.logicWord =
    minterm (b.latch0.extractLsb' 0 8)
      (blitShift (b.latch1.getLsbD 1) (b.latch0.toNat / 4096) b.aOld (b.adat &&& b.amask))
      (blitShift (b.latch1.getLsbD 1) (b.latch1.toNat / 4096) b.bOld b.bdat) b.cdat := by
  rw [Blitter.logicWord, shiftOf_eq, shiftOf_eq]
  rfl

/-- The Blitter after the word's computation and the store of step D. -/
theorem storeStep_eq (cfg : Config) (b : Blitter) :
    b.storeStep cfg = { b with
      aOld := b.adat &&& b.amask
      bOld := b.bdat
      fillCarry := b.outputWord.1
      zero := b.zero && b.outputWord.2 == 0
      dpt := if b.step == .d then ptrAdd cfg b.dpt b.inc else b.dpt } := by
  simp only [Blitter.storeStep, Blitter.computeWord, beq_iff_eq]

/-- A step that is not the last of its word: the read, and the next step. -/
theorem blitterStep_of_not_last {s : State} (h : blitIsLast s.blitter.latch0 s.blitter.step = false) :
    blitterStep s = { s with blitter := { Blitter.readStep s with
      step := blitNextStep s.blitter.latch0 s.blitter.step } } := by
  rw [blitterStep_eq]
  have e : (Blitter.readStep s).latch0 = s.blitter.latch0 := by rw [readStep_frame]
  dsimp only
  rw [e, readStep_step, if_neg (by rw [h]; decide)]

/-- The last step of a word: the read, the word's computation and store, and the end of the word. -/
theorem blitterStep_of_last {s : State} (h : blitIsLast s.blitter.latch0 s.blitter.step = true) :
    blitterStep s = { s with
      mem := if s.blitter.step == .d then
          Memory.writeWord s.mem (reduceAddr s.cfg s.blitter.dpt.toNat) (Blitter.readStep s).outputWord.2 else s.mem
      blitter := ((Blitter.readStep s).storeStep s.cfg).wordDone s.cfg
      irq := if s.blitter.blitEnds then s.irq.setRequest .blit else s.irq } := by
  have e1 : (Blitter.readStep s).latch0 = s.blitter.latch0 := by rw [readStep_frame]
  have e2 : (Blitter.readStep s).dpt = s.blitter.dpt := by rw [readStep_frame]
  have e3 : (Blitter.readStep s).blitEnds = s.blitter.blitEnds := by rw [readStep_frame]; rfl
  rw [blitterStep_eq]
  dsimp only
  rw [e1, e2, e3, readStep_step, if_pos h]
  simp only [beq_iff_eq]

/-! ## The 1 x 1 copy (R299) -/

/-- An A to D copy without masks, shift or fill writes the word A holds. -/
theorem outputWord_copy {b : Blitter} (h0 : b.latch0 = 0x09F0) (h1 : b.latch1 = 0) (hf : b.afwm = 0xFFFF)
    (hl : b.alwm = 0xFFFF) : b.outputWord = (b.fillCarry, b.adat) := by
  have hmask : b.adat &&& b.amask = b.adat := by
    rw [Blitter.amask, hf, hl, ite_self, ite_self]
    exact BitVec.and_allOnes
  rw [outputWord_eq, logicWord_eq, hmask, h0, h1]
  exact congrArg _ ((minterm_copyA _ _ _).trans (blitShift_zero b.aOld b.adat))

/-- The Blitter armed for a 1 x 1 copy. -/
def copyArmed (b : Blitter) : Blitter := { b with
  size := 0x0041, latch0 := 0x09F0, latch1 := 0, width := 1, height := 1, wordX := 0, linesLeft := 1
  aOld := 0, bOld := 0, fillCarry := false, step := .a, busy := true, zero := true }

theorem arm_copy {b : Blitter} (h0 : b.con0 = 0x09F0) (h1 : b.con1 = 0) : b.arm 0x0041 = copyArmed b := by
  rw [Blitter.arm, copyArmed, h0, h1]
  rfl

/-- The Blitter between the two slots of the copy: the source word held, step D next. -/
def copyLoaded (s : State) : Blitter := { copyArmed s.blitter with
  adat := s.memRead s.blitter.apt, apt := ptrAdd s.cfg s.blitter.apt 2, step := .d }

theorem copyLoaded_inc (s : State) : (copyLoaded s).inc = 2 := show (if desc 0 then (-2 : Ptr) else 2) = 2 from rfl

/-- The end of the only word of an ascending A to D blit. -/
theorem wordDone_copy (cfg : Config) {b : Blitter} (h0 : b.latch0 = 0x09F0) (h1 : b.latch1 = 0)
    (hline : b.lineEnds = true) (hblit : b.blitEnds = true) :
    b.wordDone cfg = { b with
      apt := ptrAdd cfg b.apt (modulo b.amod), dpt := ptrAdd cfg b.dpt (modulo b.dmod)
      fillCarry := false, wordX := 0, linesLeft := b.linesLeft - 1, busy := false, step := .a } := by
  have hchannels : useA 0x09F0 = true ∧ useB 0x09F0 = false ∧ useC 0x09F0 = false ∧ useD 0x09F0 = true := by
    decide
  have hmodes : desc 0 = false ∧ fci 0 = false := by decide
  have hfirst : blitFirstStep 0x09F0 = .a := by decide
  simp only [wordDone_eq, hline, hblit, h0, h1, hchannels, hmodes, hfirst, Blitter.modOf, Bool.and_false, Bool.and_true,
    Bool.not_true, if_true, if_false, Bool.false_eq_true]

/-- The first slot of the copy reads the source word. -/
theorem blitterStep_copyArmed (s : State) :
    blitterStep { s with blitter := copyArmed s.blitter } = { s with blitter := copyLoaded s } := by
  have hfirst : blitIsLast (copyArmed s.blitter).latch0 (copyArmed s.blitter).step = false :=
    show blitIsLast 0x09F0 .a = false from rfl
  have hnext : blitNextStep (copyArmed s.blitter).latch0 (copyArmed s.blitter).step = .d :=
    show blitNextStep 0x09F0 .a = .d from rfl
  have hread : Blitter.readStep { s with blitter := copyArmed s.blitter } =
      { copyLoaded s with apt := ptrAdd s.cfg s.blitter.apt (copyLoaded s).inc, step := .a } := rfl
  rw [blitterStep_of_not_last (s := { s with blitter := copyArmed s.blitter }) hfirst, hread, hnext, copyLoaded_inc]
  rfl

/-- The second slot stores it and ends the blit. -/
theorem blitterStep_copyLoaded {s : State} (hf : s.blitter.afwm = 0xFFFF) (hl : s.blitter.alwm = 0xFFFF) :
    blitterStep { s with blitter := copyLoaded s } = { s with
      mem := (s.memWrite s.blitter.dpt (s.memRead s.blitter.apt)).mem
      blitter := { copyLoaded s with
        aOld := (copyLoaded s).adat &&& (copyLoaded s).amask
        bOld := s.blitter.bdat
        zero := s.memRead s.blitter.apt == 0
        apt := ptrAdd s.cfg (ptrAdd s.cfg s.blitter.apt 2) (modulo s.blitter.amod)
        dpt := ptrAdd s.cfg (ptrAdd s.cfg s.blitter.dpt 2) (modulo s.blitter.dmod)
        linesLeft := 0
        step := .a
        busy := false }
      irq := s.irq.setRequest .blit } := by
  have hlast : blitIsLast (copyLoaded s).latch0 (copyLoaded s).step = true := show blitIsLast 0x09F0 .d = true from rfl
  have hread : Blitter.readStep { s with blitter := copyLoaded s } = copyLoaded s := rfl
  have hword : (copyLoaded s).outputWord = (false, s.memRead s.blitter.apt) := outputWord_copy rfl rfl hf hl
  rw [blitterStep_of_last (s := { s with blitter := copyLoaded s }) hlast, hread, storeStep_eq, hword, copyLoaded_inc,
    wordDone_copy s.cfg rfl rfl rfl rfl]
  rfl

theorem setRequest_blit (q : Irq) : (q.setRequest .blit).request.getLsbD 6 = true :=
  (setRequest_getLsbD q .blit 6).trans (Bool.or_true _)

/-! ## The slots of a blit (R284, R289, R291) -/

/-- The steps from `st` to the end of its word's sequence, `st` among them. -/
def stepsLeft (con0 : Word) (st : BlitStep) : Nat := ((blitSequence con0).dropWhile (· != st)).length

theorem stepsLeft_first (con0 : Word) : stepsLeft con0 (blitFirstStep con0) = wordSlots con0 := by
  unfold stepsLeft blitFirstStep blitSequence wordSlots
  cases useA con0 <;> cases useB con0 <;> cases useC con0 <;> cases useD con0 <;> decide

theorem stepsLeft_last {con0 : Word} {st : BlitStep} (h : blitIsLast con0 st = true) : stepsLeft con0 st = 1 := by
  revert h
  unfold stepsLeft blitIsLast blitSequence
  cases useA con0 <;> cases useB con0 <;> cases useC con0 <;> cases useD con0 <;> cases st <;> decide

theorem stepsLeft_next {con0 : Word} {st : BlitStep} (hmem : st ∈ blitSequence con0)
    (h : blitIsLast con0 st = false) : stepsLeft con0 st = stepsLeft con0 (blitNextStep con0 st) + 1 := by
  revert h hmem
  unfold stepsLeft blitIsLast blitNextStep blitFirstStep blitSequence
  cases useA con0 <;> cases useB con0 <;> cases useC con0 <;> cases useD con0 <;> cases st <;> decide

theorem stepsLeft_pos {con0 : Word} {st : BlitStep} (hmem : st ∈ blitSequence con0) : 0 < stepsLeft con0 st := by
  cases h : blitIsLast con0 st
  · rw [stepsLeft_next hmem h]
    exact Nat.succ_pos _
  · rw [stepsLeft_last h]
    exact Nat.one_pos

/-- The words of a blit behind the current one. -/
def Blitter.wordsBehind (b : Blitter) : Nat := (b.linesLeft - 1) * b.width + (b.width - 1 - b.wordX)

theorem wordsBehind_last {b : Blitter} (h : b.blitEnds = true) : b.wordsBehind = 0 := by
  simp only [Blitter.blitEnds, Blitter.lineEnds, Bool.and_eq_true, beq_iff_eq] at h
  obtain ⟨hline, hlines⟩ := h
  rw [Blitter.wordsBehind, hlines, ← hline]
  simp

/-- The end of a word that is not the last takes one word from those behind it: the next of the line, or the first of
the next line. -/
theorem wordsBehind_wordDone (cfg : Config) {b : Blitter} (hword : b.wordX < b.width) (h : b.blitEnds = false) :
    b.wordsBehind = (b.wordDone cfg).wordsBehind + 1 := by
  rw [wordDone_eq]
  simp only [Blitter.wordsBehind]
  cases hline : b.lineEnds with
  | false =>
    have hx : b.wordX + 1 ≠ b.width := by simpa [Blitter.lineEnds] using hline
    simp only [Bool.false_eq_true, if_false]
    omega
  | true =>
    have hx : b.wordX + 1 = b.width := by simpa [Blitter.lineEnds] using hline
    have hl : b.linesLeft - 1 ≠ 0 := by simpa [Blitter.blitEnds, hline] using h
    obtain ⟨n, hn⟩ := Nat.exists_eq_succ_of_ne_zero hl
    simp only [if_true, hn, Nat.succ_sub_one, Nat.succ_mul]
    omega

/-- The granted slots a busy Blitter still takes: those of the words behind the current one, and the rest of its own. -/
def Blitter.slotsLeft (b : Blitter) : Nat := b.wordsBehind * wordSlots b.latch0 + stepsLeft b.latch0 b.step

/-- Behind a word that is not the last of its blit, the slots of the words behind it are left. -/
theorem slotsLeft_wordDone (cfg : Config) {b : Blitter} (hword : b.wordX < b.width) (h : b.blitEnds = false) :
    (b.wordDone cfg).slotsLeft = b.wordsBehind * wordSlots b.latch0 := by
  have hlatch : (b.wordDone cfg).latch0 = b.latch0 := by rw [wordDone_frame]
  have hstep : (b.wordDone cfg).step = blitFirstStep b.latch0 := by rw [wordDone_frame]
  rw [Blitter.slotsLeft, hlatch, hstep, stepsLeft_first, ← Nat.succ_mul, wordsBehind_wordDone cfg hword h]

/-- An armed Blitter takes the slots of all its words. -/
theorem slotsLeft_arm (b : Blitter) (v : Word) :
    (b.arm v).slotsLeft = (b.arm v).width * (b.arm v).height * wordSlots b.con0 := by
  obtain ⟨w, hw⟩ := Nat.exists_eq_add_of_lt (sizeWidth_bounds v).1
  obtain ⟨h, hh⟩ := Nat.exists_eq_add_of_lt (sizeHeight_bounds v).1
  simp only [Blitter.slotsLeft, Blitter.wordsBehind, Blitter.arm, stepsLeft_first, hw, hh, Nat.zero_add,
    Nat.add_sub_cancel, Nat.sub_zero]
  ring

/-- A slot of a busy Blitter is the last of its blit, which it ends, or leaves one slot less. -/
theorem blitterStep_slotsLeft {s : State} (hok : s.blitter.Ok) (hbusy : s.blitter.busy = true) :
    (s.blitter.slotsLeft = 1 ∧ (blitterStep s).blitter.busy = false ∧
        (blitterStep s).irq = s.irq.setRequest .blit) ∨
      ((blitterStep s).blitter.busy = true ∧ s.blitter.slotsLeft = (blitterStep s).blitter.slotsLeft + 1) := by
  obtain ⟨-, -, hword, -, -, hstep⟩ := hok hbusy
  cases hlast : blitIsLast s.blitter.latch0 s.blitter.step with
  | false =>
    right
    rw [blitterStep_of_not_last hlast, readStep_frame]
    refine ⟨hbusy, ?_⟩
    simp only [Blitter.slotsLeft, stepsLeft_next hstep hlast]
    rfl
  | true =>
    have hdone := blitterStep_of_last hlast
    generalize hb : (Blitter.readStep s).storeStep s.cfg = b at hdone
    have hsame : b.blitEnds = s.blitter.blitEnds ∧ b.wordsBehind = s.blitter.wordsBehind ∧
        b.wordX = s.blitter.wordX ∧ b.width = s.blitter.width ∧ b.latch0 = s.blitter.latch0 ∧
        b.busy = s.blitter.busy := by
      rw [← hb, readStep_frame]
      exact ⟨rfl, rfl, rfl, rfl, rfl, rfl⟩
    obtain ⟨hends, hbehind, hx, hw, hlatch, hkeep⟩ := hsame
    have hbusy' : (blitterStep s).blitter.busy = !s.blitter.blitEnds := by
      rw [hdone, wordDone_eq, hkeep, hends, hbusy]
      rfl
    cases hblit : s.blitter.blitEnds with
    | true =>
      left
      refine ⟨?_, by rw [hbusy', hblit]; rfl, by rw [hdone, hblit]; rfl⟩
      rw [Blitter.slotsLeft, wordsBehind_last hblit, stepsLeft_last hlast, Nat.zero_mul]
    | false =>
      right
      refine ⟨by rw [hbusy', hblit]; rfl, ?_⟩
      rw [hdone, slotsLeft_wordDone s.cfg (hx ▸ hw ▸ hword) (hends.trans hblit), hbehind, hlatch, Blitter.slotsLeft,
        stepsLeft_last hlast]

/-- A busy Blitter stays busy until its last slot, which makes it idle and requests BLIT. -/
theorem blitSlots_slotsLeft (n : Nat) {s : State} (hok : s.blitter.Ok) (hbusy : s.blitter.busy = true)
    (hn : s.blitter.slotsLeft = n) :
    (∀ k < n, (blitSlots k s).blitter.busy = true) ∧ (blitSlots n s).blitter.busy = false ∧
      (blitSlots n s).irq.request.getLsbD 6 = true := by
  induction n generalizing s with
  | zero =>
    obtain ⟨-, -, -, -, -, hstep⟩ := hok hbusy
    have := stepsLeft_pos hstep
    rw [Blitter.slotsLeft] at hn
    omega
  | succ n ih =>
    rcases blitterStep_slotsLeft hok hbusy with ⟨hone, hidle, hirq⟩ | ⟨hbusy', hleft⟩
    · obtain rfl : n = 0 := by omega
      refine ⟨fun k hk => ?_, hidle, ?_⟩
      · obtain rfl : k = 0 := by omega
        exact hbusy
      · exact hirq ▸ setRequest_blit s.irq
    · obtain ⟨hbefore, hend⟩ := ih (blitterStep_ok hok) hbusy' (by omega)
      refine ⟨fun k hk => ?_, hend⟩
      cases k with
      | zero => exact hbusy
      | succ k => exact hbefore k (by omega)

end Sys2Proof.Machine

open Sys2Proof Sys2Proof.Machine

/-- Settles O39: a slot whose step is not the last of its word, and one that ends a word, each field by field. -/
theorem blitterStepFrame : Obligations.BlitterStepFrame := by
  intro s
  extract_lets b t onA onB onC onD descending last lineEnd blitEnd adat bdat cdat masked logic fills filled d moved
  have hlast : blitIsLast b.latch0 b.step = last := blitIsLast_eq _ _
  have hframe : t = { s with mem := t.mem, blitter := t.blitter, irq := t.irq } := blitterStep_frame s
  clear_value last
  cases last with
  | false =>
    have ht : t = { s with blitter := { Blitter.readStep s with step := blitNextStep b.latch0 b.step } } :=
      blitterStep_of_not_last hlast
    have hbusy : (b.busy && !blitEnd) = b.busy := Bool.and_true _
    have hzero : (b.zero && (!false || d == 0)) = b.zero := Bool.and_true _
    refine ⟨hframe, ?irq, ?mem, ?bytes, ?blitter, nofun, ?next⟩
    case irq => rw [ht]; rfl
    case mem => rw [ht]; rfl
    case bytes => rw [ht]; exact fun _ _ _ _ => rfl
    case blitter => rw [hbusy, hzero, ht, readStep_eq]; rfl
    case next => rw [ht]; exact fun _ => blitNextStep_eq b.latch0 b.step hlast
  | true =>
    have hword : (Blitter.readStep s).outputWord = (if fills then filled.1 else b.fillCarry, d) := by
      rw [outputWord_eq, logicWord_eq, readStep_eq]
      rfl
    have hmem : t.mem = if b.step == .d then (s.memWrite b.dpt d).mem else s.mem := by
      refine (congrArg State.mem (blitterStep_of_last hlast)).trans ?_
      rw [hword]
      rfl
    have hblitter : t.blitter = ((Blitter.readStep s).storeStep s.cfg).wordDone s.cfg :=
      congrArg State.blitter (blitterStep_of_last hlast)
    refine ⟨hframe, congrArg State.irq (blitterStep_of_last hlast), hmem, ?bytes, ?blitter, ?first, nofun⟩
    case bytes =>
      intro hwf a h1 h2
      rw [State.byteAt, hmem]
      split
      · exact Memory.read_writeWord_other hwf d h1 h2
      · rfl
    case blitter =>
      rw [hblitter, storeStep_eq, hword, readStep_eq, wordDone_eq]
      rfl
    case first =>
      intro _
      rw [hblitter, wordDone_frame, storeStep_eq, readStep_eq]
      exact blitFirstStep_eq b.latch0

/-- Settles O37: the first slot reads the source word, the second stores it and ends the blit. -/
theorem blitterCopiesOneWord : Obligations.BlitterCopiesOneWord := by
  intro s hwf h0 h1 hf hl
  refine ⟨{ s with blitter := copyArmed s.blitter }, ?_, ?_⟩
  · rw [← arm_copy h0 h1]
    exact (writeOffset_bltsize _ s).trans (armBlitter_area (by rw [h1]; rfl) _)
  · rw [blitterStep_copyArmed, blitterStep_copyLoaded hf hl]
    exact ⟨rfl, Memory.readWord_writeWord hwf _ _, fun _ ha hb => Memory.read_writeWord_other hwf _ ha hb, rfl, rfl,
      rfl, rfl, setRequest_blit s.irq⟩

/-- Settles O38: the armed Blitter has the slots of all its words left, and each slot takes one away. -/
theorem blitTakesExactSlots : Obligations.BlitTakesExactSlots := by
  intro v s armed h
  rw [writeOffset_bltsize] at h
  have harmed : armed = { s with blitter := s.blitter.arm v } := by
    cases hline : lineMode s.blitter.con1 with
    | true => cases (armBlitter_line hline v).symm.trans h
    | false => cases (armBlitter_area hline v).symm.trans h; rfl
  subst harmed
  exact blitSlots_slotsLeft _ (arm_ok s.blitter v) rfl (slotsLeft_arm s.blitter v)

end

section
/-! SUPPORT. The bitplanes: the fetch window and the delays as numbers, the shifter pixel by pixel, and the end of a
fetch unit (43_bitplanes.md R331 to R337); a sprite at the start of a line (44_sprites.md R376, R377). -/

namespace Sys2Proof.Machine

/-! ## Fields of the display registers (R50, R51, R55, R57) -/

/-- A field of a register as a number. -/
theorem extractLsb'_toNat_eq_div_mod {w : Nat} (v : BitVec w) (start len : Nat) :
    (v.extractLsb' start len).toNat = v.toNat / 2 ^ start % 2 ^ len := by
  rw [BitVec.extractLsb'_toNat, Nat.shiftRight_eq_div_pow]

theorem toNat_append_eq_add {m n : Nat} (x : BitVec m) (y : BitVec n) :
    (x ++ y).toNat = 2 ^ n * x.toNat + y.toNat := by
  rw [BitVec.toNat_append, Nat.shiftLeft_eq, Nat.mul_comm, ← Nat.two_pow_add_eq_or_of_lt y.isLt]

namespace Planes

theorem ddfStart_eq (p : Planes) : p.ddfStart = max (p.ddfstrt.toNat % 256 / 4 * 4) 0x18 := by
  rw [ddfStart, and_fetch_mask_toNat]

theorem ddfStop_eq (p : Planes) : p.ddfStop = min (p.ddfstop.toNat % 256 / 4 * 4) 0xD8 := by
  rw [ddfStop, and_fetch_mask_toNat]

theorem bpu_eq (p : Planes) : p.bpu = min (p.con0.toNat / 4096 % 8) 6 := by
  rw [bpu, extractLsb'_toNat_eq_div_mod]
  rfl

theorem delayOf_eq (p : Planes) (i : Fin 6) :
    p.delayOf i = if i.val % 2 = 0 then p.con1.toNat % 16 else p.con1.toNat / 16 % 16 := by
  rw [delayOf, oddDelay, evenDelay, extractLsb'_toNat_eq_div_mod, extractLsb'_toNat_eq_div_mod, pow_zero, Nat.div_one]
  rfl

theorem delayOf_lt (p : Planes) (i : Fin 6) : p.delayOf i < 16 := by
  rw [delayOf_eq]
  split <;> exact Nat.mod_lt _ (by decide)

theorem diwVStart_eq (p : Planes) : p.diwVStart = p.diwstrt.toNat / 256 := by
  rw [diwVStart, extractLsb'_toNat_eq_div_mod]
  omega

/-- Bit 8 of the window's last line is the complement of bit 15 of DIWSTOP. -/
theorem diwVStop_eq (p : Planes) :
    p.diwVStop = p.diwstop.toNat / 256 + if p.diwstop.getLsbD 15 then 0 else 256 := by
  have hlow : (p.diwstop.extractLsb' 8 8).toNat = p.diwstop.toNat / 256 := by
    rw [extractLsb'_toNat_eq_div_mod]
    omega
  rw [diwVStop, toNat_append_eq_add, hlow, extractLsb'_one, Nat.add_comm]
  cases p.diwstop.getLsbD 15 <;> rfl

theorem inDiwV_eq (p : Planes) (line : Nat) : p.inDiwV line =
    decide (p.diwstrt.toNat / 256 ≤ line ∧
      line < p.diwstop.toNat / 256 + if p.diwstop.getLsbD 15 then 0 else 256) := by
  rw [inDiwV, diwVStart_eq, diwVStop_eq, Bool.decide_and]

end Planes

/-! ## The fetch (R334) -/

theorem bitplaneFetch_of_nextPlane {s : State} {i : Fin 6} (h : s.planes.nextPlane = some i) :
    bitplaneFetch s = { s with planes := { s.planes with
      next := s.planes.next.set i (s.memRead s.planes.ptr[i])
      ptr := s.planes.ptr.set i (ptrAdd s.cfg s.planes.ptr[i] 2)
      unitFetched := s.planes.unitFetched.set i true } } := by
  rw [bitplaneFetch, h]

/-- The next plane is displayed and unfetched, and no plane before it in the order is. -/
theorem nextPlane_eq_some_iff (p : Planes) (i : Fin 6) : p.nextPlane = some i ↔
    (i.val < p.linePlanes ∧ p.unitFetched[i] = false) ∧
      ∃ before after, p.order = before ++ i :: after ∧
        ∀ j ∈ before, ¬ (j.val < p.linePlanes ∧ p.unitFetched[j] = false) := by
  simp only [Planes.nextPlane, List.find?_eq_some_iff_append, Bool.not_eq_true', ← Bool.not_eq_true, Bool.and_eq_true,
    decide_eq_true_eq]

/-- Plane 1 ends the order, so every other plane of the order stands before it. -/
theorem mem_before_plane1 {p : Planes} {before after : List (Fin 6)} (horder : p.order = before ++ 0 :: after)
    {j : Fin 6} (hj : j ∈ p.order) (hne : j ≠ 0) : j ∈ before := by
  obtain ⟨init, hinit, hlast⟩ : ∃ init : List (Fin 6), p.order = init ++ [0] ∧ 0 ∉ init := by
    rw [Planes.order]
    split
    · exact ⟨[3, 1, 2], rfl, by decide⟩
    · exact ⟨[3, 5, 1, 2, 4], rfl, by decide⟩
  obtain ⟨rfl, -, rfl⟩ := (List.append_cons_inj_of_notMem hlast List.not_mem_nil).1 (hinit.symm.trans horder)
  rw [horder, List.mem_append, List.mem_singleton] at hj
  exact hj.resolve_right hne

/-! ## The shifter (R336) -/

theorem one_shiftLeft_getLsbD_fin {w : Nat} (i j : Fin w) : (1#w <<< i.val).getLsbD j = decide (j = i) := by
  rw [← BitVec.twoPow_eq, BitVec.getLsbD_twoPow, decide_eq_true i.isLt, Bool.true_and, decide_eq_decide, Fin.ext_iff,
    eq_comm]

/-- Bit `j` of a vector into which bit `i` may be set. -/
theorem getLsbD_setBit_fin {w : Nat} (b : Bool) (d : BitVec w) (i j : Fin w) :
    (if b then d ||| (1#w <<< i.val) else d).getLsbD j = (d.getLsbD j || (decide (j = i) && b)) := by
  cases b
  · rw [if_neg (by decide), Bool.and_false, Bool.or_false]
  · rw [if_pos rfl, BitVec.getLsbD_or, one_shiftLeft_getLsbD_fin, Bool.and_true]

/-- The bits of a vector set one by one from a list of positions. -/
theorem getLsbD_foldl_setBit_fin {w : Nat} (f : Fin w → Bool) (l : List (Fin w)) (d : BitVec w) (j : Fin w) :
    (l.foldl (fun d i => if f i then d ||| (1#w <<< i.val) else d) d).getLsbD j =
      (d.getLsbD j || (decide (j ∈ l) && f j)) := by
  induction l generalizing d with
  | nil => exact (Bool.or_false _).symm
  | cons i l ih =>
    rw [List.foldl_cons, ih, getLsbD_setBit_fin, Bool.or_assoc]
    refine congrArg (d.getLsbD j || ·) ?_
    by_cases h : j = i
    · subst h
      cases f j <;> simp
    · simp [h]

/-- A pixel index has the bits of the displayed planes. -/
theorem pixelIndex_getLsbD (p : Planes) (j : Nat) (i : Fin 6) :
    (p.pixelIndex j).getLsbD i = (decide (i.val < p.linePlanes) && p.shifter[i].getLsbD (15 - j)) := by
  rw [Planes.pixelIndex,
    getLsbD_foldl_setBit_fin (fun i => decide (i.val < p.linePlanes) && p.shifter[i].getLsbD (15 - j)),
    decide_eq_true (List.mem_finRange i), Bool.true_and]
  exact congrArg (· || _) BitVec.getLsbD_zero

theorem post_shifter (p : Planes) (i : Fin 6) :
    p.post.shifter[i] = Planes.shifterWord p.posted[i] p.next[i] (p.delayOf i) := vmapIdx_getElem _ _ _ _

/-- The shifter is set as the Blitter shifts upwards: the previous word, then the new one, under the delay. -/
theorem shifterWord_eq_blitShift (prev nxt : Word) (delay : Nat) :
    Planes.shifterWord prev nxt delay = blitShift false delay prev nxt := rfl

/-- Pixel `j` after a set. -/
theorem shifterWord_pixel (prev nxt : Word) {d j : Nat} (hd : d < 16) (hj : j < 16) :
    (Planes.shifterWord prev nxt d).getLsbD (15 - j) =
      if j < d then prev.getLsbD (d - 1 - j) else nxt.getLsbD (15 - (j - d)) := by
  rw [shifterWord_eq_blitShift, blitShift_ascending_getLsbD prev nxt (by omega)]
  by_cases h : j < d
  · rw [if_pos h, if_neg (by omega), show 15 - j + d - 16 = d - 1 - j by omega]
  · rw [if_neg h, if_pos (by omega), show 15 - j + d = 15 - (j - d) by omega]

/-- Pixel `j` after a shift by `k` pixels. -/
theorem shiftLeft_pixel (w : Word) (k : Nat) {j : Nat} (hj : j < 16) :
    (w <<< k).getLsbD (15 - j) = (decide (j + k < 16) && w.getLsbD (15 - (j + k))) := by
  rw [BitVec.getLsbD_shiftLeft, decide_eq_true (show 15 - j < 16 by omega), Bool.true_and]
  by_cases h : j + k < 16
  · rw [decide_eq_true h, decide_eq_false (show ¬ 15 - j < k by omega), show 15 - j - k = 15 - (j + k) by omega]
    rfl
  · rw [decide_eq_false h, decide_eq_true (show 15 - j < k by omega)]
    rfl

theorem shift_shifter (p : Planes) (i : Fin 6) : p.shift.shifter[i] = p.shifter[i] <<< p.pixelsPerSlot :=
  vmap_getElem _ _ _ _

/-! ## The end of a fetch unit (R335) -/

/-- The slot is the last of a fetch unit inside the fetch window of an enabled fetch line. -/
def unitEnds (s : State) : Bool :=
  s.enabled .bitplane && s.planes.fetchingLine && s.planes.inFetchWindow s.cfg s.raster.cycle &&
    s.planes.unitPos s.raster.cycle + 1 == s.planes.unitSlots

/-- The planes after a fetch unit: the fetched set posted, and after the last unit the modulos added. -/
def Planes.unitDone (cfg : Config) (p : Planes) (cyc : Nat) : Planes :=
  if p.lastUnit cyc then p.post.addModulos cfg else p.post

theorem bitplaneUnitTick_eq (s : State) : bitplaneUnitTick s =
    if unitEnds s then { s with planes := s.planes.unitDone s.cfg s.raster.cycle } else s := rfl

theorem unitSlots_pos (p : Planes) : 0 < p.unitSlots := by
  rw [Planes.unitSlots]
  split <;> decide

theorem unitEnds_iff (s : State) : unitEnds s = true ↔
    s.dmacon.getLsbD 9 = true ∧ s.dmacon.getLsbD 8 = true ∧ s.planes.fetchingLine = true ∧
      s.planes.ddfStart ≤ s.raster.cycle ∧
      s.raster.cycle < min (s.planes.ddfStart + s.planes.nUnits * s.planes.unitSlots) s.cfg.lineLength ∧
      (s.raster.cycle - s.planes.ddfStart) % s.planes.unitSlots = s.planes.unitSlots - 1 := by
  have hlast : s.planes.unitPos s.raster.cycle + 1 = s.planes.unitSlots ↔
      (s.raster.cycle - s.planes.ddfStart) % s.planes.unitSlots = s.planes.unitSlots - 1 := by
    have := unitSlots_pos s.planes
    rw [Planes.unitPos]
    omega
  simp only [unitEnds, Planes.inFetchWindow, Bool.and_eq_true, decide_eq_true_eq, beq_iff_eq, hlast, enabled_iff,
    Channel.bit, and_assoc]

/-- A fetch unit's end changes the posted sets, the shifter, the unit's marks and the pointers alone. -/
theorem unitDone_frame (cfg : Config) (p : Planes) (cyc : Nat) : p.unitDone cfg cyc =
    { p with
      previous := p.posted, posted := p.next, hasNext := true, unitFetched := .replicate 6 false
      shifter := (p.unitDone cfg cyc).shifter, ptr := (p.unitDone cfg cyc).ptr } := by
  unfold Planes.unitDone
  split <;> rfl

theorem unitDone_shifter (cfg : Config) (p : Planes) (cyc : Nat) (i : Fin 6) :
    (p.unitDone cfg cyc).shifter[i] = Planes.shifterWord p.posted[i] p.next[i] (p.delayOf i) := by
  unfold Planes.unitDone
  split <;> exact post_shifter p i

/-- After the last unit the pointers of the displayed planes move by their modulo. -/
theorem unitDone_ptr (cfg : Config) (p : Planes) (cyc : Nat) (i : Fin 6) :
    (p.unitDone cfg cyc).ptr[i] =
      if (cyc - p.ddfStart) / p.unitSlots + 1 = p.nUnits ∧ i.val < p.linePlanes then
        ptrAdd cfg p.ptr[i] (modulo (p.modOf i)) else p.ptr[i] := by
  rw [Planes.unitDone, Planes.lastUnit]
  by_cases h : (cyc - p.ddfStart) / p.unitSlots + 1 = p.nUnits
  · rw [if_pos (beq_iff_eq.2 h)]
    simp only [h, true_and]
    exact vmapIdx_getElem _ _ _ _
  · rw [if_neg (mt beq_iff_eq.1 h), if_neg fun hn => h hn.1]
    rfl

/-! ## The start of a line (R337, R376, R377) -/

theorem lineSetup_eq (p : Planes) (line : Nat) : p.lineSetup line = { p with
    lineHires := p.con0.getLsbD 15
    linePlanes :=
      if p.con0.getLsbD 15 then min (min (p.con0.toNat / 4096 % 8) 6) 4 else min (p.con0.toNat / 4096 % 8) 6
    fetchingLine := decide (p.diwstrt.toNat / 256 ≤ line ∧
      line < p.diwstop.toNat / 256 + (if p.diwstop.getLsbD 15 then 0 else 256))
    unitFetched := .replicate 6 false
    previous := .replicate 6 0
    posted := .replicate 6 0
    hasNext := false
    shifter := .replicate 6 0 } := by
  rw [Planes.lineSetup, Planes.inDiwV_eq, Planes.bpu_eq]
  rfl

theorem inWindow_iff (p : Sprite) (line : Nat) :
    p.inWindow line = true ↔ p.vStart.toNat ≤ line ∧ line < p.vStop.toNat := by
  rw [Sprite.inWindow, Bool.and_eq_true, decide_eq_true_eq, decide_eq_true_eq]

/-- A sprite at the start of a line other than SPRITE_DMA_START_LINE. -/
theorem spriteLineSetup_eq (p : Sprite) (line : Nat) : p.lineSetup line = { p with
    fetched := 0
    fetch :=
      if p.fetch = .waitingForStart then
        (if p.vStart.toNat ≤ line ∧ line < p.vStop.toNat then .fetchData1 else .waitingForStart)
      else if p.fetch = .fetchData1 then
        (if p.vStart.toNat ≤ line ∧ line < p.vStop.toNat then .fetchData1 else .fetchStart)
      else p.fetch } := by
  simp only [← inWindow_iff]
  unfold Sprite.lineSetup
  cases p.fetch <;> rfl

end Sys2Proof.Machine

open Sys2Proof Sys2Proof.Machine

/-- Settles O40: the next plane is the first of the order that is displayed and unfetched. -/
theorem bitplaneFetchResult : Obligations.BitplaneFetchResult := by
  intro s i hi
  obtain ⟨⟨hshown, hunfetched⟩, before, after, horder, hbefore⟩ := (nextPlane_eq_some_iff s.planes i).1 hi
  refine ⟨bitplaneFetch_of_nextPlane hi, hshown, hunfetched, ⟨before, after, horder, hbefore⟩, rfl, ?_⟩
  rintro rfl j hne hj hjshown
  exact Bool.eq_true_of_not_eq_false fun hjfetched =>
    hbefore j (mem_before_plane1 horder hj hne) ⟨hjshown, hjfetched⟩

/-- Settles O41: the tick's condition read as numbers, then the planes after a unit part by part. (The obligation's own
name in lower case is the model's function.) -/
theorem bitplaneUnitTickResult : Obligations.BitplaneUnitTick := by
  intro s start stop u units cyc ends
  have hstart : s.planes.ddfStart = start := s.planes.ddfStart_eq
  have hunits : s.planes.nUnits = units := by rw [Planes.nUnits, hstart, Planes.ddfStop_eq]; rfl
  have hends : unitEnds s = true ↔ ends := by rw [unitEnds_iff, hstart, hunits]; rfl
  rw [bitplaneUnitTick_eq]
  refine ⟨fun h => if_neg (mt hends.1 h), fun h => ?_⟩
  rw [if_pos (hends.2 h)]
  refine ⟨congrArg (fun p => { s with planes := p }) (unitDone_frame _ _ _), fun i => ?_, fun i => ?_⟩
  · rw [unitDone_shifter, Planes.delayOf_eq]
    rfl
  · rw [unitDone_ptr, hstart, hunits]
    rfl

/-- Settles O42: the set, the read and the shift of a plane, pixel by pixel. -/
theorem bitplaneShifter : Obligations.BitplaneShifter := by
  intro p i j hj
  refine ⟨?_, pixelIndex_getLsbD p j i, ?_, rfl, rfl, rfl, rfl, Vector.getElem_replicate _⟩
  · rw [post_shifter, shifterWord_pixel _ _ (p.delayOf_lt i) hj, Planes.delayOf_eq]
  · rw [shift_shifter, shiftLeft_pixel _ _ hj]
    rfl

/-- Settles O43: the planes' line setup, and the sprites' with the frame restart before it. -/
theorem lineStartEvents : Obligations.LineStartEvents := by
  refine ⟨fun s h0 => ⟨?_, fun n => ?_⟩, fun s h0 => ⟨?_, ?_⟩⟩
  · rw [slotStart_planes, if_pos h0, lineSetup_eq]
  · rw [slotStart_sprites, if_pos h0, Fin.getElem_fin, vmap_getElem]
    by_cases h : s.raster.line = s.cfg.spriteDmaStartLine
    · rw [if_pos h, if_pos h]
      rfl
    · rw [if_neg h, if_neg h, spriteLineSetup_eq]
      rfl
  · rw [slotStart_planes, if_neg h0]
  · rw [slotStart_sprites, if_neg h0]

end

section
/-! SUPPORT. What a sprite's fetched word does (44_sprites.md): the state it finds selects the register write it is
taken for and the state it leaves. -/

namespace Sys2Proof.Machine

/-! ## The fetched word (R375) -/

namespace Sprite

variable {p : Sprite} (w : Word)

theorem takeWord_of_fetchStart (h : p.fetch = .fetchStart) :
    p.takeWord w = { p.writePos w with fetch := .fetchStopAndControl } := by
  simp only [takeWord, h]

theorem takeWord_of_fetchStopAndControl (h : p.fetch = .fetchStopAndControl) :
    p.takeWord w = { p.writeCtl w with fetch := if w = 0 then .stopped else .waitingForStart } := by
  simp only [takeWord, h]

theorem takeWord_of_fetchData1 (h : p.fetch = .fetchData1) :
    p.takeWord w = { p.writeDataA w with fetch := .fetchData0 } := by
  simp only [takeWord, h]

theorem takeWord_of_fetchData0 (h : p.fetch = .fetchData0) :
    p.takeWord w = { p.writeDataB w with fetch := .fetchData1 } := by
  simp only [takeWord, h]

end Sprite

/-- A sprite's slot stores the sprite that took the word, its pointer moved on and the fetch counted, and nothing
else. -/
theorem spriteFetch_of_takeWord {n : Fin 8} {s : State} {q : Sprite}
    (h : s.sprites[n].takeWord (s.memRead s.sprites[n].ptr) = q) :
    spriteFetch n s = { s with sprites := s.sprites.set n { q with
      ptr := ptrAdd s.cfg s.sprites[n].ptr 2
      fetched := s.sprites[n].fetched + 1 } } := by
  rw [← h]
  rfl

end Sys2Proof.Machine

open Sys2Proof Sys2Proof.Machine

/-- Settles O44: in each of the four fetching states the slot stores what the word did to the sprite. -/
theorem spriteFetchResult : Obligations.SpriteFetchResult := by
  intro n s p w q
  exact ⟨fun h => spriteFetch_of_takeWord (Sprite.takeWord_of_fetchStart w h),
    fun h => spriteFetch_of_takeWord (Sprite.takeWord_of_fetchStopAndControl w h),
    fun h => spriteFetch_of_takeWord (Sprite.takeWord_of_fetchData1 w h),
    fun h => spriteFetch_of_takeWord (Sprite.takeWord_of_fetchData0 w h)⟩

end

section
/-! SUPPORT. The disk and audio channels (45_disk_audio.md): the cases of a DSKLEN write, of a slot of each channel, of
the collaborators' calls, and the interrupt controller after a DMACON write. -/

namespace Sys2Proof.Machine

/-! ## A DSKLEN write (R411) -/

namespace Disk

variable {d : Disk} {v : Word}

theorem writeLen_of_dmaen_clear (h : v.getLsbD 15 = false) :
    d.writeLen v = { d with dsklen := v, active := false, armed := false } := if_pos h

/-- The write before had armed the channel, and there are words to move. -/
theorem writeLen_of_armed (h : v.getLsbD 15 = true) (ha : d.armed = true) (hl : v.extractLsb' 0 14 ≠ 0) :
    d.writeLen v = { d with
      dsklen := v
      active := true
      dir := if v.getLsbD 14 then .write else .read
      left := v.extractLsb' 0 14
      bufFull := false
      syncSeen := false
      armed := true } :=
  (if_neg (by simp [h])).trans (if_pos (by rw [ha, Bool.true_and, bne_iff_ne]; exact hl))

theorem writeLen_of_not_starting (h : v.getLsbD 15 = true) (hs : d.armed = false ∨ v.extractLsb' 0 14 = 0) :
    d.writeLen v = { d with dsklen := v, armed := true } :=
  (if_neg (by simp [h])).trans (if_neg (by rcases hs with hs | hs <;> simp [hs]))

end Disk

/-! ## A disk slot (R415) -/

theorem diskTransfer_disk (s : State) : (diskTransfer s).disk = { s.disk with
    buf := if s.disk.dir = .read then s.disk.buf else s.memRead s.disk.ptr
    bufFull := if s.disk.dir = .read then false else true } := by
  unfold diskTransfer
  cases s.disk.dir <;> rfl

/-- DSKBLK at the last word, and no other request at any word. -/
theorem diskStep_irq (s : State) :
    (diskStep s).irq = if s.disk.left = 1 then s.irq.setRequest .dskblk else s.irq := by
  have hleft : (diskTransfer s).disk.left = s.disk.left := by rw [diskTransfer_disk]
  have hirq : (diskTransfer s).irq = s.irq := by rw [diskTransfer_frame]
  unfold diskStep
  simp only [hleft, sub_eq_zero]
  split
  · exact congrArg (Irq.setRequest · .dskblk) hirq
  · exact hirq

/-! ## An audio slot (R422) -/

/-- Two changes of one channel are one, a message handed out between them or not. -/
theorem modAudio_send_modAudio (n : Fin 4) (f g : Audio → Audio) (m : OutMessage) (s : State) :
    ((s.modAudio n f).send m).modAudio n g = (s.modAudio n (g ∘ f)).send m := by
  have hset : (s.audio.set n (f s.audio[n])).set n (g (s.audio.set n (f s.audio[n]))[n]) =
      s.audio.set n (g (f s.audio[n])) := by
    rw [set_getElem, if_pos rfl, Vector.set_set]
  exact congrArg (fun a => ({ s with audio := a, outbox := m :: s.outbox } : State)) hset

section

variable {n : Fin 4} {s : State}

theorem audioStep_of_more (h : s.audio[n].left ≠ 1) : audioStep n s =
    (s.modAudio n (fun a => a.takeWord s.cfg (s.memRead s.audio[n].ptr))).send
      (.audioWord n (s.memRead s.audio[n].ptr)) :=
  if_neg (by rwa [sub_eq_zero])

theorem audioStep_of_last (h : s.audio[n].left = 1) : audioStep n s =
    ((s.modAudio n (fun a => (a.takeWord s.cfg (s.memRead s.audio[n].ptr)).reload)).send
      (.audioWord n (s.memRead s.audio[n].ptr))).raise (.aud n) :=
  (if_pos (by rw [h]; rfl)).trans (congrArg (State.raise · (.aud n)) (modAudio_send_modAudio n _ _ _ s))

end

theorem audioStep_outbox (n : Fin 4) (s : State) :
    (audioStep n s).outbox = .audioWord n (s.memRead s.audio[n].ptr) :: s.outbox := by
  by_cases h : s.audio[n].left = 1
  · rw [audioStep_of_last h]
    rfl
  · rw [audioStep_of_more h]
    rfl

/-! ## The collaborators' calls (R412) -/

/-- When a word the controller offers enters the buffer. -/
theorem diskWordIn_eq (w : Word) (s : State) : diskWordIn w s =
    if s.disk.active = true ∧ s.disk.dir = .read ∧
        (¬ (s.cfg.wordsyncSupported = true ∧ s.adkcon.getLsbD 10 = true) ∨ s.disk.syncSeen = true)
    then { s with disk := { s.disk with buf := w, bufFull := true } } else s :=
  if_congr (by simp only [State.wordsyncOn, Bool.and_eq_true, Bool.or_eq_true, Bool.not_eq_true', beq_iff_eq,
    Bool.eq_false_iff, and_assoc, ne_eq]) rfl rfl

theorem diskWordOut_eq (s : State) : diskWordOut s =
    if s.disk.dir = .write ∧ s.disk.bufFull = true
    then { s with
      disk := { s.disk with bufFull := false }, responses := .diskWord true s.disk.buf :: s.responses }
    else { s with responses := .diskWord false 0 :: s.responses } :=
  if_congr (by rw [Bool.and_eq_true, beq_iff_eq]) rfl rfl

/-! ## The interrupt controller after a DMACON write (R423) -/

theorem audioEnableChange_irq (before : Word) (s : State) (n : Fin 4) :
    (audioEnableChange before s n).irq =
      if enabledIn before (.audio n) = false ∧ s.enabled (.audio n) = true then s.irq.setRequest (.aud n)
      else s.irq := by
  unfold audioEnableChange
  dsimp only
  cases enabledIn before (.audio n) <;> cases s.enabled (.audio n) <;> rfl

theorem audioEnableChange_enabled (before : Word) (s : State) (n : Fin 4) (c : Channel) :
    (audioEnableChange before s n).enabled c = s.enabled c :=
  congrArg (enabledIn · c) (audioEnableChange_dmacon before s n)

/-- The channels' changes reach the requests and the level of the interrupt controller alone. -/
theorem foldl_audioEnableChange_irq_frame (before : Word) (l : List (Fin 4)) (s : State) :
    (l.foldl (audioEnableChange before) s).irq = { s.irq with
      request := (l.foldl (audioEnableChange before) s).irq.request
      level := (l.foldl (audioEnableChange before) s).irq.level } := by
  induction l generalizing s with
  | nil => rfl
  | cons n l ih =>
    rw [List.foldl_cons, ih, audioEnableChange_irq]
    split <;> rfl

/-- Where no channel starts, the interrupt controller stays as it is. -/
theorem foldl_audioEnableChange_irq_of_no_start {before : Word} {l : List (Fin 4)} {s : State}
    (h : ∀ n ∈ l, ¬ (enabledIn before (.audio n) = false ∧ s.enabled (.audio n) = true)) :
    (l.foldl (audioEnableChange before) s).irq = s.irq := by
  induction l generalizing s with
  | nil => rfl
  | cons n l ih =>
    obtain ⟨hn, hl⟩ := List.forall_mem_cons.1 h
    rw [List.foldl_cons, ih (by simpa only [audioEnableChange_enabled] using hl), audioEnableChange_irq, if_neg hn]

/-- Where a channel starts, the level is recomputed, whatever it was. -/
theorem foldl_audioEnableChange_inSync_of_start {before : Word} {l : List (Fin 4)} {s : State}
    (h : ∃ n ∈ l, enabledIn before (.audio n) = false ∧ s.enabled (.audio n) = true) :
    (l.foldl (audioEnableChange before) s).irq.InSync := by
  induction l generalizing s with
  | nil => simp at h
  | cons n l ih =>
    rw [List.foldl_cons]
    rcases (List.exists_mem_cons_iff _ _ _).1 h with hn | hl
    · refine foldl_audioEnableChange_inSync before l ?_
      rw [audioEnableChange_irq, if_pos hn]
      exact setRequest_inSync _ _
    · exact ih (by simpa only [audioEnableChange_enabled] using hl)

theorem writeDmacon_enabled (v : Word) (s : State) (c : Channel) :
    (writeDmacon v s).enabled c = enabledIn (setClr 0x07FF s.dmacon v) c := by
  rw [State.enabled, writeDmacon_frame]

/-- The requests and the level are all of the interrupt controller a DMACON write changes; the level is recomputed
where a channel starts and stays where none does. -/
theorem writeDmacon_irq (v : Word) (s : State) : (writeDmacon v s).irq = { s.irq with
    request := (writeDmacon v s).irq.request
    level :=
      if ∃ n : Fin 4, s.enabled (.audio n) = false ∧ (writeDmacon v s).enabled (.audio n) = true then
        computeLevel s.irq.enable (writeDmacon v s).irq.request
      else s.irq.level } := by
  have hmem : ∀ n : Fin 4, n ∈ [(0 : Fin 4), 1, 2, 3] := by decide
  have hframe : (writeDmacon v s).irq = { s.irq with
      request := (writeDmacon v s).irq.request, level := (writeDmacon v s).irq.level } :=
    foldl_audioEnableChange_irq_frame _ _ _
  refine hframe.trans (congrArg (fun l => { s.irq with request := (writeDmacon v s).irq.request, level := l }) ?_)
  simp only [writeDmacon_enabled]
  split
  case isTrue h =>
    obtain ⟨n, hn⟩ := h
    have hsync : (writeDmacon v s).irq.InSync := foldl_audioEnableChange_inSync_of_start ⟨n, hmem n, hn⟩
    rw [hsync, writeDmacon_enable]
  case isFalse h =>
    have hsame : (writeDmacon v s).irq = s.irq :=
      foldl_audioEnableChange_irq_of_no_start fun n _ hn => h ⟨n, hn⟩
    rw [hsame]

end Sys2Proof.Machine

open Sys2Proof Sys2Proof.Machine

/-- Settles O12: the write is the storage of DMACON for both agents; each channel is taken by the change of its own
enable, and the level by whether any channel starts. -/
theorem dmaconStartsAudio : Obligations.DmaconStartsAudio := by
  intro ign v s
  refine ⟨writeDmacon v s, exec_move_store .dmacon rfl (by decide) ign v s,
    writeOffset_cpu_store .dmacon rfl nofun v s, storeReg_group_frame .dmacon v s, fun n => ?channel,
    fun _ hi => writeDmacon_request_other v s hi, writeDmacon_irq v s⟩
  simp only [writeDmacon_enabled, writeDmacon_audio, writeDmacon_request]
  refine ⟨fun hwas his => ?rises, fun hwas his => ?falls, fun hsame => ?stays⟩
  case rises => exact ⟨if_pos ⟨hwas, his⟩, by rw [hwas, his]; exact Bool.or_true _⟩
  case falls =>
    exact ⟨(if_neg fun h => by simp [hwas] at h).trans (if_pos ⟨hwas, his⟩), by rw [hwas]; exact Bool.or_false _⟩
  case stays =>
    rw [hsame, Bool.not_and_self, Bool.or_false]
    exact ⟨(if_neg fun h => by simp at h).trans (if_neg fun h => by simp at h), rfl⟩

/-- Settles O19: the three cases of a DSKLEN write. -/
theorem dsklenTwoWrites : Obligations.DsklenTwoWrites := by
  intro v s
  have store {d : Disk} (h : s.disk.writeLen v = d) : writeOffset .cpu 0x024 v s = .next { s with disk := d } :=
    h ▸ writeOffset_cpu_store .dsklen rfl nofun v s
  exact ⟨fun h => store (Disk.writeLen_of_dmaen_clear h),
    fun h ha hl => store (Disk.writeLen_of_armed h ha hl), fun h hs => store (Disk.writeLen_of_not_starting h hs)⟩

/-- Settles O46: the transfer of the word, then the channel, the request and the frame of the slot. -/
theorem diskStepResult : Obligations.DiskStepResult := by
  intro s
  refine ⟨?disk, (diskStep_mem s).trans (diskTransfer_mem s), diskStep_irq s, diskStep_frame s⟩
  have hlast : (s.disk.left - 1 != 0) = (s.disk.left != 1) := by
    rw [Bool.eq_iff_iff, bne_iff_ne, bne_iff_ne, Ne, sub_eq_zero]
  rw [diskStep_disk, diskTransfer_disk, hlast]

/-- Settles O47: the word is delivered in both cases; the block's last word reloads the channel and raises its
interrupt. -/
theorem audioStepResult : Obligations.AudioStepResult := fun n s =>
  ⟨audioStep_outbox n s, audioStep_of_more, audioStep_of_last⟩

/-- Settles O48: the disk's two calls by their conditions; the others change one channel's request or the inputs they
name. -/
theorem collaboratorInputs : Obligations.CollaboratorInputs := by
  refine ⟨fun w s => ⟨diskWordIn_eq w s, diskWordOut_eq s⟩, fun n m s => ⟨rfl, ?request⟩,
    fun _ _ _ => ⟨rfl, rfl, rfl⟩⟩
  show (s.audio.set n { s.audio[n] with request := true })[m] = _
  rw [set_getElem]
  by_cases h : m = n
  · rw [if_pos h, if_pos h.symm, h]
  · rw [if_neg h, if_neg (Ne.symm h)]

end

section
/-! SUPPORT. The pixels (46_output.md R451 to R459): the class of a slot, the sprite pixel, the playfields by priority,
and the hold-and-modify and extra-half-brite colours. -/

namespace Sys2Proof.Machine

/-! ## The display window and the blank (R56, R451) -/

theorem inDiwH_eq (p : Planes) (x : Nat) : p.inDiwH x =
    decide (p.diwstrt.toNat % 256 ≤ x ∧ x < 256 + p.diwstop.toNat % 256) := by
  rw [Planes.inDiwH, Planes.diwHStart, Planes.diwHStop, toNat_append_eq_add, extractLsb'_toNat_eq_div_mod,
    extractLsb'_toNat_eq_div_mod, Bool.decide_and, pow_zero, Nat.div_one, Nat.div_one]
  rfl

theorem hblank_iff (c : Config) (cyc : Nat) : c.hblank cyc = true ↔
    if c.hblankStart ≤ c.hblankEnd then c.hblankStart ≤ cyc ∧ cyc < c.hblankEnd
    else c.hblankStart ≤ cyc ∨ cyc < c.hblankEnd := by
  unfold Config.hblank
  split
  · rw [Bool.and_eq_true, decide_eq_true_eq, decide_eq_true_eq]
  · rw [Bool.or_eq_true, decide_eq_true_eq, decide_eq_true_eq]

/-! ## The sprite pixel (R384, R455) -/

/-- The bits of a pair's nibble, from bit 0: `L` and `M` of the even sprite, then those of the odd one. -/
theorem pairNibble_getLsbD (sprites : Vector Sprite 8) (k : Fin 4) (j : Nat) {i : Nat} (hi : i < 4) :
    (pairNibble sprites k j).getLsbD i =
      (([sprites[2 * k.val].shiftL, sprites[2 * k.val].shiftM, sprites[2 * k.val + 1].shiftL,
        sprites[2 * k.val + 1].shiftM] : List (BitVec 32)).getD i 0).getLsbD (31 - j) := by
  have hbits : ∀ m l m' l' : Bool, ((BitVec.ofBool m' ++ BitVec.ofBool l' : BitVec 2) ++
      (BitVec.ofBool m ++ BitVec.ofBool l : BitVec 2)).getLsbD i = [l, m, l', m'].getD i false := by
    revert i
    decide
  rw [pairNibble, Sprite.pixelBits, Sprite.pixelBits, hbits]
  interval_cases i <;> rfl

/-- The pixel of a pair, over its 128 attachments and nibbles. -/
theorem pairPixel_spec : ∀ (pair : Fin 4) (attached : Bool) (nib : BitVec 4),
    (pairPixel pair attached nib = none ↔ nib = 0) ∧
    ∀ p ∈ pairPixel pair attached nib, p.pair = pair.val ∧
      p.index.toNat =
        if attached then 16 + nib.toNat
        else if nib.toNat % 4 ≠ 0 then 16 + 4 * pair.val + nib.toNat % 4
        else 16 + 4 * pair.val + nib.toNat / 4 := by decide

theorem spritePixel_eq_findSome? (sprites : Vector Sprite 8) (j : Nat) : spritePixel sprites j =
    Fin.findSome? (fun k : Fin 4 => pairPixel k sprites[2 * k.val + 1].attached (pairNibble sprites k j)) :=
  (Fin.findSome?_eq_findSome?_finRange _).symm

/-! ## The playfields (R456, R457) -/

theorem extractLsb'_one_toNat {w : Nat} (b : BitVec w) (i : Nat) :
    (b.extractLsb' i 1).toNat = (b.getLsbD i).toNat := by
  rw [extractLsb'_toNat_eq_div_mod, BitVec.getLsbD, Nat.toNat_testBit, pow_one]

theorem append_ones_toNat (x y z : BitVec 1) : (x ++ y ++ z).toNat = 4 * x.toNat + 2 * y.toNat + z.toNat := by
  rw [toNat_append_eq_add, toNat_append_eq_add]
  omega

theorem pf1_toNat (b : BitVec 6) :
    (pf1 b).toNat = 4 * (b.getLsbD 4).toNat + 2 * (b.getLsbD 2).toNat + (b.getLsbD 0).toNat := by
  rw [pf1, append_ones_toNat, extractLsb'_one_toNat, extractLsb'_one_toNat, extractLsb'_one_toNat]

theorem pf2_toNat (b : BitVec 6) :
    (pf2 b).toNat = 4 * (b.getLsbD 5).toNat + 2 * (b.getLsbD 3).toNat + (b.getLsbD 1).toNat := by
  rw [pf2, append_ones_toNat, extractLsb'_one_toNat, extractLsb'_one_toNat, extractLsb'_one_toNat]

theorem code1_eq (p : Planes) : p.code1 = min (p.con2.toNat % 8) 4 := by
  rw [Planes.code1, extractLsb'_toNat_eq_div_mod, pow_zero, Nat.div_one]
  rfl

theorem code2_eq (p : Planes) : p.code2 = min (p.con2.toNat / 8 % 8) 4 := by
  rw [Planes.code2, extractLsb'_toNat_eq_div_mod]
  rfl

/-- A playfield's transparency, read from its index as a number. -/
theorem beq_zero_eq_decide {w : Nat} {v : BitVec w} {n : Nat} (h : v.toNat = n) : (v == 0) = decide (n = 0) := by
  rw [Bool.eq_iff_iff, beq_iff_eq, decide_eq_true_eq, ← h]
  exact (BitVec.toNat_inj (y := 0)).symm

/-! ## Hold-and-modify and extra half-brite (R458, R459) -/

theorem hamActive_iff (p : Planes) : hamActive p = true ↔
    p.con0.getLsbD 11 = true ∧ p.con0.getLsbD 10 = false ∧ p.linePlanes = 6 := by
  simp only [hamActive, Planes.homod, Planes.dblpf, Bool.and_eq_true, Bool.not_eq_true', beq_iff_eq, and_assoc]

theorem ehbActive_iff (cfg : Config) (p : Planes) : ehbActive cfg p = true ↔
    cfg.ehbSupported = true ∧ p.con0.getLsbD 11 = false ∧ p.con0.getLsbD 10 = false ∧ p.linePlanes = 6 := by
  simp only [ehbActive, Planes.homod, Planes.dblpf, Bool.and_eq_true, Bool.not_eq_true', beq_iff_eq, and_assoc]

theorem nibble_mask_getLsbD (j : Nat) : (0xF#12).getLsbD j = decide (j < 4) := by
  by_cases hj : j < 12
  · interval_cases j <;> rfl
  · rw [BitVec.getLsbD_of_ge _ _ (by omega), decide_eq_false (by omega)]

/-- A colour with the bits of `ham` outside one component, and the component's bits from `d`. -/
theorem eq_replaceComponent {c ham : Colour} {d : BitVec 4} (k : Nat)
    (h : ∀ i < 12, c.getLsbD i = if k ≤ i ∧ i < k + 4 then d.getLsbD (i - k) else ham.getLsbD i) :
    c = (ham &&& ~~~(0xF#12 <<< k)) ||| (d.setWidth 12 <<< k) := by
  refine BitVec.eq_of_getLsbD_eq fun i hi => (h i hi).trans ?_
  simp only [BitVec.getLsbD_or, BitVec.getLsbD_and, BitVec.getLsbD_not, BitVec.getLsbD_shiftLeft,
    BitVec.getLsbD_setWidth, nibble_mask_getLsbD, hi, decide_true, Bool.true_and]
  by_cases hk : i < k
  · simp [hk]
  · by_cases hd : i < k + 4
    · simp [hk, hd, show k ≤ i by omega, show i - k < 4 by omega, show i - k < 12 by omega]
    · simp [hk, hd, show ¬ i - k < 4 by omega, BitVec.getLsbD_of_ge d (i - k) (by omega)]

theorem replace_blue (ham : Colour) (d : BitVec 4) :
    (ham.extractLsb' 4 8 ++ d : Colour) = (ham &&& 0xFF0#12) ||| d.setWidth 12 := by
  rw [← BitVec.shiftLeft_zero (d.setWidth 12)]
  exact eq_replaceComponent 0 fun i hi => by
    simp only [BitVec.getLsbD_append, BitVec.getLsbD_extractLsb']
    grind

theorem replace_green (ham : Colour) (d : BitVec 4) :
    (ham.extractLsb' 8 4 ++ d ++ ham.extractLsb' 0 4 : Colour) = (ham &&& 0xF0F#12) ||| (d.setWidth 12 <<< 4) :=
  eq_replaceComponent 4 fun i hi => by
    simp only [BitVec.getLsbD_append, BitVec.getLsbD_extractLsb']
    grind

theorem replace_red (ham : Colour) (d : BitVec 4) :
    (d ++ ham.extractLsb' 0 8 : Colour) = (ham &&& 0x0FF#12) ||| (d.setWidth 12 <<< 8) :=
  eq_replaceComponent 8 fun i hi => by
    simp only [BitVec.getLsbD_append, BitVec.getLsbD_extractLsb']
    grind

/-- The upper two planes choose between the palette and a component of the running colour. -/
theorem hamColour_eq (s : State) (ham : Colour) (b : BitVec 6) : hamColour s ham b =
    let d := b.extractLsb' 0 4
    match b.extractLsb' 4 2 with
      | 0#2 => s.colour (d.setWidth 5)
      | 1#2 => (ham &&& 0xFF0#12) ||| d.setWidth 12
      | 2#2 => (ham &&& 0x0FF#12) ||| (d.setWidth 12 <<< 8)
      | _ => (ham &&& 0xF0F#12) ||| (d.setWidth 12 <<< 4) := by
  simp only [hamColour, replace_blue, replace_red, replace_green]
  generalize b.extractLsb' 4 2 = control
  have hcontrol : control = 0 ∨ control = 1 ∨ control = 2 ∨ control = 3 := by
    revert control
    decide
  rcases hcontrol with rfl | rfl | rfl | rfl <;> rfl

theorem setWidth_five_eq_ofNat_mod {w : Nat} (b : BitVec w) : b.setWidth 5 = BitVec.ofNat 5 (b.toNat % 32) := by
  apply BitVec.eq_of_toNat_eq
  rw [BitVec.toNat_setWidth, BitVec.toNat_ofNat, Nat.mod_mod]

/-- Plane 6 halves the colour of the other five. -/
theorem ehbColour_eq (s : State) (b : BitVec 6) : ehbColour s b =
    if b.toNat < 32 then s.colour (BitVec.ofNat 5 b.toNat)
    else (s.colour (BitVec.ofNat 5 (b.toNat - 32)) >>> 1) &&& 0x777 := by
  have hplane6 : b.getLsbD 5 = decide (32 ≤ b.toNat) := by
    rw [← BitVec.msb_eq_getLsbD_last, BitVec.msb_eq_decide]
  rw [ehbColour, hplane6, setWidth_five_eq_ofNat_mod]
  by_cases h : b.toNat < 32
  · rw [if_pos h, decide_eq_false (by omega), if_neg Bool.false_ne_true, Nat.mod_eq_of_lt h]
  · rw [if_neg h, decide_eq_true (by omega), if_pos rfl, show b.toNat % 32 = b.toNat - 32 by omega]

end Sys2Proof.Machine

open Sys2Proof Sys2Proof.Machine

/-- Settles O49: each range of the class read as numbers. (The obligation's own name in lower case is the model's
function.) -/
theorem slotClassResult : Obligations.SlotClass := by
  intro s line cyc vStart vStop hStart hStop
  simp only [slotClass, Config.hsync, Config.burst, hblank_iff, Planes.inDiwV_eq, inDiwH_eq, Bool.and_eq_true,
    Bool.or_eq_true, decide_eq_true_eq, and_assoc]
  rfl

/-- Settles O50: the playfields' codes, indexes and transparencies as numbers, then the two orders of a dual playfield
and the single one; the sprite pixel is the first pair's. -/
theorem playfieldPriority : Obligations.PlayfieldPriority := by
  intro s ham b spr i1 i2 c1 c2 colour1 colour2
  have hi1 : (pf1 b).toNat = i1 := pf1_toNat b
  have hi2 : (pf2 b).toNat = i2 := pf2_toNat b
  have hc1 : s.planes.code1 = c1 := code1_eq _
  have hc2 : s.planes.code2 = c2 := code2_eq _
  have hcolour1 : s.colour ((pf1 b).setWidth 5) = colour1 := by rw [← BitVec.ofNat_toNat, hi1]
  have hcolour2 : s.colour (8 + (pf2 b).setWidth 5) = colour2 := by
    rw [← BitVec.ofNat_toNat, hi2]
    exact congrArg s.colour (BitVec.ofNat_add ..).symm
  have hinside : (pixelColour s ham b spr true).2 = priorityColour s spr (playfields s ham b) := rfl
  refine ⟨fun hdual => ?dual, fun hsingle => ?single, pairPixel_spec, fun sprites j => ?sprite⟩
  case dual =>
    rw [hinside, playfields, Planes.dblpf, hdual, if_pos rfl, hc1, hc2, hcolour1, hcolour2, Planes.pf2pri,
      beq_zero_eq_decide hi1, beq_zero_eq_decide hi2]
    cases s.planes.con2.getLsbD 6 <;> cases spr <;>
      simp only [priorityColour, if_true, Bool.false_eq_true, if_false, decide_eq_true_eq, ite_not]
  case single =>
    rw [hinside, playfields, Planes.dblpf, hsingle, if_neg Bool.false_ne_true, hc2]
    cases spr with
    | none => simp only [priorityColour, beq_iff_eq, ite_not]
    | some p => simp only [priorityColour, beq_iff_eq, ite_or]
  case sprite =>
    rw [spritePixel_eq_findSome?]
    exact ⟨Fin.findSome?_eq_none_iff, fun p => Fin.findSome?_eq_some_iff⟩

/-- Settles O51: HAM and EHB by their conditions, each with its colour; no sprite enters the running colour. -/
theorem hamAndEhbPixels : Obligations.HamAndEhbPixels := by
  intro s ham b spr d held hamOn ehbOn
  have hham : hamActive s.planes = true ↔ hamOn := hamActive_iff _
  have hehb : ehbActive s.cfg s.planes = true ↔ ehbOn := ehbActive_iff _ _
  have hheld : hamColour s ham b = held := hamColour_eq s ham b
  refine ⟨fun hon => ⟨(if_pos (hham.2 hon)).trans hheld, (if_pos (hham.2 hon)).trans hheld⟩,
    fun hoff => if_neg (mt hham.1 hoff), fun hon => ?ehb, fun hoff hoff' => ?neither, rfl⟩
  case ehb =>
    have hclear : s.planes.con0.getLsbD 11 = false := hon.2.1
    have hoff : ¬ hamOn := fun ⟨hset, _⟩ => Bool.false_ne_true (hclear.symm.trans hset)
    rw [singleColour, if_neg (mt hham.1 hoff), if_pos (hehb.2 hon), ehbColour_eq]
  case neither =>
    rw [singleColour, if_neg (mt hham.1 hoff), if_neg (mt hehb.1 hoff'), setWidth_five_eq_ofNat_mod]

end

section
/-! SUPPORT. The output step: what it does to the shifters, the units of a Pixels slot, and the runs of slots with the
sink units they hold (46_output.md R450, R452, R460 to R462). -/

namespace Sys2Proof.Machine

/-! ## The activation check (R385) -/

/-- A sprite's shifter after the activation check of a slot whose first pixel is `x0`, from its data word. -/
def Sprite.loadedShifter (p : Sprite) (x0 : Nat) (w : Word) (old : BitVec 32) : BitVec 32 :=
  if p.active = true ∧ p.hStart.toNat = x0 then w ++ 0#16
  else if p.active = true ∧ p.hStart.toNat = x0 + 1 then (w ++ 0#16) >>> 1
  else old

theorem activate_eq (p : Sprite) (x0 : Nat) : p.activate x0 = { p with
    shiftL := p.loadedShifter x0 p.dataA p.shiftL
    shiftM := p.loadedShifter x0 p.dataB p.shiftM } := by
  unfold Sprite.activate Sprite.loadedShifter
  by_cases ha : p.active = true
  · rw [if_pos ha]
    simp only [eq_true ha, true_and]
    split
    · simp only [Sprite.load, BitVec.ushiftRight_zero]
    · split <;> rfl
  · rw [if_neg ha]
    simp only [eq_false ha, false_and, if_false]

/-! ## The units of a slot (R452) -/

/-- Loading the sprites' shifters leaves what a pixel's colour is made of. -/
theorem pixelColour_activateSprites (s : State) (ham : Colour) (b : BitVec 6) (spr : Option SpritePixel)
    (inH : Bool) : pixelColour (activateSprites s) ham b spr inH = pixelColour s ham b spr inH := by
  have hpriority : ∀ l, priorityColour (activateSprites s) spr l = priorityColour s spr l := by
    intro l
    induction l with
    | nil => cases spr <;> rfl
    | cons pf rest ih =>
      simp only [priorityColour, ih]
      rfl
  rw [pixelColour, hpriority]
  rfl

/-- Unit `u` of a Pixels slot: the running HAM colour after it, and its colour. -/
def slotUnit (s : State) (u : Nat) (ham : Colour) : Colour × Colour :=
  let x := 2 * s.raster.cycle + 1 + u / 2
  pixelColour s ham (s.planes.pixelIndex (if s.planes.lineHires then u else u / 2))
    (spritePixel (activateSprites s).sprites (u / 2))
    (decide (s.planes.diwstrt.toNat % 256 ≤ x ∧ x < 256 + s.planes.diwstop.toNat % 256))

theorem unitColours_cons (s : State) (u : Nat) (us : List Nat) (ham : Colour) :
    unitColours (activateSprites s) (slotX s.raster.cycle) (u :: us) ham =
      let rest := unitColours (activateSprites s) (slotX s.raster.cycle) us (slotUnit s u ham).1
      (rest.1, (slotUnit s u ham).2 :: rest.2) := by
  rw [unitColours, pixelColour_activateSprites, inDiwH_eq]
  rfl

/-- The running HAM colour passes through the four units of a Pixels slot. -/
theorem slotColours_activateSprites (s : State) (cls : OutClass) :
    let u0 := slotUnit s 0 s.output.ham
    let u1 := slotUnit s 1 u0.1
    let u2 := slotUnit s 2 u1.1
    let u3 := slotUnit s 3 u2.1
    slotColours (activateSprites s) cls =
      (if cls = .pixels then u3.1 else s.colour 0, if cls = .pixels then [u0.2, u1.2, u2.2, u3.2] else []) := by
  intro u0 u1 u2 u3
  rw [slotColours]
  split
  · show unitColours (activateSprites s) (slotX s.raster.cycle) [0, 1, 2, 3] s.output.ham = _
    simp only [unitColours_cons]
    rfl
  · rfl

/-! ## Runs (R460) -/

/-- The run after a slot of class `cls` joins it: the slot counted, its units staged in the Pixels class. -/
def Output.join (cls : OutClass) (colours : List Colour) (o : Output) : Output :=
  { o with cls := cls, len := o.len + 1, pix := o.pix ++ if cls = .pixels then colours else [] }

/-- The run ended, if it has slots and they are of another class than the slot's. -/
def endRun (cls : OutClass) (s : State) : State := if 0 < s.output.len ∧ cls ≠ s.output.cls then flush s else s

/-- The slot joined to the run. -/
def joinRun (cls : OutClass) (colours : List Colour) (s : State) : State :=
  { s with output := s.output.join cls colours }

/-- Accumulating a slot: a run of another class ends, the slot joins, and a full buffer ends the run. -/
theorem accumulate_eq (cls : OutClass) (colours : List Colour) (s : State) :
    accumulate cls colours s =
      if cls = .pixels ∧ s.cfg.pixelBufferUnits < (joinRun cls colours (endRun cls s)).output.pix.length + 4
      then flush (joinRun cls colours (endRun cls s)) else joinRun cls colours (endRun cls s) := by
  unfold accumulate
  by_cases h : cls = .pixels
  · simp only [h, true_and, if_true]
    rfl
  · simp only [h, false_and, if_false, joinRun, Output.join, List.append_nil]
    rfl

/-! ## The sink units (R450, R462) -/

/-- The staged pixels are those of the run. -/
def Output.Staged (o : Output) : Prop := o.pix.length = if o.cls = .pixels then 4 * o.len else 0

theorem runCall_units {o : Output} (h : o.Staged) : (runCall o).units = 4 * o.len := by
  rw [runCall]
  cases hc : o.cls with
  | pixels => exact h.trans (if_pos hc)
  | sync | blank | colourBurst | border c => rfl

/-- `flush_totalUnits` also for a run that fills the buffer. -/
theorem flush_totalUnits_of_staged {s : State} (hs : s.sinkInstalled = true) (h : s.output.Staged) :
    totalUnits (flush s) = totalUnits s := by
  have hvideo : (flush s).video = runCall s.output :: s.video := if_pos hs
  rw [totalUnits, hvideo, List.map_cons, List.sum_cons, runCall_units h, Nat.add_comm (4 * _)]
  rfl

theorem endRun_totalUnits (cls : OutClass) {s : State} (hs : s.sinkInstalled = true) (h : s.output.Staged) :
    totalUnits (endRun cls s) = totalUnits s := by
  rw [endRun]
  split
  · exact flush_totalUnits_of_staged hs h
  · rfl

theorem endRun_sinkInstalled (cls : OutClass) (s : State) : (endRun cls s).sinkInstalled = s.sinkInstalled := by
  rw [endRun]
  split <;> rfl

/-- The run a slot joins is empty or of the slot's own class. -/
theorem endRun_staged (cls : OutClass) {s : State} (h : s.output.Staged) :
    (endRun cls s).output.pix.length = if cls = .pixels then 4 * (endRun cls s).output.len else 0 := by
  rw [endRun]
  split
  case isTrue =>
    rw [flush_output]
    exact (ite_self 0).symm
  case isFalse hn =>
    by_cases hc : cls = s.output.cls
    · rw [hc]
      exact h
    · have h0 : s.output.len = 0 := by
        by_contra hlen
        exact hn ⟨Nat.pos_of_ne_zero hlen, hc⟩
      rw [h, h0, Nat.mul_zero, ite_self, ite_self]

theorem joinRun_totalUnits (cls : OutClass) (colours : List Colour) (s : State) :
    totalUnits (joinRun cls colours s) = totalUnits s + 4 := rfl

theorem accumulate_totalUnits {cls : OutClass} {colours : List Colour} {s : State} (hs : s.sinkInstalled = true)
    (hstaged : s.output.Staged) (hcolours : colours.length = if cls = .pixels then 4 else 0) :
    totalUnits (accumulate cls colours s) = totalUnits s + 4 := by
  have hsink : (joinRun cls colours (endRun cls s)).sinkInstalled = true := (endRun_sinkInstalled cls s).trans hs
  have hjoin : totalUnits (joinRun cls colours (endRun cls s)) = totalUnits s + 4 := by
    rw [joinRun_totalUnits, endRun_totalUnits cls hs hstaged]
  rw [accumulate_eq]
  split
  case isFalse => exact hjoin
  case isTrue hfull =>
    obtain ⟨rfl, -⟩ := hfull
    rw [flush_totalUnits_of_staged hsink, hjoin]
    show ((endRun .pixels s).output.pix ++ colours).length = 4 * ((endRun .pixels s).output.len + 1)
    rw [List.length_append, endRun_staged _ hstaged, hcolours, if_pos rfl, if_pos rfl, Nat.mul_add]

theorem outputSlot_totalUnits {s : State} (hs : s.sinkInstalled = true) (h : s.output.Staged) :
    totalUnits (outputSlot s) = totalUnits s + 4 :=
  accumulate_totalUnits (s := { shiftAll (activateSprites s) with output := _ }) hs h (slotColours_length _ _)

theorem totalUnits_congr {s t : State} (hvideo : t.video = s.video) (houtput : t.output = s.output) :
    totalUnits t = totalUnits s := by
  rw [totalUnits, hvideo, houtput, totalUnits]

/-- A slot counts its units in the output step alone. -/
theorem slot_totalUnits {cpuWants : Bool} {s t : State} (hs : s.sinkInstalled = true) (h : s.output.Staged)
    (ht : slot cpuWants s = .next t) : totalUnits t = totalUnits s + 4 := by
  obtain ⟨u, hu, rfl⟩ := slot_cases ht
  obtain ⟨-, -, houtput, hvideo, hsink⟩ := performGrant_frame hu
  rw [slotStart_output] at houtput
  rw [slotStart_video] at hvideo
  rw [slotStart_sinkInstalled, hs] at hsink
  calc totalUnits (slotEnd u)
      = totalUnits (outputSlot u) := totalUnits_congr (slotEnd_video u) (slotEnd_output u)
    _ = totalUnits u + 4 := outputSlot_totalUnits hsink (houtput ▸ h)
    _ = totalUnits s + 4 := congrArg (· + 4) (totalUnits_congr hvideo houtput)

end Sys2Proof.Machine

open Sys2Proof Sys2Proof.Machine

/-- Settles O45: the shifters after the loading and the shift, a pair's nibble bit by bit, and the slot's units
accumulated. -/
theorem outputSlotShifts : Obligations.OutputSlotShifts := by
  intro s
  refine ⟨outputSlot_frame s, fun i => ?planes, fun n => ⟨?shifted, ?loaded⟩,
    fun sprites k j i hi => pairNibble_getLsbD sprites k j hi, ?units⟩
  case planes =>
    rw [outputSlot_planes, shift_shifter]
    rfl
  case shifted =>
    rw [outputSlot_sprites, Fin.getElem_fin, vmap_getElem, vmap_getElem, activate_eq]
    rfl
  case loaded => exact (vmap_getElem _ _ _ _).trans (activate_eq _ _)
  case units =>
    intro cls unit u0 u1 u2 u3
    rw [outputSlot_planes, outputSlot_sprites]
    show accumulate cls (slotColours (activateSprites s) cls).2 { shiftAll (activateSprites s) with
      output := { s.output with ham := (slotColours (activateSprites s) cls).1 } } = _
    rw [slotColours_activateSprites]
    rfl

/-- Settles O52: the units a slot counts; what accumulating does, with the run it joins in closed form; and the call of
each class. -/
theorem fourUnitsPerSlot : Obligations.FourUnitsPerSlot := by
  refine ⟨fun _ _ _ ho hs ht => slot_totalUnits hs ho.staged ht, fun cls colours s => ?accumulated, fun o => ?calls⟩
  case accumulated =>
    intro ends video run full
    have hrun : joinRun cls colours (endRun cls s) = { s with video := video, output := run } := by
      by_cases h : ends
      · rw [endRun, if_pos h]
        simp only [video, run, eq_true h, true_and, if_true]
        rfl
      · rw [endRun, if_neg h]
        simp only [video, run, eq_false h, false_and, if_false]
        rfl
    rw [accumulate_eq, hrun]
    by_cases h : full
    · have hcall : runCall run = .outputData run.pix.length run.pix := by rw [runCall, show run.cls = .pixels from h.1]
      rw [if_pos h, if_pos h, flush, hcall]
    · rw [if_neg h, if_neg h]
  case calls =>
    exact ⟨fun h => by rw [runCall, h], fun h => by rw [runCall, h], fun h => by rw [runCall, h],
      fun c h => by rw [runCall, h], fun h => by rw [runCall, h]⟩

end

section
/-! SUPPORT. The interrupt controller (60_exceptions.md): the level as a maximum, which requests an input or a frame
start raises, and what alone takes a request away. -/

namespace Sys2Proof.Machine

/-! ## The level (R491) -/

/-- The table of R42. -/
theorem levelOf_eq_table {i : Nat} (h : i < 14) :
    levelOf i = ([1, 1, 1, 2, 3, 3, 3, 4, 4, 4, 4, 5, 5, 6] : List Nat).getD i 0 := by
  revert i
  decide

/-- The levels of the enabled pending requests. -/
def enabledLevels (enable request : Word) : List Nat :=
  ((List.range 14).filter (enable &&& request).getLsbD).map levelOf

theorem mem_enabledLevels {enable request : Word} {l : Nat} : l ∈ enabledLevels enable request ↔
    ∃ i < 14, enable.getLsbD i = true ∧ request.getLsbD i = true ∧ levelOf i = l := by
  simp only [enabledLevels, List.mem_map, List.mem_filter, List.mem_range, BitVec.getLsbD_and, Bool.and_eq_true,
    and_assoc]

theorem computeLevel_of_inten_clear {enable : Word} (h : enable.getLsbD 14 = false) (request : Word) :
    computeLevel enable request = 0 := by
  rw [computeLevel, h]
  rfl

/-- With INTEN set the level is the largest of those levels and 0. -/
theorem max?_enabledLevels {enable : Word} (h : enable.getLsbD 14 = true) (request : Word) :
    (0 :: enabledLevels enable request).max? = some (computeLevel enable request) := by
  rw [computeLevel, if_pos h, List.max?_cons', enabledLevels, List.foldl_map, List.foldl_filter]

/-- After a reset INTEN is clear and the level 0. -/
theorem resetWith_inSync (d : ResetDraws) (s : State) : (s.resetWith d).irq.InSync :=
  (computeLevel_of_inten_clear BitVec.getLsbD_zero 0).symm

/-- Every step keeps the level the one its masks give. -/
theorem step_keeps_inSync {s t : State} (h : s.irq.InSync) (hs : step s = .next t) : t.irq.InSync :=
  step_preserves (P := fun s => s.irq.InSync) (fun _ _ _ _ _ h => h) (fun i _ h => performInput_inSync i h)
    (fun _ h => slotStart_inSync h) (fun _ _ _ h _ hg => performGrant_inSync h hg)
    (fun s h => by rw [slotEnd_irq]; exact h) (fun _ _ _ h => h)
    (fun _ _ _ h ha => performAccess_preserves (P := fun s => s.irq.InSync)
      (fun _ _ _ _ h hw => writeOffset_inSync h hw) (fun _ _ _ _ h => h) h ha)
    (fun d s _ => resetWith_inSync d s) h hs

/-! ## Raising requests (R492, R496) -/

theorem setRequest_if_getLsbD (q : Irq) (c : Bool) (b : IrqBit) (i : Nat) :
    (if c then q.setRequest b else q).request.getLsbD i = (q.request.getLsbD i || (decide (i = b.pos) && c)) := by
  cases c
  · rw [if_neg (by decide), Bool.and_false, Bool.or_false]
  · rw [if_pos rfl, setRequest_getLsbD, Bool.and_true]

/-- What raising requests makes of a controller: new requests, and the level recomputed if any was raised (`c`). -/
def Irq.Raised (c : Bool) (q q' : Irq) : Prop :=
  q' = { q with request := q'.request, level := if c then computeLevel q.enable q'.request else q.level }

theorem Irq.Raised.refl (q : Irq) : Irq.Raised false q q := rfl

/-- One more request, raised under its own condition. -/
theorem Irq.Raised.setRequest_if {c : Bool} {q q' : Irq} (h : Irq.Raised c q q') (d : Bool) (b : IrqBit) :
    Irq.Raised (c || d) q (if d then q'.setRequest b else q') := by
  cases d
  · rw [Bool.or_false]
    exact h
  · rw [Irq.Raised, Bool.or_true, if_pos rfl, if_pos rfl]
    obtain ⟨request, level, rfl⟩ : ∃ request level, q' = { q with request := request, level := level } := ⟨_, _, h⟩
    rfl

/-- The inputs whose requests step 2 of a slot raises. -/
def Irq.anyInput (q : Irq) : Bool := q.tbe || q.ports || q.rbf || q.dsksyn || q.exter

theorem samplePeripherals_raised (s : State) : Irq.Raised s.irq.anyInput s.irq (samplePeripherals s).irq := by
  rw [samplePeripherals_eq]
  have hnone := Irq.Raised.refl s.irq
  exact ((((hnone.setRequest_if _ _).setRequest_if _ _).setRequest_if _ _).setRequest_if _ _).setRequest_if _ _

theorem samplePeripherals_request (s : State) (i : Nat) : (samplePeripherals s).irq.request.getLsbD i =
    (s.irq.request.getLsbD i || (decide (i = 0) && s.irq.tbe) || (decide (i = 3) && s.irq.ports) ||
      (decide (i = 11) && s.irq.rbf) || (decide (i = 12) && s.irq.dsksyn) || (decide (i = 13) && s.irq.exter)) := by
  rw [samplePeripherals_eq]
  simp only [setRequest_if_getLsbD]
  rfl

/-- The slot at (0, 0) of a frame (R192). -/
def State.atFrameStart (s : State) : Bool := decide (s.raster.cycle = 0 ∧ s.raster.line = 0)

/-- `slotStart_irq` with its condition as a Boolean. -/
theorem slotStart_irq_eq (s : State) : (slotStart s).irq =
    if s.atFrameStart then (samplePeripherals s).irq.setRequest .vertb else (samplePeripherals s).irq := by
  simp only [slotStart_irq, State.atFrameStart, decide_eq_true_eq]

theorem slotStart_raised (s : State) : Irq.Raised (s.irq.anyInput || s.atFrameStart) s.irq (slotStart s).irq := by
  rw [slotStart_irq_eq]
  exact (samplePeripherals_raised s).setRequest_if _ _

theorem slotStart_request (s : State) (i : Nat) : (slotStart s).irq.request.getLsbD i =
    ((samplePeripherals s).irq.request.getLsbD i || (decide (i = 5) && s.atFrameStart)) := by
  rw [slotStart_irq_eq, setRequest_if_getLsbD]
  rfl

/-! ## What takes a request away (R492, R494) -/

section

variable {i : Nat} {s : State}

theorem setRequest_ite_keeps {c : Prop} [Decidable c] {q : Irq} (h : q.request.getLsbD i = true) (b : IrqBit) :
    (if c then q.setRequest b else q).request.getLsbD i = true := by
  split
  · rw [setRequest_getLsbD, h, Bool.true_or]
  · exact h

theorem slotStart_keeps_request (h : s.irq.request.getLsbD i = true) :
    (slotStart s).irq.request.getLsbD i = true := by
  simp only [slotStart_request, samplePeripherals_request, h, Bool.true_or]

theorem audioStep_irq (n : Fin 4) (s : State) :
    (audioStep n s).irq = if s.audio[n].left = 1 then s.irq.setRequest (.aud n) else s.irq := by
  by_cases h : s.audio[n].left = 1
  · rw [audioStep_of_last h, if_pos h]
    rfl
  · rw [audioStep_of_more h, if_neg h]
    rfl

/-- No operation but the Copper's takes a request away. -/
theorem performGrant_keeps_request {g : Grant} {t : State} (hg : g ≠ .channel .copper)
    (h : s.irq.request.getLsbD i = true) (ht : performGrant g s = .next t) : t.irq.request.getLsbD i = true := by
  cases g with
  | channel c =>
    cases c with
    | copper => exact absurd rfl hg
    | blitter =>
      cases ht
      rw [blitterStep_irq]
      exact setRequest_ite_keeps h _
    | bitplane =>
      cases ht
      rw [bitplaneFetch_frame]
      exact h
    | sprite n =>
      cases ht
      exact h
    | disk =>
      cases ht
      rw [diskStep_irq]
      exact setRequest_ite_keeps h _
    | audio n =>
      cases ht
      rw [audioStep_irq]
      exact setRequest_ite_keeps h _
  | cpu | idle =>
    cases ht
    exact h

theorem setClr_clears {mask old v : Word} (h : old.getLsbD i = true) (hc : (setClr mask old v).getLsbD i = false) :
    v.getLsbD 15 = false ∧ v.getLsbD i = true := by
  rw [setClr_getLsbD _ _ _ _ (BitVec.lt_of_getLsbD h), h] at hc
  split at hc
  case isTrue => exact absurd hc (by simp)
  case isFalse h15 =>
    rw [Bool.true_and, Bool.not_eq_false', Bool.and_eq_true] at hc
    exact ⟨Bool.eq_false_iff.2 h15, hc.1⟩

/-- INTREQ is the one register whose storage takes a request away. -/
theorem storeReg_clears_request {r : Reg} {v : Word} (h : s.irq.request.getLsbD i = true)
    (hc : (storeReg r v s).irq.request.getLsbD i = false) :
    r = .intreq ∧ v.getLsbD 15 = false ∧ v.getLsbD i = true := by
  cases r with
  | intreq => exact ⟨rfl, setClr_clears h hc⟩
  | dmacon =>
    rw [storeReg, writeDmacon, foldl_audioEnableChange_request, h, Bool.true_or] at hc
    cases hc
  | bplcon0 =>
    rw [storeReg, writeBplcon0_frame] at hc
    cases h.symm.trans hc
  | _ => cases h.symm.trans hc

theorem writeOffset_clears_request {agent : Agent} {o : Offset} {v : Word} {t : State}
    (h : s.irq.request.getLsbD i = true) (hw : writeOffset agent o v s = .next t)
    (hc : t.irq.request.getLsbD i = false) : o = 0x09C ∧ v.getLsbD 15 = false ∧ v.getLsbD i = true := by
  rcases writeOffset_cases hw with rfl | ⟨r, hr, -, rfl⟩ | ⟨-, -, rfl⟩ | ⟨r, -, -, rfl⟩
  · cases h.symm.trans hc
  · obtain ⟨rfl, hv⟩ := storeReg_clears_request h hc
    exact ⟨(regOffset_of_regOf hr).symm, hv⟩
  · cases h.symm.trans hc
  · cases h.symm.trans hc

/-- Of the instructions a MOVE to INTREQ alone takes a request away; the fetch before it keeps them all. -/
theorem copperStep_clears_request {t : State} (h : s.irq.request.getLsbD i = true) (ht : copperStep s = .next t)
    (hc : t.irq.request.getLsbD i = false) :
    ∃ ign v, copperInstr s = .move ign 0x09C v ∧ v.getLsbD 15 = false ∧ v.getLsbD i = true := by
  rw [copperStep] at ht
  cases hi : copperInstr s with
  | move ign dest v =>
    rw [hi] at ht
    obtain ⟨rfl, hv⟩ := writeOffset_clears_request (s := copperFetch s) h ht hc
    exact ⟨ign, v, rfl, hv⟩
  | wait vp hp bfd ve he | skip vp hp bfd ve he =>
    rw [hi] at ht
    cases ht
    cases h.symm.trans hc

end

end Sys2Proof.Machine

open Sys2Proof Sys2Proof.Machine

/-- Settles O33: the level is the maximum of 0 and the levels of the enabled pending requests, and every part of a step
that changes a mask recomputes it. -/
theorem interruptLevel : Obligations.InterruptLevel := by
  refine ⟨fun enable request => ⟨fun h => computeLevel_of_inten_clear h request, fun h => ?inten⟩,
    fun s t h hs => step_keeps_inSync h hs⟩
  case inten =>
    obtain ⟨hmem, hmax⟩ := List.max?_eq_some_iff.1 (max?_enabledLevels h request)
    refine ⟨fun i hi he hr => ?_, (List.mem_cons.1 hmem).imp_right fun hl => ?_⟩
    · rw [← levelOf_eq_table hi]
      exact hmax _ (List.mem_cons_of_mem _ (mem_enabledLevels.2 ⟨i, hi, he, hr, rfl⟩))
    · obtain ⟨i, hi, he, hr, hlevel⟩ := mem_enabledLevels.1 hl
      exact ⟨i, hi, he, hr, hlevel.symm.trans (levelOf_eq_table hi)⟩

/-- Settles O34: the start and the end of a slot and every other operation keep a request; of the Copper's instructions
a MOVE to INTREQ alone can take it away. -/
theorem onlyIntreqWritesClearRequests : Obligations.OnlyIntreqWritesClearRequests := by
  intro cpuWants s t i hs hset hclear
  obtain ⟨u, hu, rfl⟩ := slot_cases hs
  rw [slotEnd_irq] at hclear
  have hstart : (slotStart s).irq.request.getLsbD i = true := slotStart_keeps_request hset
  have hg : slotGrant cpuWants s = .channel .copper := by
    by_contra hne
    cases (performGrant_keeps_request hne hstart hu).symm.trans hclear
  exact ⟨hg, copperStep_clears_request hstart (by rw [hg] at hu; exact hu) hclear⟩

/-- Settles O35: each input's request is raised under its own condition, VERTB under the position's; the level is
recomputed where one of them holds. -/
theorem inputsRaiseRequests : Obligations.InputsRaiseRequests := by
  intro s
  have hinputs : s.irq.anyInput = true ↔ s.irq.tbe ∨ s.irq.ports ∨ s.irq.rbf ∨ s.irq.dsksyn ∨ s.irq.exter := by
    simp only [Irq.anyInput, Bool.or_eq_true, or_assoc]
  have hframe : s.atFrameStart = true ↔ s.raster.cycle = 0 ∧ s.raster.line = 0 := decide_eq_true_iff
  have hdisk : (samplePeripherals s).disk =
      { s.disk with syncSeen := s.disk.syncSeen || (s.irq.dsksyn && s.disk.active) } := by rw [samplePeripherals_eq]
  have hsample := samplePeripherals_raised s
  have hstart := slotStart_raised s
  simp only [Irq.Raised, Bool.or_eq_true, hinputs, hframe, or_assoc] at hsample hstart
  refine ⟨samplePeripherals_request s, hdisk, samplePeripherals_frame s, hsample, slotStart_frame s,
    (slotStart_disk s).trans hdisk, fun i => ?request, hstart⟩
  rw [slotStart_request, samplePeripherals_request, State.atFrameStart]
  ac_rfl

end

section
/-! SUPPORT. Reset and construction (70_reset_and_hazards.md R530 to R532): the state they give, and its first slot. -/

namespace Sys2Proof.Machine

/-! ## The invariants after a reset (R531) -/

theorem blank_memoryOk (cfg : Config) : MemoryOk (State.blank cfg) := ⟨rfl, nofun⟩

theorem resetWith_registersOk (d : ResetDraws) (s : State) : RegistersOk (s.resetWith d) :=
  ⟨BitVec.zero_and, BitVec.getLsbD_zero, BitVec.getLsbD_zero, BitVec.getLsbD_zero⟩

/-- After a reset the Blitter is idle, so nothing is asked of its counts. -/
theorem resetWith_blitterOk (d : ResetDraws) (s : State) : BlitterOk (s.resetWith d) :=
  (blitterOk_iff _).2 nofun

theorem resetWith_planesOk (d : ResetDraws) (s : State) : PlanesOk (s.resetWith d) := ⟨Nat.zero_le 6, nofun⟩

theorem resetWith_outputOk (d : ResetDraws) {s : State} (hv : s.cfg.valid = true) : OutputOk (s.resetWith d) := by
  obtain ⟨-, -, -, -, -, -, -, -, -, -, -, -, -, -, -, -, -, -, -, -, h4⟩ := (Config.valid_iff _).1 hv
  exact ⟨rfl, h4⟩

/-- A reset gives every invariant but the one on chip RAM, which it keeps. -/
theorem resetWith_inv (d : ResetDraws) {s : State} (hv : s.cfg.valid = true) (hm : MemoryOk s) :
    Inv (s.resetWith d) where
  cfg := hv
  raster := resetWith_rasterOk d hv
  memory := memoryOk_of hm rfl rfl
  level := resetWith_inSync d s
  pointers := resetWith_pointersOk d s
  registers := resetWith_registersOk d s
  blitter := resetWith_blitterOk d s
  planes := resetWith_planesOk d s
  sprites := resetWith_spritesOk d s
  channels := (channelsOk_iff _).2 (resetWith_channelsOk d s)
  output := resetWith_outputOk d hv

/-- What construction gives: an accepted configuration, and the reset of its blank state. -/
theorem construct_eq_next {cfg : Config} {d : ResetDraws} {s : State} (h : State.construct cfg d = .next s) :
    cfg.valid = true ∧ s = (State.blank cfg).resetWith d := by
  cases hv : cfg.valid with
  | true => exact ⟨rfl, Host.Outcome.next.inj (h.symm.trans (State.construct_of_valid hv d))⟩
  | false =>
    obtain ⟨status, hbad⟩ := State.construct_of_valid_eq_false hv d
    cases h.symm.trans hbad

/-! ## The first slot (R532) -/

/-- With nothing pending a step is a slot without the CPU. -/
theorem step_idle {s : State} (hi : s.inputs = []) (hr : s.run = none) (hc : s.calls = []) : step s = slot false s := by
  rw [step_driven (by simp [hi]), drivenStep_idle hr hc, tickInputs_nil hi]

/-- With DMAEN clear and the CPU not asking nobody is granted the slot. -/
theorem slotGrant_idle {s : State} (h : s.dmacon.getLsbD 9 = false) : slotGrant false s = .idle := by
  refine (grant_eq_idle_iff _ _).2 ⟨rfl, fun c => (candidate_eq_false_iff _ _ _).2 fun hw => ?_⟩
  have henabled := enabled_of_wants hw
  rw [enabled_eq_false_of_dmaen (by rw [slotStart_dmacon]; exact h)] at henabled
  cases henabled

theorem slot_idle {s : State} (h : s.dmacon.getLsbD 9 = false) : slot false s = .next (slotEnd (slotStart s)) :=
  slot_of_performGrant (by rw [slotGrant_idle h]; rfl)

/-- With no input high step 2 of a slot leaves the interrupt controller as it is. -/
theorem samplePeripherals_irq_of_no_input {s : State} (h : s.irq.anyInput = false) :
    (samplePeripherals s).irq = s.irq := by
  simp only [Irq.anyInput, Bool.or_eq_false_iff, and_assoc] at h
  obtain ⟨htbe, hports, hrbf, hdsksyn, hexter⟩ := h
  simp only [samplePeripherals_eq, htbe, hports, hrbf, hdsksyn, hexter, Bool.false_eq_true, if_false]

/-- With no sink installed a run that ends leaves no call (R204). -/
theorem flush_video_of_no_sink {s : State} (h : s.sinkInstalled = false) : (flush s).video = s.video :=
  if_neg (Bool.eq_false_iff.1 h)

theorem endRun_video_of_no_sink (cls : OutClass) {s : State} (h : s.sinkInstalled = false) :
    (endRun cls s).video = s.video := by
  rw [endRun]
  split
  · exact flush_video_of_no_sink h
  · rfl

theorem accumulate_video_of_no_sink (cls : OutClass) (colours : List Colour) {s : State} (h : s.sinkInstalled = false) :
    (accumulate cls colours s).video = s.video := by
  have hsink : (joinRun cls colours (endRun cls s)).sinkInstalled = false := (endRun_sinkInstalled cls s).trans h
  have hjoin : (joinRun cls colours (endRun cls s)).video = s.video := endRun_video_of_no_sink cls h
  rw [accumulate_eq]
  split
  · exact (flush_video_of_no_sink hsink).trans hjoin
  · exact hjoin

theorem outputSlot_video_of_no_sink {s : State} (h : s.sinkInstalled = false) : (outputSlot s).video = s.video :=
  accumulate_video_of_no_sink _ _ (s := { shiftAll (activateSprites s) with output := _ }) h

/-- Before the last cycle of a line the position moves on by one cycle. -/
theorem advancePosition_within_line {cfg : Config} {r : Raster} (h : r.cycle + 1 ≠ cfg.lineLength) :
    advancePosition cfg r = { r with cycle := r.cycle + 1 } := if_neg h

/-- With no DMA enabled and the Blitter neither busy nor done with a zero result DMACONR reads 0. -/
theorem dmaconr_eq_zero {s : State} (hd : s.dmacon = 0) (hb : s.blitter.busy = false) (hz : s.blitter.zero = false) :
    s.dmaconr = 0 := by
  rw [State.dmaconr, hd, hb, hz]
  rfl

/-- The state after the first slot from a reset. -/
def afterFirstSlot (d : ResetDraws) (s : State) : State := slotEnd (slotStart (s.resetWith d))

/-- DMAEN is clear after a reset, so the first slot is idle. -/
theorem step_resetWith (d : ResetDraws) {s : State} (hi : s.inputs = []) (hr : s.run = none) (hc : s.calls = []) :
    step (s.resetWith d) = .next (afterFirstSlot d s) :=
  (step_idle (s := s.resetWith d) hi hr hc).trans (slot_idle (s := s.resetWith d) BitVec.getLsbD_zero)

section

variable (d : ResetDraws) (s : State)

theorem afterFirstSlot_raster (h : 0 + 1 ≠ s.cfg.lineLength) : (afterFirstSlot d s).raster = ⟨0, 1, 0, true, 0⟩ := by
  rw [afterFirstSlot, slotEnd_raster, slotStart_cfg, slotStart_raster]
  exact advancePosition_within_line h

/-- VERTB is requested, and INTEN is clear. -/
theorem afterFirstSlot_irq : (afterFirstSlot d s).irq = { (s.resetWith d).irq with request := 0x0020, level := 0 } := by
  have hlevel : computeLevel 0 0x0020 = 0 := computeLevel_of_inten_clear BitVec.getLsbD_zero _
  have hrequest : (0 ||| 1#16 <<< IrqBit.vertb.pos : Word) = 0x0020 := by decide
  rw [afterFirstSlot, slotEnd_irq, slotStart_irq, if_pos ⟨rfl, rfl⟩, samplePeripherals_irq_of_no_input rfl]
  show (s.resetWith d).irq.withMasks 0 (0 ||| 1#16 <<< IrqBit.vertb.pos) = _
  rw [hrequest, Irq.withMasks, hlevel]
  rfl

/-- The Copper starts if the configuration reloads it at every frame. -/
theorem afterFirstSlot_copper : (afterFirstSlot d s).copper =
    if s.cfg.copperVblankReload then { (s.resetWith d).copper with pc := (s.resetWith d).copper.loc1, mode := .running }
    else (s.resetWith d).copper := by
  rw [afterFirstSlot, slotEnd_copper, slotStart_copper, copperApplyPendingJump_none rfl]
  by_cases h : s.cfg.copperVblankReload = true
  · rw [if_pos ⟨h, rfl, rfl⟩, if_pos h]
    rfl
  · rw [if_neg fun hr => h hr.1, if_neg h]

theorem afterFirstSlot_dmacon : (afterFirstSlot d s).dmacon = 0 := by
  rw [afterFirstSlot, slotEnd_dmacon, slotStart_dmacon]
  rfl

theorem afterFirstSlot_dmaconr : (afterFirstSlot d s).dmaconr = 0 := by
  have hb : (afterFirstSlot d s).blitter = (s.resetWith d).blitter := by
    rw [afterFirstSlot, slotEnd_blitter, slotStart_blitter]
  exact dmaconr_eq_zero (afterFirstSlot_dmacon d s) (by rw [hb]; rfl) (by rw [hb]; rfl)

theorem afterFirstSlot_mem : (afterFirstSlot d s).mem = s.mem := by
  rw [afterFirstSlot, slotEnd_mem, slotStart_mem]
  rfl

theorem afterFirstSlot_video (h : s.sinkInstalled = false) : (afterFirstSlot d s).video = s.video := by
  rw [afterFirstSlot, slotEnd_video, outputSlot_video_of_no_sink (by rw [slotStart_sinkInstalled]; exact h),
    slotStart_video]
  rfl

end

end Sys2Proof.Machine

open Sys2Proof Sys2Proof.Machine

/-- Settles O53: the values are those `resetWith` writes; a vector of units is read off element by element. -/
theorem resetValues : Obligations.ResetValues := by
  intro s d
  refine ⟨rfl, rfl, rfl, rfl, rfl, rfl, rfl, rfl, rfl, rfl, rfl, rfl, rfl, rfl, rfl, fun i => ?planes, rfl, rfl, rfl,
    rfl, fun n => ?sprites, rfl, fun n => ?audio, rfl, rfl, rfl, rfl, rfl, rfl⟩
  case planes =>
    have hcleared {α : Type} (x : α) : (Vector.replicate 6 x)[i] = x := Vector.getElem_replicate i.isLt
    exact ⟨vmap_getElem _ _ _ i.isLt, hcleared _, hcleared _, hcleared _, hcleared _, hcleared _⟩
  case sprites => exact vmap_getElem _ _ _ n.isLt
  case audio => exact vmap_getElem _ _ _ n.isLt

/-- Settles O56: an accepted construction is the reset of a blank state, and the reset state is that of the reference
configuration. -/
theorem constructedStatesMeetInv : Obligations.ConstructedStatesMeetInv := by
  refine ⟨resetWith_inv _ (by decide) (blank_memoryOk _), fun cfg d s h => ?constructed⟩
  obtain ⟨hv, rfl⟩ := construct_eq_next h
  exact resetWith_inv d hv (blank_memoryOk cfg)

/-- Settles O55: with DMAEN clear the slot is idle, so the state after it is what the start and the end of a slot make
of the reset state. -/
theorem firstSlotAfterReset : Obligations.FirstSlotAfterReset := by
  intro cfg d s h
  obtain ⟨hv, rfl⟩ := construct_eq_next h
  have hlen : 0 + 1 ≠ cfg.lineLength := by
    obtain ⟨hmin, -⟩ := (Config.valid_iff cfg).1 hv
    omega
  have hraster := afterFirstSlot_raster d (State.blank cfg) hlen
  have hirq := afterFirstSlot_irq d (State.blank cfg)
  refine ⟨_, step_resetWith d rfl rfl rfl, by rw [hraster], by rw [hraster], by rw [hraster], by rw [hirq],
    by rw [hirq], afterFirstSlot_dmacon _ _, afterFirstSlot_dmaconr _ _, afterFirstSlot_video _ _ rfl,
    afterFirstSlot_mem _ _, fun (hno : (State.blank cfg).cfg.copperVblankReload = false) => ?stopped,
    fun (hreload : (State.blank cfg).cfg.copperVblankReload = true) => ?running⟩
  case stopped =>
    rw [afterFirstSlot_copper, if_neg (Bool.eq_false_iff.1 hno)]
    rfl
  case running =>
    rw [afterFirstSlot_copper, if_pos hreload]
    exact ⟨rfl, rfl⟩

end
